-- ==== Sys2Proof/Word.lean ====
section
/-! DEFINITION. The word types of rule R13 and the electrical level of a signal (R10). -/

namespace Sys2Proof

/-- `Byte` of R13: an 8-bit unsigned value. -/
abbrev Byte := BitVec 8

/-- `U16` of R13; a `Color565` is a `U16` too. -/
abbrev U16 := BitVec 16

/-- `Coord` of R13: a 32-bit two's complement value, read as an integer with `BitVec.toInt`. -/
abbrev Coord := BitVec 32

/-- A wire unit of R62: the mode-select level in bit 8, the byte in bits 7 to 0. -/
abbrev WireUnit := BitVec 9

/-- An electrical level (R10, R26). -/
inductive Level where
  | low
  | high
deriving DecidableEq, Repr, Inhabited

end Sys2Proof
end

