-- ==== Sys2Proof/Config.lean ====
section
/-! DEFINITION. The configuration of the block (R7, R8, R28), the reference configuration CFG0, and the
free values: constants without a body, one for each kind of value the spec leaves open. -/

namespace Sys2Proof

/-- `RGB888` of R13. -/
structure RGB888 where
  r : Byte
  g : Byte
  b : Byte
deriving DecidableEq, Repr, Inhabited

/-- `InitStep` of R13 and R91; the delay is in milliseconds. -/
structure InitStep where
  cmd : Byte
  payload : List Byte
  delayMs : U16
deriving DecidableEq, Repr, Inhabited

/-- `PANEL_ORIENT` of R8 and R55: the identity is the reference; `other n` is any other mapping, left open
(log 21). -/
inductive Orient where
  | identity
  | other (n : Nat)
deriving DecidableEq, Repr, Inhabited

/-- The configuration parameters of R8 and R28. -/
structure Config where
  hasRst : Bool
  hasBl : Bool
  initTable : List InitStep
  colmodPayload : List Byte
  madctlPayload : List Byte
  initialFillColor : RGB888
  rstPulseMs : Nat
  fSclkHz : Nat
  csActiveLevel : Level
  rstActiveLevel : Level
  panelOrient : Orient
deriving DecidableEq, Repr, Inhabited

/-- `REF_INIT` of R100. -/
def Config.refInit : List InitStep :=
  [⟨0x01, [], 120⟩, ⟨0x11, [], 120⟩, ⟨0x3A, [0x05], 0⟩, ⟨0x36, [0x48], 0⟩,
   ⟨0x21, [], 10⟩, ⟨0x13, [], 10⟩, ⟨0x29, [], 120⟩]

/-- CFG0 of 95_test_vectors.md. The pulse width and the clock have no reference value there
(DESIGN CHOICE, log 1); the polarities are R8's reference. -/
def Config.ref : Config where
  hasRst := false
  hasBl := false
  initTable := Config.refInit
  colmodPayload := [0x05]
  madctlPayload := [0x48]
  initialFillColor := ⟨0, 0, 0⟩
  rstPulseMs := 10
  fSclkHz := 40000000
  csActiveLevel := .low
  rstActiveLevel := .low
  panelOrient := .identity

/-! Free values. None has a body, so nothing can be proved of what it is; the first argument is the
counter `freeTick` of State, advanced at every draw (log 6, 7). -/

/-- A level nobody states: mosi after a byte (R26, U9). -/
opaque Config.freeLevel (tick : Nat) : Level

/-- A 16-bit value nobody states: a window bound (R50, R57, U11, U13); `field` tells the bounds apart. -/
opaque Config.freeU16 (tick field : Nat) : U16

/-- A natural number nobody states: a counter or pointer of the panel (R57, U13). -/
opaque Config.freeNat (tick field : Nat) : Nat

/-- A byte nobody states: the pixel latch of the panel (R57, U13). -/
opaque Config.freeByte (tick : Nat) : Byte

/-- A command register nobody states (R57, U13). -/
opaque Config.freeCmd (tick : Nat) : Option Byte

/-- A truth value nobody states: which half of a pixel comes next (R57, U13). -/
opaque Config.freeBool (tick : Nat) : Bool

/-- A mapping of cells to panel positions nobody states (R55, U23). -/
opaque Config.freeOrient (n col row : Nat) : Nat × Nat

end Sys2Proof
end

