-- ==== Sys2Proof/Machine/Bits.lean ====
section
/-! DEFINITION. Bit fields, byte order and signal helpers (R9, R34, R62, R65). -/

namespace Sys2Proof.Machine

/-- `hi8(v) = v[15:8]` (R9). -/
def hi8 (v : U16) : Byte := v.extractLsb' 8 8

/-- `lo8(v) = v[7:0]` (R9). -/
def lo8 (v : U16) : Byte := v.extractLsb' 0 8

/-- `hi ‖ lo` (R9): the 16-bit value of two bytes, the most significant first (R34). -/
def joinBytes (hi lo : Byte) : U16 := hi ++ lo

/-- `v[15:8] <- b` (R50). -/
def setHi8 (v : U16) (b : Byte) : U16 := joinBytes b (lo8 v)

/-- `v[7:0] <- b` (R50). -/
def setLo8 (v : U16) (b : Byte) : U16 := joinBytes (hi8 v) b

/-- `zext_16(k)` of a window coordinate (R65 b). -/
def zext16 (k : Nat) : U16 := BitVec.ofNat 16 k

/-- The other electrical level. -/
def opposite : Level → Level
  | .low => .high
  | .high => .low

/-- The electrical level that carries a bit. -/
def levelOfBit : Bool → Level
  | true => .high
  | false => .low

/-- The bits of a byte in line order: b[7] first, b[0] last (R34, R62). -/
def lineBits (b : Byte) : List Bool :=
  [b.getLsbD 7, b.getLsbD 6, b.getLsbD 5, b.getLsbD 4,
   b.getLsbD 3, b.getLsbD 2, b.getLsbD 1, b.getLsbD 0]

end Sys2Proof.Machine
end

