-- ==== Sys2Proof/Machine/Event.lean ====
section
/-! DEFINITION. Signal values (R10, R26), bus events (R11), wire units and transactions (R12, R62, R63), the
clock-level waveform of a byte (R80) and the trace syntax of R74 and R76. -/

namespace Sys2Proof.Machine

/-- The mode-select level (R10): CMD is electrically low, DATA high. -/
inductive Mode where
  | cmd
  | data
deriving DecidableEq, Repr, Inhabited

/-- The select signal (R10). -/
inductive Select where
  | asserted
  | deasserted
deriving DecidableEq, Repr, Inhabited

/-- The reset signal (R10). -/
inductive ResetLine where
  | active
  | inactive
deriving DecidableEq, Repr, Inhabited

/-- The backlight signal (R10). -/
inductive Backlight where
  | off
  | high
deriving DecidableEq, Repr, Inhabited

/-- A bus event (R11); `wait` carries milliseconds. -/
inductive BusEvent where
  | dc (l : Mode)
  | cs (v : Select)
  | byte (b : Byte)
  | wait (ms : Nat)
  | blHigh
  | rst (a : ResetLine)
deriving DecidableEq, Repr, Inhabited

/-- The electrical level of the mode-select signal (R10). -/
def modeLevel : Mode → Level
  | .cmd => .low
  | .data => .high

/-- The wire unit `dc ‖ b` (R62). -/
def wireUnit (l : Mode) (b : Byte) : WireUnit :=
  match l with
  | .cmd => 0#1 ++ b
  | .data => 1#1 ++ b

/-- The events of `txn(l, bs)` (R12, R63, R79). -/
def txnEvents (l : Mode) (bs : List Byte) : List BusEvent :=
  .dc l :: .cs .asserted :: (bs.map BusEvent.byte ++ [.cs .deasserted])

/-- The events of `wait_ms(d)` (R12): none for d = 0 (R85). -/
def waitEvents (d : Nat) : List BusEvent :=
  if 0 < d then [.wait d] else []

/-- The two bytes of a 16-bit value, most significant first (R34, R65 a). -/
def bytes16 (v : U16) : List Byte := [hi8 v, lo8 v]

/-- The bytes of a repeated-color run: n pixels of two bytes (R64, R84). -/
def runBytes (v : U16) (n : Nat) : List Byte := (List.replicate n (bytes16 v)).flatten

/-- One phase of the serial lines: the level of mosi and of sclk (R80). -/
structure ClockPhase where
  mosi : Level
  sclk : Level
deriving DecidableEq, Repr

/-- The three phases of a bit (R80): `mosi <- b[i]` with the clock still low, `sclk <- high`, `sclk <- low`; so mosi is
stable across the rising edge. -/
def bitWaveform (v : Bool) : List ClockPhase :=
  [⟨levelOfBit v, .low⟩, ⟨levelOfBit v, .high⟩, ⟨levelOfBit v, .low⟩]

/-- The waveform of a byte (R80): its eight bits, most significant first. -/
def byteWaveform (b : Byte) : List ClockPhase := (lineBits b).flatMap bitWaveform

/-- What a receiver sampling on the leading (rising) edge reads from a waveform that starts with the clock at
`before` (R80). -/
def risingSamples (before : Level) : List ClockPhase → List Level
  | [] => []
  | p :: ps =>
    if before = .low ∧ p.sclk = .high then p.mosi :: risingSamples p.sclk ps
    else risingSamples p.sclk ps

/-- A line of the trace syntax (R74) or a pseudo-line (R76). -/
inductive TraceLine where
  | cmd (c : Byte)
  | d8 (d : Byte)
  | d16 (v : U16)
  | run (v : U16) (n : Nat)
  | wait (d : Nat)
  | blHigh
  | rst (a : ResetLine)
  | window (x1 y1 x2 y2 : Nat)
  | step (st : InitStep)
  | fullFill (v : U16)
  | pixel16 (x y : Nat) (v : U16)
deriving DecidableEq, Repr

/-- The pseudo-line `WINDOW x1, y1, x2, y2` (R76). -/
def windowEvents (x1 y1 x2 y2 : Nat) : List BusEvent :=
  txnEvents .cmd [0x2A] ++ txnEvents .data (bytes16 (zext16 x1)) ++ txnEvents .data (bytes16 (zext16 x2)) ++
  txnEvents .cmd [0x2B] ++ txnEvents .data (bytes16 (zext16 y1)) ++ txnEvents .data (bytes16 (zext16 y2)) ++
  txnEvents .cmd [0x2C]

/-- The pseudo-line `STEP c, payload, d` (R76): the WAIT is left out when d = 0. -/
def stepEvents (st : InitStep) : List BusEvent :=
  txnEvents .cmd [st.cmd] ++ st.payload.flatMap (fun p => txnEvents .data [p]) ++ waitEvents st.delayMs.toNat

/-- The number of pixels of the panel, WIDTH × HEIGHT (R7). -/
def panelPixels : Nat := 57600

/-- The pseudo-line `FULLFILL v` (R76). -/
def fullFillEvents (v : U16) : List BusEvent :=
  windowEvents 0 0 239 239 ++ txnEvents .data (runBytes v panelPixels)

/-- The events a trace line stands for (R74, R76). -/
def lineEvents : TraceLine → List BusEvent
  | .cmd c => txnEvents .cmd [c]
  | .d8 d => txnEvents .data [d]
  | .d16 v => txnEvents .data (bytes16 v)
  | .run v n => txnEvents .data (runBytes v n)
  | .wait d => [.wait d]
  | .blHigh => [.blHigh]
  | .rst a => [.rst a]
  | .window x1 y1 x2 y2 => windowEvents x1 y1 x2 y2
  | .step st => stepEvents st
  | .fullFill v => fullFillEvents v
  | .pixel16 x y v => windowEvents x y x y ++ txnEvents .data (bytes16 v)

/-- The events of a list of trace lines, in order (R74). -/
def linesEvents (ls : List TraceLine) : List BusEvent := ls.flatMap lineEvents

end Sys2Proof.Machine
end

