-- ==== Sys2Proof/Machine/Opcodes.lean ====
section
/-! DEFINITION. The controller command opcodes the spec names (R66, R67, R92) and their load-bearing delays (R95). -/

namespace Sys2Proof.Machine

/-- NAMED_INIT of R92: the named opcodes an initialization step may carry. -/
def isNamedInit (c : Byte) : Bool :=
  c == 0x01 || c == 0x11 || c == 0x13 || c == 0x21 || c == 0x29 || c == 0x36 || c == 0x3A

/-- VENDOR of R67 and R92. -/
def isVendor (c : Byte) : Bool :=
  (0x84 ≤ c.toNat && c.toNat ≤ 0x98) || c.toNat == 0xB6 || 0xBC ≤ c.toNat

/-- The opcodes SET_WINDOW emits (R66, R102). -/
def isWindowOpcode (c : Byte) : Bool :=
  c == 0x2A || c == 0x2B || c == 0x2C

/-- The commands WF7 says take no payload (R92, R99). -/
def isParameterless (c : Byte) : Bool :=
  c == 0x01 || c == 0x11 || c == 0x13 || c == 0x21 || c == 0x29

/-- The minimum wait in milliseconds after a command (R95; clause WF3 of R92); 0 where the spec gives none. -/
def minDelayMs (c : Byte) : Nat :=
  if c = 0x01 then 120
  else if c = 0x11 then 120
  else if c = 0x21 then 10
  else if c = 0x13 then 10
  else if c = 0x29 then 120
  else 0

/-- The commands whose settle time R57 names: post-reset and post-sleep-out. -/
def startsSettle (c : Byte) : Bool := c == 0x01 || c == 0x11

/-- The settle time of R57 and R95 after a reset or sleep-out, in milliseconds; also the wait of R87. -/
def settleMs : Nat := 120

end Sys2Proof.Machine
end

