-- ==== Sys2Proof/Machine/InitTable.lean ====
section
/-! DEFINITION. Well-formedness of the initialization table: WF_INIT of R92, one definition for each clause. -/

namespace Sys2Proof.Machine

/-- WF1: step 0 is the software reset with at least 120 ms. -/
def wf1 (c : Config) : Bool :=
  match c.initTable with
  | [] => false
  | st :: _ => st.cmd == 0x01 && decide (120 ≤ st.delayMs.toNat)

/-- WF2: every opcode is in NAMED_INIT or VENDOR. -/
def wf2 (c : Config) : Bool :=
  c.initTable.all fun st => isNamedInit st.cmd || isVendor st.cmd

/-- WF3: every step waits at least the load-bearing delay of its command (R95). -/
def wf3 (c : Config) : Bool :=
  c.initTable.all fun st => decide (minDelayMs st.cmd ≤ st.delayMs.toNat)

/-- WF4: each of 0x11, 0x21, 0x13, 0x29, 0x36 and 0x3A occurs. -/
def wf4 (c : Config) : Bool :=
  ([0x11, 0x21, 0x13, 0x29, 0x36, 0x3A] : List Byte).all fun op => c.initTable.any fun st => st.cmd == op

/-- WF5: 0x3A carries COLMOD_PAYLOAD and 0x36 carries MADCTL_PAYLOAD. -/
def wf5 (c : Config) : Bool :=
  c.initTable.all fun st =>
    (st.cmd != 0x3A || st.payload == c.colmodPayload) && (st.cmd != 0x36 || st.payload == c.madctlPayload)

/-- WF6: 0x01 occurs at index 0 only. -/
def wf6 (c : Config) : Bool :=
  c.initTable.tail.all fun st => st.cmd != 0x01

/-- WF7: the parameterless commands have an empty payload. -/
def wf7 (c : Config) : Bool :=
  c.initTable.all fun st => !isParameterless st.cmd || st.payload.isEmpty

/-- `WF_INIT` of R92. -/
def wfInit (c : Config) : Bool :=
  wf1 c && wf2 c && wf3 c && wf4 c && wf5 c && wf6 c && wf7 c

end Sys2Proof.Machine
end

