-- ==== Sys2Proof/Syntax.lean ====
section
/-! DEFINITION. The instructions: one constructor for each row of spec/opcode_table.json (R2, R66, R67, R70,
R72, R78), in the table's order. -/

namespace Sys2Proof

/-- The 38 rows: ten named command units, seven vendor blocks with their free opcode bits, the data byte,
twelve micro-operations, eight host operations. -/
inductive Instr where
  | cmdSoftwareReset
  | cmdSleepOut
  | cmdNormalModeOn
  | cmdInversionOn
  | cmdDisplayOn
  | cmdColumnAddressSet
  | cmdRowAddressSet
  | cmdMemoryWrite
  | cmdMemoryAccessControl
  | cmdPixelFormatSet
  | cmdVendor84To87 (v : BitVec 2)
  | cmdVendor88To8F (v : BitVec 3)
  | cmdVendor90To97 (v : BitVec 3)
  | cmdVendor98
  | cmdVendorB6
  | cmdVendorBCToBF (v : BitVec 2)
  | cmdVendorC0ToFF (v : BitVec 6)
  | dataByte (d : Byte)
  | writeCmd (c : Byte)
  | writeData8 (d : Byte)
  | writeData16 (v : U16)
  | writeColorRun (v : U16) (n : Nat)
  | waitMs (d : U16)
  | driveBacklight
  | hwResetPulse
  | execStep (st : InitStep)
  | runInit
  | setWindow (x1 y1 x2 y2 : Nat)
  | quantize (r g b : Byte)
  | fillRaw (r g b : Byte)
  | setup
  | update
  | fill (r g b : Byte)
  | drawPixel (x y : Coord) (r g b : Byte)
  | getWidth
  | getHeight
  | getIsColor
  | getDiagCount
deriving DecidableEq, Repr

end Sys2Proof
end

