-- ==== Sys2Proof/WellFormed.lean ====
section
/-! DEFINITION. Which instruction terms are ones the block issues: three operand checks. The machine runs an ill-formed
term too, with the effect the spec gives it (R84 for an empty run, R93 for any step, R102 for a bad window). -/

namespace Sys2Proof

/-- The AddressWindow invariant of R13 and R102. -/
def wfWindow (x1 y1 x2 y2 : Nat) : Bool :=
  decide (x1 ≤ x2) && decide (x2 < 240) && decide (y1 ≤ y2) && decide (y2 < 240)

/-- Every transaction the block emits has at least one byte (R63). -/
def wfRun (n : Nat) : Bool := decide (1 ≤ n)

/-- An initialization step carries a named or a vendor opcode (WF2 of R92, R69). -/
def wfStep (st : InitStep) : Bool := Machine.isNamedInit st.cmd || Machine.isVendor st.cmd

/-- Well-formedness of an instruction: the operand checks of R13, R63 and R69; the other operands are right by type
(R71). -/
def Instr.wf : Instr → Bool
  | .writeColorRun _ n => wfRun n
  | .execStep st => wfStep st
  | .setWindow x1 y1 x2 y2 => wfWindow x1 y1 x2 y2
  | .cmdSoftwareReset | .cmdSleepOut | .cmdNormalModeOn | .cmdInversionOn | .cmdDisplayOn
  | .cmdColumnAddressSet | .cmdRowAddressSet | .cmdMemoryWrite | .cmdMemoryAccessControl | .cmdPixelFormatSet
  | .cmdVendor84To87 _ | .cmdVendor88To8F _ | .cmdVendor90To97 _ | .cmdVendor98 | .cmdVendorB6
  | .cmdVendorBCToBF _ | .cmdVendorC0ToFF _ | .dataByte _ | .writeCmd _ | .writeData8 _ | .writeData16 _
  | .waitMs _ | .driveBacklight | .hwResetPulse | .runInit | .quantize _ _ _ | .fillRaw _ _ _
  | .setup | .update | .fill _ _ _ | .drawPixel _ _ _ _ _ | .getWidth | .getHeight | .getIsColor
  | .getDiagCount => true

end Sys2Proof
end

