-- ==== Sys2Proof/Decode.lean ====
section
/-! DEFINITION. What the block's input holds (typed terms, R70 to R72, or wire units in a 16-bit container), the
decoder, and after it the encoder, both written from opcode_table.json and R62, R66, R67, R78. -/

namespace Sys2Proof

/-- The host operations as the host sends them: typed terms without a binary word (R70). -/
inductive HostOp where
  | setup
  | update
  | fill (r g b : Byte)
  | drawPixel (x y : Coord) (r g b : Byte)
  | getWidth
  | getHeight
  | getIsColor
  | getDiagCount
deriving DecidableEq, Repr

/-- The micro-operations as terms (R72). -/
inductive MicroOp where
  | writeCmd (c : Byte)
  | writeData8 (d : Byte)
  | writeData16 (v : U16)
  | writeColorRun (v : U16) (n : Nat)
  | waitMs (d : U16)
  | driveBacklight
  | hwResetPulse
  | execStep (st : InitStep)
  | runInit
  | setWindow (x1 y1 x2 y2 : Nat)
  | quantize (r g b : Byte)
  | fillRaw (r g b : Byte)
deriving DecidableEq, Repr

/-- One request of the block's input (log 14, 15, 16): a host operation, or one of the units the host cannot reach
(a micro-operation term, or a wire unit in a 16-bit container). -/
inductive Request where
  | host (op : HostOp)
  | micro (op : MicroOp)
  | wire (w : BitVec 16)
deriving DecidableEq, Repr

/-- Why something is not decoded. -/
inductive DecodeError where
  /-- Bits 15 to 9 of the container are not zero: no 9-bit wire unit (log 16). -/
  | notAWireUnit
  /-- Fewer than the two bytes of a container. -/
  | tooShort
deriving DecidableEq, Repr

/-- A row of the wire part of opcode_table.json: the units u with `u &&& mask = pattern`. -/
structure WireRow where
  mask : WireUnit
  pattern : WireUnit
  build : WireUnit → Instr

/-- The ten named command opcodes (R66). -/
def namedRows : List WireRow :=
  [⟨0x1FF, 0x001, fun _ => .cmdSoftwareReset⟩,
   ⟨0x1FF, 0x011, fun _ => .cmdSleepOut⟩,
   ⟨0x1FF, 0x013, fun _ => .cmdNormalModeOn⟩,
   ⟨0x1FF, 0x021, fun _ => .cmdInversionOn⟩,
   ⟨0x1FF, 0x029, fun _ => .cmdDisplayOn⟩,
   ⟨0x1FF, 0x02A, fun _ => .cmdColumnAddressSet⟩,
   ⟨0x1FF, 0x02B, fun _ => .cmdRowAddressSet⟩,
   ⟨0x1FF, 0x02C, fun _ => .cmdMemoryWrite⟩,
   ⟨0x1FF, 0x036, fun _ => .cmdMemoryAccessControl⟩,
   ⟨0x1FF, 0x03A, fun _ => .cmdPixelFormatSet⟩]

/-- The seven vendor blocks (R67, R78), the free opcode bits kept as the operand. -/
def vendorRows : List WireRow :=
  [⟨0x1FC, 0x084, fun u => .cmdVendor84To87 (u.extractLsb' 0 2)⟩,
   ⟨0x1F8, 0x088, fun u => .cmdVendor88To8F (u.extractLsb' 0 3)⟩,
   ⟨0x1F8, 0x090, fun u => .cmdVendor90To97 (u.extractLsb' 0 3)⟩,
   ⟨0x1FF, 0x098, fun _ => .cmdVendor98⟩,
   ⟨0x1FF, 0x0B6, fun _ => .cmdVendorB6⟩,
   ⟨0x1FC, 0x0BC, fun u => .cmdVendorBCToBF (u.extractLsb' 0 2)⟩,
   ⟨0x1C0, 0x0C0, fun u => .cmdVendorC0ToFF (u.extractLsb' 0 6)⟩]

/-- Every row with a mask and a match (R78). -/
def wireRows : List WireRow :=
  namedRows ++ vendorRows ++ [⟨0x100, 0x100, fun u => .dataByte (u.extractLsb' 0 8)⟩]

/-- The instruction of a 9-bit wire unit. Every unit is legal (R69): a command unit that no row names is the plain
command transfer of its opcode, which the framing layer does not check (R81; log 17). -/
def decodeWireUnit (u : WireUnit) : Instr :=
  match wireRows.find? (fun row => u &&& row.mask == row.pattern) with
  | some row => row.build u
  | none => .writeCmd (u.extractLsb' 0 8)

/-- The instruction of a wire unit in its 16-bit container (log 16). -/
def decodeWord (w : BitVec 16) : Except DecodeError Instr :=
  if w.extractLsb' 9 7 = 0#7 then .ok (decodeWireUnit (w.extractLsb' 0 9)) else .error .notAWireUnit

/-- The instruction of a host operation: total on the constructor type (R71). -/
def decodeHost : HostOp → Instr
  | .setup => .setup
  | .update => .update
  | .fill r g b => .fill r g b
  | .drawPixel x y r g b => .drawPixel x y r g b
  | .getWidth => .getWidth
  | .getHeight => .getHeight
  | .getIsColor => .getIsColor
  | .getDiagCount => .getDiagCount

/-- The instruction of a micro-operation term (R72). -/
def decodeMicro : MicroOp → Instr
  | .writeCmd c => .writeCmd c
  | .writeData8 d => .writeData8 d
  | .writeData16 v => .writeData16 v
  | .writeColorRun v n => .writeColorRun v n
  | .waitMs d => .waitMs d
  | .driveBacklight => .driveBacklight
  | .hwResetPulse => .hwResetPulse
  | .execStep st => .execStep st
  | .runInit => .runInit
  | .setWindow x1 y1 x2 y2 => .setWindow x1 y1 x2 y2
  | .quantize r g b => .quantize r g b
  | .fillRaw r g b => .fillRaw r g b

/-- The decoder of a request. -/
def decode : Request → Except DecodeError Instr
  | .host op => .ok (decodeHost op)
  | .micro op => .ok (decodeMicro op)
  | .wire w => decodeWord w

/-- The decoder of bytes: a container is two bytes, the low byte first (log 16); what follows it is handed back. -/
def decodeBytes : List Byte → Except DecodeError (Instr × List Byte)
  | lo :: hi :: rest =>
    match decodeWord (hi ++ lo) with
    | .ok i => .ok (i, rest)
    | .error e => .error e
  | [_] => .error .tooShort
  | [] => .error .tooShort

/-- The container whose bits, numbered as opcode_table.json numbers them, are the low nbits of w. -/
def tableWord (nbits w : Nat) : BitVec 16 := BitVec.ofNat 16 (w % 2 ^ nbits)

/-- The two bytes of that container, the low byte first (log 16). -/
def tableBytes (nbits w : Nat) : List Byte :=
  [Machine.lo8 (tableWord nbits w), Machine.hi8 (tableWord nbits w)]

/-- What the decoder reads from an instruction whose bits are w. -/
def decodeTableWord (nbits w : Nat) : Option Instr :=
  match decodeBytes (tableBytes nbits w) with
  | .ok (i, _) => some i
  | .error _ => none

/-! The encoder. -/

/-- The 16-bit container of a command opcode's wire unit (R62: bit 8 is 0). -/
def commandWord (c : Byte) : BitVec 16 := 0#8 ++ c

/-- The 16-bit container of a data byte's wire unit (R62: bit 8 is 1). -/
def dataWord (d : Byte) : BitVec 16 := 1#8 ++ d

/-- The encoding of an instruction: its wire unit for the rows of the wire format, its term for the others. -/
def encode : Instr → Request
  | .cmdSoftwareReset => .wire (commandWord 0x01)
  | .cmdSleepOut => .wire (commandWord 0x11)
  | .cmdNormalModeOn => .wire (commandWord 0x13)
  | .cmdInversionOn => .wire (commandWord 0x21)
  | .cmdDisplayOn => .wire (commandWord 0x29)
  | .cmdColumnAddressSet => .wire (commandWord 0x2A)
  | .cmdRowAddressSet => .wire (commandWord 0x2B)
  | .cmdMemoryWrite => .wire (commandWord 0x2C)
  | .cmdMemoryAccessControl => .wire (commandWord 0x36)
  | .cmdPixelFormatSet => .wire (commandWord 0x3A)
  | .cmdVendor84To87 v => .wire (commandWord (0b100001#6 ++ v))
  | .cmdVendor88To8F v => .wire (commandWord (0b10001#5 ++ v))
  | .cmdVendor90To97 v => .wire (commandWord (0b10010#5 ++ v))
  | .cmdVendor98 => .wire (commandWord 0x98)
  | .cmdVendorB6 => .wire (commandWord 0xB6)
  | .cmdVendorBCToBF v => .wire (commandWord (0b101111#6 ++ v))
  | .cmdVendorC0ToFF v => .wire (commandWord (0b11#2 ++ v))
  | .dataByte d => .wire (dataWord d)
  | .writeCmd c => .micro (.writeCmd c)
  | .writeData8 d => .micro (.writeData8 d)
  | .writeData16 v => .micro (.writeData16 v)
  | .writeColorRun v n => .micro (.writeColorRun v n)
  | .waitMs d => .micro (.waitMs d)
  | .driveBacklight => .micro .driveBacklight
  | .hwResetPulse => .micro .hwResetPulse
  | .execStep st => .micro (.execStep st)
  | .runInit => .micro .runInit
  | .setWindow x1 y1 x2 y2 => .micro (.setWindow x1 y1 x2 y2)
  | .quantize r g b => .micro (.quantize r g b)
  | .fillRaw r g b => .micro (.fillRaw r g b)
  | .setup => .host .setup
  | .update => .host .update
  | .fill r g b => .host (.fill r g b)
  | .drawPixel x y r g b => .host (.drawPixel x y r g b)
  | .getWidth => .host .getWidth
  | .getHeight => .host .getHeight
  | .getIsColor => .host .getIsColor
  | .getDiagCount => .host .getDiagCount

/-! The host program syntax of R75, with integer operands. -/

/-- A line of a host program (R75). -/
inductive HostLine where
  | setup
  | tick
  | fill (r g b : Int)
  | pixel (x y r g b : Int)
  | width
  | height
  | isColor
  | diag
deriving DecidableEq, Repr

/-- An operand as a colour channel: 0 to 255 (R71). -/
def channelOf (n : Int) : Option Byte :=
  if 0 ≤ n ∧ n < 256 then some (BitVec.ofInt 8 n) else none

/-- An operand as a coordinate: a 32-bit signed integer (R71). -/
def coordOf (n : Int) : Option Coord :=
  if -2147483648 ≤ n ∧ n < 2147483648 then some (BitVec.ofInt 32 n) else none

/-- The host operation of a line; none where an operand is outside its type (R71, R75). -/
def HostLine.request : HostLine → Option Request
  | .setup => some (.host .setup)
  | .tick => some (.host .update)
  | .fill r g b => do
    let r ← channelOf r
    let g ← channelOf g
    let b ← channelOf b
    return .host (.fill r g b)
  | .pixel x y r g b => do
    let x ← coordOf x
    let y ← coordOf y
    let r ← channelOf r
    let g ← channelOf g
    let b ← channelOf b
    return .host (.drawPixel x y r g b)
  | .width => some (.host .getWidth)
  | .height => some (.host .getHeight)
  | .isColor => some (.host .getIsColor)
  | .diag => some (.host .getDiagCount)

end Sys2Proof
end

