-- ==== Sys2Proof/Machine/State.lean ====
section
/-! DEFINITION. The state: the record S of R19, the observation of R11, the panel reference state P of R48, the
configuration (R28), and the model's own fields; what stops a step; the state after reset (R141). -/

namespace Sys2Proof.Machine

/-- Which half of a pixel the panel expects next (R48). -/
inductive Half where
  | hi
  | lo
deriving DecidableEq, Repr, Inhabited

/-- A value returned to the host by a query operation (R11, R70). -/
inductive RetVal where
  | u16 (v : U16)
  | bool (v : Bool)
  | u32 (v : BitVec 32)
deriving DecidableEq, Repr

/-- The panel reference state P (R48). `gram` is a list of (address, byte) pairs in canonical form; an address it does
not list has no value (log 5). `settle` is the settle time, in milliseconds, that must still pass before a
byte has a defined effect (R57, log 9). -/
structure Panel where
  gram : List Host.Cell
  cmd : Option Byte
  pidx : Nat
  xs : U16
  xe : U16
  ys : U16
  ye : U16
  wc : Nat
  wr : Nat
  half : Half
  hiLatch : Byte
  settle : Nat
deriving DecidableEq, Repr

/-- Why the machine stops (R129). None of these is a signal of the block. -/
inductive Fault where
  /-- Raised by the acceptance of every host operation while busy (R130): safe, no claim rests on a result. -/
  | concurrentOp
  /-- Raised by SETUP when setup_done is true (R115): safe. -/
  | setupRepeated
  /-- Raised by SET_WINDOW outside its invariant (R102); no host operation reaches it: safe. -/
  | windowInvalid
deriving DecidableEq, Repr

/-- Why a step is refused. -/
inductive Refusal where
  /-- An arm of exec without a meaning: safe. No arm uses it. -/
  | notModelled (mnemonic : String)
  /-- Raised by step when the configuration fails WF_INIT (R129, U4): safe, such a configuration takes no step. -/
  | initTableIllformed
  /-- Raised by step for a wire request that is no 9-bit wire unit (log 16): safe, the spec has no such unit. -/
  | undecodable (e : DecodeError)
deriving DecidableEq, Repr

/-- The state of the block, its observation, and the panel reference state. -/
structure State where
  /-- The configuration (R8, R28): written by nothing (log 1). -/
  cfg : Config
  /-- R21. -/
  ready : Bool
  /-- R22. -/
  setupDone : Bool
  /-- R23. -/
  busy : Bool
  /-- R24. -/
  diagCount : BitVec 32
  /-- R20. -/
  seqPc : Nat
  /-- R26. -/
  dc : Mode
  /-- R26. -/
  cs : Select
  /-- R26; driven only when the pin is present (log 24). -/
  rst : ResetLine
  /-- R26; driven only when the pin is present (log 24). -/
  bl : Backlight
  /-- R26, R80. -/
  sclk : Level
  /-- R26, R80; a free value outside a byte (log 6). -/
  mosi : Level
  /-- The bus trace T, oldest event first (R11). -/
  trace : List BusEvent
  /-- The values returned by queries, oldest first (R11). -/
  returns : List RetVal
  /-- The panel reference state P (R48). -/
  panel : Panel
  /-- The model's own: the last result of QUANTIZE issued as an instruction (R108, log 19). -/
  quantOut : U16
  /-- The model's own: the requests still to come, the next one first (R75, R113, log 15). -/
  pending : List Request
  /-- The model's own: how many free values were drawn (log 6). -/
  freeTick : Nat
deriving DecidableEq, Repr

/-- The panel at the block's reset: unspecified by R48 and R143; these values are DESIGN CHOICE (log 4, 5, 9). -/
def Panel.reset : Panel where
  gram := []
  cmd := none
  pidx := 0
  xs := 0
  xe := 0
  ys := 0
  ye := 0
  wc := 0
  wr := 0
  half := .hi
  hiLatch := 0
  settle := 0

/-- The state after reset for a configuration (R141). dc and mosi are unspecified there (DESIGN CHOICE, log 2, 3). -/
def State.resetWith (c : Config) : State where
  cfg := c
  ready := false
  setupDone := false
  busy := false
  diagCount := 0
  seqPc := 0
  dc := .cmd
  cs := .deasserted
  rst := .inactive
  bl := .off
  sclk := .low
  mosi := .low
  trace := []
  returns := []
  panel := Panel.reset
  quantOut := 0
  pending := []
  freeTick := 0

/-- The state after reset with CFG0 (R141; the configuration is DESIGN CHOICE, log 1). -/
def State.reset : State := State.resetWith Config.ref

end Sys2Proof.Machine
end

