-- ==== Sys2Proof/Machine/Flags.lean ====
section
/-! DEFINITION. The flags and the counter (R21 to R24): the only writers of ready, setup_done, busy and diag_count. -/

namespace Sys2Proof.Machine

/-- `ready <- true` (R21, R114). -/
def markReady (s : State) : State := { s with ready := true }

/-- `setup_done <- true` (R22, R114). -/
def markSetupDone (s : State) : State := { s with setupDone := true }

/-- `busy <- true` (R130). -/
def beginOp (s : State) : State := { s with busy := true }

/-- `busy <- false` (R130). -/
def endOp (s : State) : State := { s with busy := false }

/-- `diag_count <- (diag_count + 1) mod 2^32` (R116). -/
def countTick (s : State) : State := { s with diagCount := s.diagCount + 1 }

end Sys2Proof.Machine
end

