-- ==== Sys2Proof/Machine/Memory.lean ====
section
/-! DEFINITION. The frame memory (R33, R48): bytes at rising addresses, cells of two bytes, most significant first
(R34; log 5). -/

namespace Sys2Proof.Machine

/-- WIDTH and HEIGHT (R7, R25). -/
def panelWidth : Nat := 240

/-- See `panelWidth`. -/
def panelHeight : Nat := 240

/-- The number of byte addresses: two for each of the 57,600 cells (R33). -/
def gramBytes : Nat := 115200

/-- The byte at an address; none where nothing is listed (the cell is unspecified, log 5). -/
def gramRead : List Host.Cell → Nat → Option Byte
  | [], _ => none
  | (k, v) :: rest, a => if a = k then some v else gramRead rest a

/-- Write one byte, keeping the addresses rising. -/
def gramWrite : List Host.Cell → Nat → Byte → List Host.Cell
  | [], a, b => [(a, b)]
  | (k, v) :: rest, a, b =>
    if a < k then (a, b) :: (k, v) :: rest
    else if a = k then (a, b) :: rest
    else (k, v) :: gramWrite rest a b

/-- The canonical form: addresses strictly rising, all of them inside the frame memory. No value is the value of an
unlisted address, so no entry can equal it. -/
abbrev gramWf (m : List Host.Cell) : Prop :=
  m.Pairwise (fun x y => x.1 < y.1) ∧ ∀ x ∈ m, x.1 < gramBytes

/-- The address of the high byte of cell (col, row); the low byte follows (log 5). -/
def cellAddr (col row : Nat) : Nat := 2 * (240 * row + col)

/-- Write the 16-bit cell at an address, most significant byte first (R12 MemWrite, R34). -/
def gramWrite16 (m : List Host.Cell) (a : Nat) (v : U16) : List Host.Cell :=
  gramWrite (gramWrite m a (hi8 v)) (a + 1) (lo8 v)

/-- The 16-bit cell (col, row) of gram (R12 MemRead, R48); none where it is unspecified. -/
def gramCell (m : List Host.Cell) (col row : Nat) : Option U16 :=
  match gramRead m (cellAddr col row), gramRead m (cellAddr col row + 1) with
  | some h, some l => some (joinBytes h l)
  | _, _ => none

end Sys2Proof.Machine
end

