-- ==== Sys2Proof/Machine/Panel.lean ====
section
/-! DEFINITION. The panel reference model: what the controller does with what it receives (R49 to R57). -/

namespace Sys2Proof.Machine

/-- Where the pixel completed next would be stored (R51, R52). -/
inductive PixelTarget where
  /-- The address of the cell's high byte. -/
  | cell (a : Nat)
  /-- Outside 240 × 240: `MemWrite` changes nothing (R51). -/
  | nowhere
  /-- Beyond the window, or a window outside 0..239: every cell may take any value (R52, U12). -/
  | unspecified
deriving DecidableEq, Repr

/-- A window bound lies outside 0..239 (R52). -/
def panelWindowOutside (p : Panel) : Bool :=
  decide (240 ≤ p.xs.toNat) || decide (240 ≤ p.xe.toNat) || decide (240 ≤ p.ys.toNat) || decide (240 ≤ p.ye.toNat)

/-- The target of the pixel at the write pointer (R51, R52). -/
def pixelTarget (p : Panel) : PixelTarget :=
  if p.ye.toNat < p.wr ∨ panelWindowOutside p = true then .unspecified
  else if p.wc < 240 ∧ p.wr < 240 then .cell (cellAddr p.wc p.wr)
  else .nowhere

/-- The frame memory after a pixel is stored at a target (R51); an unspecified store leaves no cell with a known value
(R52, U12; log 8). -/
def gramAfterPixel (m : List Host.Cell) (t : PixelTarget) (v : U16) : List Host.Cell :=
  match t with
  | .cell a => gramWrite16 m a v
  | .nowhere => m
  | .unspecified => []

/-- Advance the write pointer row-major (R51). -/
def panelAdvance (p : Panel) : Panel :=
  if p.xe.toNat < p.wc + 1 then { p with wc := p.xs.toNat, wr := p.wr + 1 } else { p with wc := p.wc + 1 }

/-- A pixel byte after 0x2C (R51). -/
def panelPixelByte (b : Byte) (p : Panel) : Panel :=
  match p.half with
  | .hi => { p with hiLatch := b, half := .lo }
  | .lo => panelAdvance { p with gram := gramAfterPixel p.gram (pixelTarget p) (joinBytes p.hiLatch b), half := .hi }

/-- Window bounds nobody states (R50, U11; log 7). -/
def panelFreeWindow (tick : Nat) (p : Panel) : Panel :=
  { p with xs := Config.freeU16 tick 0, xe := Config.freeU16 tick 1, ys := Config.freeU16 tick 2, ye := Config.freeU16 tick 3 }

/-- A data byte after 0x2A (R50). -/
def panelColumnByte (tick : Nat) (b : Byte) (p : Panel) : Panel :=
  match p.pidx with
  | 0 => { p with xs := setHi8 p.xs b }
  | 1 => { p with xs := setLo8 p.xs b }
  | 2 => { p with xe := setHi8 p.xe b }
  | 3 => { p with xe := setLo8 p.xe b }
  | _ => panelFreeWindow tick p

/-- A data byte after 0x2B (R50). -/
def panelRowByte (tick : Nat) (b : Byte) (p : Panel) : Panel :=
  match p.pidx with
  | 0 => { p with ys := setHi8 p.ys b }
  | 1 => { p with ys := setLo8 p.ys b }
  | 2 => { p with ye := setHi8 p.ye b }
  | 3 => { p with ye := setLo8 p.ye b }
  | _ => panelFreeWindow tick p

/-- The effect of a data byte under the last command (R50, R51, R54), without the count. -/
def panelDataEffect (tick : Nat) (c b : Byte) (p : Panel) : Panel :=
  if c = 0x2A then panelColumnByte tick b p
  else if c = 0x2B then panelRowByte tick b p
  else if c = 0x2C then panelPixelByte b p
  else p

/-- A data byte: the effect of R50, R51 or R54, and pidx counts it (R48, log 11). Before any command it has none
(log 12). -/
def panelDataByte (tick : Nat) (b : Byte) (p : Panel) : Panel :=
  match p.cmd with
  | none => p
  | some c => { panelDataEffect tick c b p with pidx := p.pidx + 1 }

/-- The settle time after a command byte: a reset or sleep-out starts one (R57, R95). -/
def settleAfterCommand (c : Byte) (settle : Nat) : Nat :=
  if startsSettle c = true then settleMs else settle

/-- A command byte (R49); 0x01 and 0x11 start a settle time (R57). -/
def panelCommandByte (b : Byte) (p : Panel) : Panel :=
  let p := { p with cmd := some b, pidx := 0, settle := settleAfterCommand b p.settle }
  if b = 0x2C then { p with wc := p.xs.toNat, wr := p.ys.toNat, half := .hi } else p

/-- Every panel field unspecified (R57, U13; log 7): the registers are free values, no cell has a known value. -/
def panelUnspecified (tick settle : Nat) : Panel where
  gram := []
  cmd := Config.freeCmd tick
  pidx := Config.freeNat tick 0
  xs := Config.freeU16 tick 0
  xe := Config.freeU16 tick 1
  ys := Config.freeU16 tick 2
  ye := Config.freeU16 tick 3
  wc := Config.freeNat tick 1
  wr := Config.freeNat tick 2
  half := if Config.freeBool tick = true then .hi else .lo
  hiLatch := Config.freeByte tick
  settle := settle

/-- The interval in which a byte has no defined effect: reset active, or a settle time not over (R57). -/
def panelBlocked (rst : ResetLine) (p : Panel) : Bool :=
  rst == .active || decide (0 < p.settle)

/-- The panel receives a byte at a mode-select level while select is asserted (R49 to R54, R57). -/
def panelReceive (tick : Nat) (rst : ResetLine) (l : Mode) (b : Byte) (p : Panel) : Panel :=
  if panelBlocked rst p = true then
    panelUnspecified tick (match l with | .cmd => settleAfterCommand b p.settle | .data => p.settle)
  else
    match l with
    | .cmd => panelCommandByte b p
    | .data => panelDataByte tick b p

/-- At least d milliseconds pass (R85, R96). -/
def panelElapse (d : Nat) (p : Panel) : Panel := { p with settle := p.settle - d }

/-- The reset input of the controller is driven: a pulse leaves every field unspecified, and its end starts the
post-reset settle time (R57, R87, R95, U17; log 10). -/
def panelResetPin (tick : Nat) (before after : ResetLine) (p : Panel) : Panel :=
  match after with
  | .active => panelUnspecified tick p.settle
  | .inactive => if before = .active then { p with settle := settleMs } else p

/-- The position at which cell (col, row) is shown (R55). -/
def shownAt (o : Orient) (col row : Nat) : Nat × Nat :=
  match o with
  | .identity => (col, row)
  | .other n => Config.freeOrient n col row

end Sys2Proof.Machine
end

