-- ==== Sys2Proof/Machine/Ops.lean ====
section
/-! DEFINITION. The shared operations: emitting bus events (R11, R12, R26, R80), transactions (R79), waits (R85),
returning a value (R70), the acceptance of a host operation (R130), taking the next request (R113) and the check of
the configuration (R129). The block has no exception to take and none to return from (R125, R133, R134): a
rejection is a next state in which nothing changed, and a fault of R129 stops the model. -/

namespace Sys2Proof.Machine

/-- The outcome of an operation. -/
abbrev Result := Host.Outcome State Fault Refusal

/-- Go on from a next state; a stop stays. -/
def andThen (r : Result) (f : State → Result) : Result :=
  match r with
  | .next s => f s
  | .fault e => .fault e
  | .refused e => .refused e

/-- The serial lines after a waveform: its last phase (R80). -/
def linesAfter (start : ClockPhase) (w : List ClockPhase) : ClockPhase := w.foldl (fun _ p => p) start

/-- Serialize a byte (R80): sclk ends as the waveform leaves it; mosi, outside the serialization, is a free value (R26,
U9; log 6). -/
def shiftByte (b : Byte) (s : State) : State :=
  { s with
    sclk := (linesAfter ⟨s.mosi, s.sclk⟩ (byteWaveform b)).sclk
    mosi := Config.freeLevel s.freeTick
    freeTick := s.freeTick + 1 }

/-- The panel receives a byte: only while select is asserted (R49). -/
def deliverByte (b : Byte) (s : State) : State :=
  match s.cs with
  | .asserted => { s with panel := panelReceive s.freeTick s.rst s.dc b s.panel }
  | .deasserted => s

/-- The effect of a bus event on the signals and the panel (R26, R49 to R57, R80, R85 to R87). -/
def applyEvent (e : BusEvent) (s : State) : State :=
  match e with
  | .dc l => { s with dc := l }
  | .cs v => { s with cs := v }
  | .byte b => shiftByte b (deliverByte b s)
  | .wait d => { s with panel := panelElapse d s.panel }
  | .blHigh => { s with bl := .high }
  | .rst a => { s with rst := a, panel := panelResetPin s.freeTick s.rst a s.panel, freeTick := s.freeTick + 1 }

/-- `emit(e)` (R12): the event is appended to T and happens. -/
def emit (e : BusEvent) (s : State) : State :=
  applyEvent e { s with trace := s.trace ++ [e] }

/-- Emit events in order (R42). -/
def emitAll (es : List BusEvent) (s : State) : State := es.foldl (fun s e => emit e s) s

/-- `txn(l, bs)` (R12, R79). -/
def txn (l : Mode) (bs : List Byte) (s : State) : State := emitAll (txnEvents l bs) s

/-- `wait_ms(d)` (R12, R85). -/
def waitMs (d : Nat) (s : State) : State := emitAll (waitEvents d) s

/-- Return a value to the host (R11, R70). -/
def returnValue (v : RetVal) (s : State) : State := { s with returns := s.returns ++ [v] }

/-- The acceptance of a host operation (R130). -/
def accept (body : State → Result) (s : State) : Result :=
  if s.busy then .fault .concurrentOp else andThen (body (beginOp s)) (fun t => .next (endOp t))

/-- A silent rejection (R125 to R127): the operation returns with nothing changed. -/
def reject (s : State) : Result := .next s

/-- Take the next request of the host's program (R113). -/
def takeRequest (s : State) : Option (Request × State) :=
  match s.pending with
  | [] => none
  | r :: rest => some (r, { s with pending := rest })

/-- The electrical level of the select pin (R10). -/
def csPin (s : State) : Level :=
  match s.cs with
  | .asserted => s.cfg.csActiveLevel
  | .deasserted => opposite s.cfg.csActiveLevel

/-- The electrical level of the reset pin; none without one (R10, R26). -/
def rstPin (s : State) : Option Level :=
  if s.cfg.hasRst then
    some (match s.rst with
      | .active => s.cfg.rstActiveLevel
      | .inactive => opposite s.cfg.rstActiveLevel)
  else none

/-- The electrical level of the mode-select pin (R10). -/
def dcPin (s : State) : Level := modeLevel s.dc

/-- The backlight pin; none without one (R26). -/
def blPin (s : State) : Option Backlight := if s.cfg.hasBl then some s.bl else none

/-- A run is over: nothing left to issue and no operation under way (R123). -/
def finished (s : State) : Bool := s.pending.isEmpty && !s.busy

end Sys2Proof.Machine
end

