-- ==== Sys2Proof/Machine/Framing.lean ====
section
/-! DEFINITION. The four framing units (R81 to R84) and the signal primitives (R85 to R87). -/

namespace Sys2Proof.Machine

/-- `WRITE_CMD(c)` (R81). -/
def writeCmd (c : Byte) (s : State) : State := txn .cmd [c] s

/-- `WRITE_DATA8(d)` (R82). -/
def writeData8 (d : Byte) (s : State) : State := txn .data [d] s

/-- `WRITE_DATA16(v)` (R83). -/
def writeData16 (v : U16) (s : State) : State := txn .data (bytes16 v) s

/-- `WRITE_COLOR_RUN(v, n)` (R84). -/
def writeColorRun (v : U16) (n : Nat) (s : State) : State := txn .data (runBytes v n) s

/-- `DRIVE_BACKLIGHT` (R86): the BL(HIGH) event drives bl. -/
def driveBacklight (s : State) : State := if s.cfg.hasBl then emit .blHigh s else s

/-- The events of `HW_RESET_PULSE` with the pin present (R87). -/
def resetPulseEvents (pulseMs : Nat) : List BusEvent :=
  [.rst .inactive, .rst .active] ++ waitEvents pulseMs ++ [.rst .inactive] ++ waitEvents settleMs

/-- `HW_RESET_PULSE` (R87). -/
def hwResetPulse (s : State) : State :=
  if s.cfg.hasRst then emitAll (resetPulseEvents s.cfg.rstPulseMs) s else s

/-- WRITE_CMD as an instruction (R81). -/
def execWriteCmd (c : Byte) (s : State) : Result := .next (writeCmd c s)

/-- WRITE_DATA8 as an instruction (R82). -/
def execWriteData8 (d : Byte) (s : State) : Result := .next (writeData8 d s)

/-- WRITE_DATA16 as an instruction (R83). -/
def execWriteData16 (v : U16) (s : State) : Result := .next (writeData16 v s)

/-- WRITE_COLOR_RUN as an instruction (R84). -/
def execWriteColorRun (v : U16) (n : Nat) (s : State) : Result := .next (writeColorRun v n s)

/-- WAIT_MS as an instruction (R85). -/
def execWaitMs (d : U16) (s : State) : Result := .next (waitMs d.toNat s)

/-- DRIVE_BACKLIGHT as an instruction (R86). -/
def execDriveBacklight (s : State) : Result := .next (driveBacklight s)

/-- HW_RESET_PULSE as an instruction (R87). -/
def execHwResetPulse (s : State) : Result := .next (hwResetPulse s)

end Sys2Proof.Machine
end

