-- ==== Sys2Proof/Machine/Operands.lean ====
section
/-! DEFINITION. Operand forms (R65, R13, R67): opcode bits of the vendor rows, coordinates, colours, windows. -/

namespace Sys2Proof.Machine

/-- The opcode of a unit of the row 0x84..0x87 from its free bits (R78). -/
def vendorOpcode84 (v : BitVec 2) : Byte := 0b100001#6 ++ v

/-- The opcode of a unit of the row 0x88..0x8F (R78). -/
def vendorOpcode88 (v : BitVec 3) : Byte := 0b10001#5 ++ v

/-- The opcode of a unit of the row 0x90..0x97 (R78). -/
def vendorOpcode90 (v : BitVec 3) : Byte := 0b10010#5 ++ v

/-- The opcode of a unit of the row 0xBC..0xBF (R78). -/
def vendorOpcodeBC (v : BitVec 2) : Byte := 0b101111#6 ++ v

/-- The opcode of a unit of the row 0xC0..0xFF (R78). -/
def vendorOpcodeC0 (v : BitVec 6) : Byte := 0b11#2 ++ v

/-- `0 ≤ x < WIDTH` and `0 ≤ y < HEIGHT` on the integers the coordinates read as (R13, R105). -/
def inBounds (x y : Coord) : Bool :=
  decide (0 ≤ x.toInt) && decide (x.toInt < 240) && decide (0 ≤ y.toInt) && decide (y.toInt < 240)

/-- A coordinate in bounds as a window operand (R65 b). -/
def coordNat (x : Coord) : Nat := x.toInt.toNat

/-- The window invariant of R102. -/
def windowValid (x1 y1 x2 y2 : Nat) : Bool :=
  decide (x1 ≤ x2) && decide (x2 < panelWidth) && decide (y1 ≤ y2) && decide (y2 < panelHeight)

/-- The pixel count of a window (R102). -/
def windowPixels (x1 y1 x2 y2 : Nat) : Nat := (x2 - x1 + 1) * (y2 - y1 + 1)

end Sys2Proof.Machine
end

