-- ==== Sys2Proof/Machine/Commands.lean ====
section
/-! DEFINITION. The wire rows (R62, R64, R66, R67): each puts its wire unit on the bus in the one-byte transaction of its
level (log 13), and the panel receives it (R49 to R54). -/

namespace Sys2Proof.Machine

/-- 0x01 software-reset, as the initialization step R93 issues it. -/
def execCmdSoftwareReset (s : State) : Result := .next (writeCmd 0x01 s)

/-- 0x11 sleep-out (R93). -/
def execCmdSleepOut (s : State) : Result := .next (writeCmd 0x11 s)

/-- 0x13 normal-mode-on (R93). -/
def execCmdNormalModeOn (s : State) : Result := .next (writeCmd 0x13 s)

/-- 0x21 inversion-on (R93). -/
def execCmdInversionOn (s : State) : Result := .next (writeCmd 0x21 s)

/-- 0x29 display-on (R93). -/
def execCmdDisplayOn (s : State) : Result := .next (writeCmd 0x29 s)

/-- 0x2A column-address-set, as SET_WINDOW issues it (R102); the panel then takes window bytes (R50). -/
def execCmdColumnAddressSet (s : State) : Result := .next (writeCmd 0x2A s)

/-- 0x2B row-address-set (R102, R50). -/
def execCmdRowAddressSet (s : State) : Result := .next (writeCmd 0x2B s)

/-- 0x2C memory-write (R102): the panel's write pointer goes to the window origin (R49). -/
def execCmdMemoryWrite (s : State) : Result := .next (writeCmd 0x2C s)

/-- 0x36 memory-access-control (R93). -/
def execCmdMemoryAccessControl (s : State) : Result := .next (writeCmd 0x36 s)

/-- 0x3A pixel-format-set (R93). -/
def execCmdPixelFormatSet (s : State) : Result := .next (writeCmd 0x3A s)

/-- A vendor tuning opcode of 0x84..0x87 (R67). -/
def execCmdVendor84To87 (v : BitVec 2) (s : State) : Result := .next (writeCmd (vendorOpcode84 v) s)

/-- A vendor tuning opcode of 0x88..0x8F (R67). -/
def execCmdVendor88To8F (v : BitVec 3) (s : State) : Result := .next (writeCmd (vendorOpcode88 v) s)

/-- A vendor tuning opcode of 0x90..0x97 (R67). -/
def execCmdVendor90To97 (v : BitVec 3) (s : State) : Result := .next (writeCmd (vendorOpcode90 v) s)

/-- A vendor tuning opcode of 0x98 (R67). -/
def execCmdVendor98 (s : State) : Result := .next (writeCmd 0x98 s)

/-- A vendor tuning opcode of 0xB6 (R67). -/
def execCmdVendorB6 (s : State) : Result := .next (writeCmd 0xB6 s)

/-- A vendor tuning opcode of 0xBC..0xBF (R67). -/
def execCmdVendorBCToBF (v : BitVec 2) (s : State) : Result := .next (writeCmd (vendorOpcodeBC v) s)

/-- A vendor tuning opcode of 0xC0..0xFF (R67). -/
def execCmdVendorC0ToFF (v : BitVec 6) (s : State) : Result := .next (writeCmd (vendorOpcodeC0 v) s)

/-- A data byte (R64, row "data byte"); its meaning is set by the last command (R68). -/
def execDataByte (d : Byte) (s : State) : Result := .next (writeData8 d s)

end Sys2Proof.Machine
end

