-- ==== Sys2Proof/Machine/Sequencer.lean ====
section
/-! DEFINITION. The initialization sequencer (R93, R94). -/

namespace Sys2Proof.Machine

/-- `for p in payload: WRITE_DATA8(p)` (R93). -/
def writePayload : List Byte → State → State
  | [], s => s
  | p :: ps, s => writePayload ps (writeData8 p s)

/-- `EXEC_STEP(s)` (R93). -/
def runStep (st : InitStep) (s : State) : State :=
  waitMs st.delayMs.toNat (writePayload st.payload (writeCmd st.cmd s))

/-- The loop of `RUN_INIT` over the steps that remain (R94): one step, then `seq_pc <- seq_pc + 1`. -/
def runSteps : List InitStep → State → State
  | [], s => s
  | st :: rest, s =>
    let t := runStep st s
    runSteps rest { t with seqPc := t.seqPc + 1 }

/-- `RUN_INIT` (R94): from step 0 to the end of the table. -/
def runInit (s : State) : State :=
  let s := { s with seqPc := 0 }
  runSteps (s.cfg.initTable.drop s.seqPc) s

/-- EXEC_STEP as an instruction (R93). -/
def execExecStep (st : InitStep) (s : State) : Result := .next (runStep st s)

/-- RUN_INIT as an instruction (R94). -/
def execRunInit (s : State) : Result := .next (runInit s)

end Sys2Proof.Machine
end

