-- ==== Sys2Proof/Machine/Quantizer.lean ====
section
/-! DEFINITION. The colour quantizer (R108 to R112). -/

namespace Sys2Proof.Machine

/-- `floor_div(r * 31, 255)` (R108); blue uses it too. -/
def channel5 (c : Byte) : Nat := c.toNat * 31 / 255

/-- `floor_div(g * 63, 255)` (R108). -/
def channel6 (c : Byte) : Nat := c.toNat * 63 / 255

/-- `QUANTIZE(r, g, b)` (R108): red in bits 15..11, green in 10..5, blue in 4..0. -/
def quantizeColor (r g b : Byte) : U16 :=
  (BitVec.ofNat 16 (channel5 r) <<< 11) ||| (BitVec.ofNat 16 (channel6 g) <<< 5) ||| BitVec.ofNat 16 (channel5 b)

/-- QUANTIZE issued as an instruction (R108, R109): its result is kept in `quantOut` (log 19), nothing else changes. -/
def execQuantize (r g b : Byte) (s : State) : Result :=
  .next { s with quantOut := quantizeColor r g b }

end Sys2Proof.Machine
end

