-- ==== Sys2Proof/Machine/Window.lean ====
section
/-! DEFINITION. The address window and the pixel operations (R102 to R106). -/

namespace Sys2Proof.Machine

/-- The seven transactions of `SET_WINDOW` (R102). -/
def sendWindow (x1 y1 x2 y2 : Nat) (s : State) : State :=
  let s := writeData16 (zext16 x2) (writeData16 (zext16 x1) (writeCmd 0x2A s))
  let s := writeData16 (zext16 y2) (writeData16 (zext16 y1) (writeCmd 0x2B s))
  writeCmd 0x2C s

/-- `SET_WINDOW(x1, y1, x2, y2)` (R102): WINDOW_INVALID outside its invariant, before any event (R133). -/
def setWindow (x1 y1 x2 y2 : Nat) (s : State) : Result :=
  if windowValid x1 y1 x2 y2 then .next (sendWindow x1 y1 x2 y2 s) else .fault .windowInvalid

/-- `FILL_RAW(r, g, b)` (R103). -/
def fillRaw (r g b : Byte) (s : State) : Result :=
  andThen (setWindow 0 0 (panelWidth - 1) (panelHeight - 1) s) fun t =>
    .next (writeColorRun (quantizeColor r g b) panelPixels t)

/-- The body of `FILL` (R104). -/
def fillBody (r g b : Byte) (s : State) : Result :=
  if s.ready then fillRaw r g b s else reject s

/-- The body of `DRAW_PIXEL` (R105), readiness before bounds (R106). -/
def drawPixelBody (x y : Coord) (r g b : Byte) (s : State) : Result :=
  if !s.ready then reject s
  else if !inBounds x y then reject s
  else
    andThen (setWindow (coordNat x) (coordNat y) (coordNat x) (coordNat y) s) fun t =>
      .next (writeData16 (quantizeColor r g b) t)

/-- SET_WINDOW as an instruction (R102). -/
def execSetWindow (x1 y1 x2 y2 : Nat) (s : State) : Result := setWindow x1 y1 x2 y2 s

/-- FILL_RAW as an instruction (R103): no readiness gate. -/
def execFillRaw (r g b : Byte) (s : State) : Result := fillRaw r g b s

/-- FILL (R104, R130). -/
def execFill (r g b : Byte) (s : State) : Result := accept (fillBody r g b) s

/-- DRAW_PIXEL (R105, R130). -/
def execDrawPixel (x y : Coord) (r g b : Byte) (s : State) : Result := accept (drawPixelBody x y r g b) s

end Sys2Proof.Machine
end

