-- ==== Sys2Proof/Machine/Lifecycle.lean ====
section
/-! DEFINITION. The lifecycle operations and the queries (R114 to R120). -/

namespace Sys2Proof.Machine

/-- The body of `SETUP` (R114, R115, R145). -/
def setupBody (s : State) : Result :=
  if s.setupDone then .fault .setupRepeated
  else
    let s := runInit (hwResetPulse (driveBacklight (markSetupDone s)))
    let c := s.cfg.initialFillColor
    andThen (fillRaw c.r c.g c.b s) fun t => .next (markReady t)

/-- SETUP (R114, R115, R130). -/
def execSetup (s : State) : Result := accept setupBody s

/-- UPDATE (R116): one tick, no bus event. -/
def execUpdate (s : State) : Result := accept (fun t => .next (countTick t)) s

/-- GET_WIDTH (R117). -/
def execGetWidth (s : State) : Result :=
  accept (fun t => .next (returnValue (.u16 (BitVec.ofNat 16 panelWidth)) t)) s

/-- GET_HEIGHT (R118). -/
def execGetHeight (s : State) : Result :=
  accept (fun t => .next (returnValue (.u16 (BitVec.ofNat 16 panelHeight)) t)) s

/-- GET_IS_COLOR (R119). -/
def execGetIsColor (s : State) : Result := accept (fun t => .next (returnValue (.bool true) t)) s

/-- GET_DIAG_COUNT (R120). -/
def execGetDiagCount (s : State) : Result := accept (fun t => .next (returnValue (.u32 t.diagCount) t)) s

end Sys2Proof.Machine
end

