-- ==== Sys2Proof/Machine/Dispatch.lean ====
section
/-! DEFINITION. One arm for each instruction: a direct call of its meaning. -/

namespace Sys2Proof.Machine

/-- The meaning of an instruction. -/
def exec (i : Instr) (s : State) : Host.Outcome State Fault Refusal :=
  match i with
  | .cmdSoftwareReset => Sys2Proof.Machine.execCmdSoftwareReset s
  | .cmdSleepOut => Sys2Proof.Machine.execCmdSleepOut s
  | .cmdNormalModeOn => Sys2Proof.Machine.execCmdNormalModeOn s
  | .cmdInversionOn => Sys2Proof.Machine.execCmdInversionOn s
  | .cmdDisplayOn => Sys2Proof.Machine.execCmdDisplayOn s
  | .cmdColumnAddressSet => Sys2Proof.Machine.execCmdColumnAddressSet s
  | .cmdRowAddressSet => Sys2Proof.Machine.execCmdRowAddressSet s
  | .cmdMemoryWrite => Sys2Proof.Machine.execCmdMemoryWrite s
  | .cmdMemoryAccessControl => Sys2Proof.Machine.execCmdMemoryAccessControl s
  | .cmdPixelFormatSet => Sys2Proof.Machine.execCmdPixelFormatSet s
  | .cmdVendor84To87 v => Sys2Proof.Machine.execCmdVendor84To87 v s
  | .cmdVendor88To8F v => Sys2Proof.Machine.execCmdVendor88To8F v s
  | .cmdVendor90To97 v => Sys2Proof.Machine.execCmdVendor90To97 v s
  | .cmdVendor98 => Sys2Proof.Machine.execCmdVendor98 s
  | .cmdVendorB6 => Sys2Proof.Machine.execCmdVendorB6 s
  | .cmdVendorBCToBF v => Sys2Proof.Machine.execCmdVendorBCToBF v s
  | .cmdVendorC0ToFF v => Sys2Proof.Machine.execCmdVendorC0ToFF v s
  | .dataByte d => Sys2Proof.Machine.execDataByte d s
  | .writeCmd c => Sys2Proof.Machine.execWriteCmd c s
  | .writeData8 d => Sys2Proof.Machine.execWriteData8 d s
  | .writeData16 v => Sys2Proof.Machine.execWriteData16 v s
  | .writeColorRun v n => Sys2Proof.Machine.execWriteColorRun v n s
  | .waitMs d => Sys2Proof.Machine.execWaitMs d s
  | .driveBacklight => Sys2Proof.Machine.execDriveBacklight s
  | .hwResetPulse => Sys2Proof.Machine.execHwResetPulse s
  | .execStep st => Sys2Proof.Machine.execExecStep st s
  | .runInit => Sys2Proof.Machine.execRunInit s
  | .setWindow x1 y1 x2 y2 => Sys2Proof.Machine.execSetWindow x1 y1 x2 y2 s
  | .quantize r g b => Sys2Proof.Machine.execQuantize r g b s
  | .fillRaw r g b => Sys2Proof.Machine.execFillRaw r g b s
  | .setup => Sys2Proof.Machine.execSetup s
  | .update => Sys2Proof.Machine.execUpdate s
  | .fill r g b => Sys2Proof.Machine.execFill r g b s
  | .drawPixel x y r g b => Sys2Proof.Machine.execDrawPixel x y r g b s
  | .getWidth => Sys2Proof.Machine.execGetWidth s
  | .getHeight => Sys2Proof.Machine.execGetHeight s
  | .getIsColor => Sys2Proof.Machine.execGetIsColor s
  | .getDiagCount => Sys2Proof.Machine.execGetDiagCount s

end Sys2Proof.Machine
end

