-- ==== Sys2Proof/Machine/Step.lean ====
section
/-! DEFINITION. One step: the configuration is checked (R129), the next request taken (R113) and decoded, and its
instruction executed; with no request the block does nothing (R142). -/

namespace Sys2Proof.Machine

/-- One step of the machine. -/
def step (s : State) : Host.Outcome State Fault Refusal :=
  if wfInit s.cfg then
    match takeRequest s with
    | none => .next s
    | some (r, t) =>
      match decode r with
      | .ok i => exec i t
      | .error e => .refused (.undecodable e)
  else .refused .initTableIllformed

/-- The state with the wire unit whose bits are the low nbits of w as the next request (log 15, 16). -/
def State.withFetchWord (s : State) (nbits w : Nat) : State :=
  { s with pending := .wire (tableWord nbits w) :: s.pending }

end Sys2Proof.Machine
end

