-- ==== Sys2Proof/Machine/Trace.lean ====
section
/-! DEFINITION. What can be read off a bus trace: counts (R107), wire units (R62), the last level of each signal, and
three monitors: the framing contract (R63, R79, R88), the settle delays (R95, R148) and the data each command takes
(R68, R150). -/

namespace Sys2Proof.Machine

/-- The number of transactions: `CS(ASSERTED)` events (95_test_vectors.md, R107). -/
def transactionCount (t : List BusEvent) : Nat := t.countP fun e => e == .cs .asserted

/-- The bytes of a trace, in order. -/
def traceBytes : List BusEvent → List Byte
  | [] => []
  | .byte b :: t => b :: traceBytes t
  | _ :: t => traceBytes t

/-- The wire units of a trace whose mode-select starts at level l (R62). -/
def wireUnitsFrom (l : Mode) : List BusEvent → List WireUnit
  | [] => []
  | .dc k :: t => wireUnitsFrom k t
  | .byte b :: t => wireUnit l b :: wireUnitsFrom l t
  | _ :: t => wireUnitsFrom l t

/-- The command bytes of a trace whose mode-select starts at level l (R98). -/
def commandBytesFrom (l : Mode) : List BusEvent → List Byte
  | [] => []
  | .dc k :: t => commandBytesFrom k t
  | .byte b :: t => match l with
    | .cmd => b :: commandBytesFrom l t
    | .data => commandBytesFrom l t
  | _ :: t => commandBytesFrom l t

/-- The waits of a trace, in milliseconds (R85). -/
def traceWaits : List BusEvent → List Nat
  | [] => []
  | .wait d :: t => d :: traceWaits t
  | _ :: t => traceWaits t

/-- The mode-select level after a trace that starts at level l (R26). -/
def dcAfter (l : Mode) : List BusEvent → Mode
  | [] => l
  | .dc k :: t => dcAfter k t
  | _ :: t => dcAfter l t

/-- The select level after a trace that starts at level v (R26). -/
def csAfter (v : Select) : List BusEvent → Select
  | [] => v
  | .cs w :: t => csAfter w t
  | _ :: t => csAfter v t

/-! The framing contract (R63, R79): mode-select, select, bytes, deselect, and nothing else inside. -/

/-- Where a trace stands in a transaction. -/
inductive FramePhase where
  /-- Between transactions. -/
  | idle
  /-- Mode-select is set, select not yet asserted. -/
  | armed
  /-- Select is asserted. -/
  | shifting
deriving DecidableEq, Repr

/-- One event of a framed trace; none where the contract is broken. -/
def frameStep (p : FramePhase) (e : BusEvent) : Option FramePhase :=
  match p, e with
  | .idle, .dc _ => some .armed
  | .idle, .wait _ => some .idle
  | .idle, .blHigh => some .idle
  | .idle, .rst _ => some .idle
  | .armed, .cs .asserted => some .shifting
  | .shifting, .byte _ => some .shifting
  | .shifting, .cs .deasserted => some .idle
  | _, _ => none

/-- The phase after a trace. -/
def frameRun (p : FramePhase) : List BusEvent → Option FramePhase
  | [] => some p
  | e :: t => match frameStep p e with
    | some q => frameRun q t
    | none => none

/-- A trace made of whole transactions, with waits, backlight and reset events only between them. -/
def framed (t : List BusEvent) : Bool := frameRun .idle t == some .idle

/-! The settle delays (R95, R96, R148). -/

/-- What a trace still owes: the level of mode-select, the level of the reset signal, the wait that becomes due when the
transaction ends, and the wait owed before the next event, in milliseconds. -/
structure Owed where
  level : Mode
  rst : ResetLine
  due : Nat
  owed : Nat
deriving DecidableEq, Repr

/-- Nothing owed. -/
def Owed.start (l : Mode) : Owed := ⟨l, .inactive, 0, 0⟩

/-- One event; none where it comes before an owed wait is over. -/
def owedStep (o : Owed) (e : BusEvent) : Option Owed :=
  match e with
  | .wait d => some { o with owed := o.owed - d }
  | .dc l => if o.owed = 0 then some { o with level := l } else none
  | .cs .asserted => if o.owed = 0 then some o else none
  | .cs .deasserted => if o.owed = 0 then some { o with due := 0, owed := o.due } else none
  | .byte b =>
    if o.owed = 0 then some { o with due := (match o.level with | .cmd => minDelayMs b | .data => 0) } else none
  | .blHigh => if o.owed = 0 then some o else none
  | .rst .active => if o.owed = 0 then some { o with rst := .active } else none
  | .rst .inactive =>
    if o.owed = 0 then some { o with rst := .inactive, owed := (if o.rst = .active then settleMs else 0) } else none

/-- What is owed after a trace. -/
def owedRun (o : Owed) : List BusEvent → Option Owed
  | [] => some o
  | e :: t => match owedStep o e with
    | some q => owedRun q t
    | none => none

/-- Every load-bearing delay of the trace is kept, and none is owed at its end (R95, R148). -/
def delaysKept (l : Mode) (t : List BusEvent) : Bool :=
  match owedRun (Owed.start l) t with
  | some o => o.rst == .inactive && o.due == 0 && o.owed == 0
  | none => false

/-! The data after each command (R68, R150). -/

/-- What the stream of transactions stands at: the last command, the data transactions since (oldest first), the bytes of the
data transaction under way, and the data transactions of the last column window (0x2A) and row window (0x2B). -/
structure Stream where
  level : Mode
  cmd : Option Byte
  current : List Byte
  groups : List (List Byte)
  cols : List (List Byte)
  rows : List (List Byte)
deriving DecidableEq, Repr

/-- No command yet. -/
def Stream.start (l : Mode) : Stream := ⟨l, none, [], [], [], []⟩

/-- The number a data transaction carries, most significant byte first (R34). -/
def groupValue (g : List Byte) : Nat := g.foldl (fun v b => v * 256 + b.toNat) 0

/-- How many columns or rows the start and the end sent with a window command span; 0 where they are no two values. -/
def windowSpan : List (List Byte) → Nat
  | [a, b] => groupValue b - groupValue a + 1
  | _ => 0

/-- A command has exactly the data R68 gives it: after 0x2A and 0x2B two transactions of one 16-bit value; after 0x2C the
bytes of the window's pixels (R150); after any other opcode the payload of a step of the table with that opcode, each byte in
a transaction of its own. -/
def commandComplete (table : List InitStep) (c : Byte) (s : Stream) : Bool :=
  if c = 0x2A ∨ c = 0x2B then s.groups.map List.length == [2, 2]
  else if c = 0x2C then s.groups.flatten.length == 2 * (windowSpan s.cols * windowSpan s.rows)
  else table.any fun st => st.cmd == c && st.payload.map (fun p => [p]) == s.groups

/-- The last command, if there is one, has exactly its data. -/
def streamComplete (table : List InitStep) (s : Stream) : Bool :=
  match s.cmd with
  | none => true
  | some c => commandComplete table c s

/-- A command byte: the window data of the last command are kept, and its own data are to come. -/
def streamCommand (c : Byte) (s : Stream) : Stream :=
  { s with
    cmd := some c
    groups := []
    cols := if s.cmd = some 0x2A then s.groups else s.cols
    rows := if s.cmd = some 0x2B then s.groups else s.rows }

/-- One event of the stream; none where a command comes before the last one is complete, or a data byte before any command
(R68). -/
def streamStep (table : List InitStep) (s : Stream) (e : BusEvent) : Option Stream :=
  match e with
  | .dc l => some { s with level := l }
  | .byte b => match s.level with
    | .cmd => if streamComplete table s then some (streamCommand b s) else none
    | .data => if s.cmd = none then none else some { s with current := s.current ++ [b] }
  | .cs .deasserted => match s.level with
    | .cmd => some s
    | .data => some { s with groups := s.groups ++ [s.current], current := [] }
  | _ => some s

/-- The stream after a trace. -/
def streamRun (table : List InitStep) (s : Stream) : List BusEvent → Option Stream
  | [] => some s
  | e :: t => match streamStep table s e with
    | some q => streamRun table q t
    | none => none

/-- Every command of the trace has exactly the data R68 gives it under the table, the last one too (R150), and the trace ends
in no data transaction. -/
def payloadsExact (table : List InitStep) (l : Mode) (t : List BusEvent) : Bool :=
  match streamRun table (Stream.start l) t with
  | some s => streamComplete table s && s.current.isEmpty
  | none => false

end Sys2Proof.Machine
end

