-- ==== Sys2Proof/Safety.lean ====
section
/-! DEFINITION. What counts as a safe run, and the relations between states that claims use: frames, the invariants of
every run, and the invariants of a run of host operations. -/

namespace Sys2Proof.Safety

open Sys2Proof.Machine

/-- Nothing changed but what a bus transfer changes: dc, cs, sclk, mosi, T, the panel, and the count of free values. -/
structure BusFrame (s t : State) : Prop where
  cfg : t.cfg = s.cfg
  ready : t.ready = s.ready
  setupDone : t.setupDone = s.setupDone
  busy : t.busy = s.busy
  diagCount : t.diagCount = s.diagCount
  seqPc : t.seqPc = s.seqPc
  rst : t.rst = s.rst
  bl : t.bl = s.bl
  returns : t.returns = s.returns
  quantOut : t.quantOut = s.quantOut
  pending : t.pending = s.pending

/-- Every byte of the frame memory reads as before. -/
def GramSame (s t : State) : Prop := ∀ a, gramRead t.panel.gram a = gramRead s.panel.gram a

/-- The window registers, the write pointer and the frame memory are as before (R54). -/
structure PanelKept (s t : State) : Prop where
  gram : GramSame s t
  xs : t.panel.xs = s.panel.xs
  xe : t.panel.xe = s.panel.xe
  ys : t.panel.ys = s.panel.ys
  ye : t.panel.ye = s.panel.ye
  wc : t.panel.wc = s.panel.wc
  wr : t.panel.wr = s.panel.wr

/-- The controller takes bytes with a defined effect: reset inactive and no settle time running (R57, R61). -/
def Accepting (s : State) : Prop := panelBlocked s.rst s.panel = false

/-- The trace of t is that of s followed by the given events. -/
def Emits (s t : State) (es : List BusEvent) : Prop := t.trace = s.trace ++ es

/-- A host operation (R70). -/
def isHostRequest : Request → Bool
  | .host _ => true
  | .micro _ => false
  | .wire _ => false

/-- An instruction of the host's rows (R70). -/
def isHostInstr : Instr → Bool
  | .setup => true
  | .update => true
  | .fill _ _ _ => true
  | .drawPixel _ _ _ _ _ => true
  | .getWidth => true
  | .getHeight => true
  | .getIsColor => true
  | .getDiagCount => true
  | _ => false

/-- The wire container of an instruction of the wire rows; none for a typed term. -/
def wireOf (i : Instr) : Option (BitVec 16) :=
  match encode i with
  | .wire w => some w
  | .host _ => none
  | .micro _ => none

/-- Run instructions one after the other; a stop stays. -/
def runAll : List Instr → State → Result
  | [], s => .next s
  | i :: rest, s => andThen (exec i s) (runAll rest)

/-- Only host operations are to come (R72: nothing else is reachable by the host). -/
def HostOnly (s : State) : Prop := s.pending.all isHostRequest = true

/-- The invariant of every run: whole transactions (R88) and signals at rest between them (R26), the frame memory in
canonical form, seq_pc inside the table (R20), an absent pin at its reset value (R26), READY only after a setup
(R21, R22), no operation under way between steps (R130). -/
structure Inv (s : State) : Prop where
  framed : framed s.trace = true
  cs : s.cs = .deasserted
  sclk : s.sclk = .low
  rst : s.rst = .inactive
  noBacklight : s.cfg.hasBl = false → s.bl = .off
  dc : ∃ l, s.dc = dcAfter l s.trace
  gram : gramWf s.panel.gram
  seqPc : s.seqPc ≤ s.cfg.initTable.length
  setup : s.ready = true → s.setupDone = true
  busy : s.busy = false

/-- The invariant of a run of host operations: beyond `Inv`, every settle delay is kept and over (R95, R148), the
controller is accepting (R57), and every command has exactly its data (R68, R150), an initialization command the payload of a
step of the configuration's table. -/
structure HostInv (s : State) : Prop where
  inv : Inv s
  hostOnly : HostOnly s
  settle : s.panel.settle = 0
  delays : ∀ l, delaysKept l s.trace = true
  payloads : ∀ l, payloadsExact s.cfg.initTable l s.trace = true

/-- What a host must not choose (R8, R87, R144): a clock above 40 MHz, a reset pulse of no width. -/
def ConfigDuty (c : Config) : Prop := c.fSclkHz ≤ 40000000 ∧ (c.hasRst = true → 0 < c.rstPulseMs)

/-- A safe step: it does not stop. -/
def Runs (s : State) : Prop := ∃ t, step s = .next t

end Sys2Proof.Safety
end

