-- ==== Sys2Proof/Certificates/Slice0/Obligations.lean ====
section
/-! DEFINITION. The statements for the provers, family by family: encoding, framing, signals, sequencer, window, pixels,
quantizer, lifecycle, faults, panel, reset and step, whole-machine rules. -/

open Sys2Proof Sys2Proof.Machine Sys2Proof.Safety

/-! Encoding (R62, R66, R67, R70, R71, R77, R78). -/

/-- Words written from the spec's encodings decode to their rows: the named opcodes of R66, one unit of each vendor block of
R78, the data byte of R62, and a container that is no 9-bit unit (the model's choice, log 16). -/
def Obligations.WireWordsDecodeToTheirRows : Prop :=
  decodeTableWord 16 0b000000001 = some .cmdSoftwareReset ∧
  decodeTableWord 16 0b000010001 = some .cmdSleepOut ∧
  decodeTableWord 16 0b000010011 = some .cmdNormalModeOn ∧
  decodeTableWord 16 0b000100001 = some .cmdInversionOn ∧
  decodeTableWord 16 0b000101001 = some .cmdDisplayOn ∧
  decodeTableWord 16 0b000101010 = some .cmdColumnAddressSet ∧
  decodeTableWord 16 0b000101011 = some .cmdRowAddressSet ∧
  decodeTableWord 16 0b000101100 = some .cmdMemoryWrite ∧
  decodeTableWord 16 0b000110110 = some .cmdMemoryAccessControl ∧
  decodeTableWord 16 0b000111010 = some .cmdPixelFormatSet ∧
  decodeTableWord 16 0b010000110 = some (.cmdVendor84To87 0b10) ∧
  decodeTableWord 16 0b010001101 = some (.cmdVendor88To8F 0b101) ∧
  decodeTableWord 16 0b010010001 = some (.cmdVendor90To97 0b001) ∧
  decodeTableWord 16 0b010011000 = some .cmdVendor98 ∧
  decodeTableWord 16 0b010110110 = some .cmdVendorB6 ∧
  decodeTableWord 16 0b010111101 = some (.cmdVendorBCToBF 0b01) ∧
  decodeTableWord 16 0b011101000 = some (.cmdVendorC0ToFF 0b101000) ∧
  decodeTableWord 16 0b111101111 = some (.dataByte 0xEF) ∧
  decodeTableWord 16 0b1000000001 = none

/-- Decoding the encoding of an instruction gives it back, with every operand at every value its type admits; for a wire
row the host's own reading of the word agrees. -/
def Obligations.DecodeOfEncodeIsTheInstruction : Prop :=
  ∀ i : Instr, decode (encode i) = .ok i ∧
    ∀ w : BitVec 16, encode i = .wire w → decodeTableWord 16 w.toNat = some i

/-- The other direction on the wire: a unit that is a data byte, or a command of a named or vendor opcode, is the encoding
of what it decodes to; any other command unit is the plain transfer of its opcode (log 17). -/
def Obligations.EncodeOfDecodeIsTheUnit : Prop :=
  ∀ (l : Mode) (b : Byte),
    if l = .data ∨ isNamedInit b = true ∨ isWindowOpcode b = true ∨ isVendor b = true then
      encode (decodeWireUnit (wireUnit l b)) = .wire (0#7 ++ wireUnit l b)
    else decodeWireUnit (wireUnit l b) = .writeCmd b

/-! Framing units (R79 to R84). -/

/-- R81: WRITE_CMD sends one command byte in one transaction; dc is CMD after it, and nothing but the bus changes. -/
def Obligations.WriteCmdSendsOneCommandByte : Prop :=
  ∀ (c : Byte) (s : State), ∃ t, exec (.writeCmd c) s = .next t ∧
    Emits s t [.dc .cmd, .cs .asserted, .byte c, .cs .deasserted] ∧
    (∀ l, wireUnitsFrom l t.trace = wireUnitsFrom l s.trace ++ [0#1 ++ c]) ∧
    t.dc = .cmd ∧ t.cs = .deasserted ∧ BusFrame s t

/-- R82: WRITE_DATA8 sends one data byte in one transaction. -/
def Obligations.WriteData8SendsOneDataByte : Prop :=
  ∀ (d : Byte) (s : State), ∃ t, exec (.writeData8 d) s = .next t ∧
    Emits s t [.dc .data, .cs .asserted, .byte d, .cs .deasserted] ∧
    (∀ l, wireUnitsFrom l t.trace = wireUnitsFrom l s.trace ++ [1#1 ++ d]) ∧
    t.dc = .data ∧ t.cs = .deasserted ∧ BusFrame s t

/-- R83: WRITE_DATA16 sends two data bytes, the most significant first, in one transaction. -/
def Obligations.WriteData16SendsHighByteFirst : Prop :=
  ∀ (v : U16) (s : State), ∃ t, exec (.writeData16 v) s = .next t ∧
    Emits s t [.dc .data, .cs .asserted, .byte (v.extractLsb' 8 8), .byte (v.extractLsb' 0 8), .cs .deasserted] ∧
    (∀ l, wireUnitsFrom l t.trace =
      wireUnitsFrom l s.trace ++ [1#1 ++ v.extractLsb' 8 8, 1#1 ++ v.extractLsb' 0 8]) ∧
    t.dc = .data ∧ t.cs = .deasserted ∧ BusFrame s t

/-- R84: WRITE_COLOR_RUN sends n pixels, high byte then low byte, in one transaction, an empty one for n = 0. -/
def Obligations.WriteColorRunIsOneTransaction : Prop :=
  ∀ (v : U16) (n : Nat) (s : State), ∃ t, exec (.writeColorRun v n) s = .next t ∧
    Emits s t (([.dc .data, .cs .asserted] : List BusEvent) ++
      (List.replicate n [BusEvent.byte (v.extractLsb' 8 8), BusEvent.byte (v.extractLsb' 0 8)]).flatten ++
      ([.cs .deasserted] : List BusEvent)) ∧
    (∀ l, wireUnitsFrom l t.trace = wireUnitsFrom l s.trace ++
      (List.replicate n [1#1 ++ v.extractLsb' 8 8, 1#1 ++ v.extractLsb' 0 8]).flatten) ∧
    transactionCount t.trace = transactionCount s.trace + 1 ∧
    (traceBytes t.trace).length = (traceBytes s.trace).length + 2 * n ∧
    t.dc = .data ∧ t.cs = .deasserted ∧ BusFrame s t

/-- Every wire row (the ten named commands, the seven vendor blocks with every value of their free bits, the data byte)
runs in every state, and puts exactly its wire unit on the bus, in the one-byte transaction of its level: it is the command
or data transfer of its byte, with every effect of that (the model's reading of R64, log 13). -/
def Obligations.EveryWireRowSendsItsUnit : Prop :=
  ∀ (i : Instr) (w : BitVec 16) (s : State), wireOf i = some w →
    ∃ t, exec i s = .next t ∧
      Emits s t [.dc (if w.getLsbD 8 = true then .data else .cmd), .cs .asserted, .byte (w.extractLsb' 0 8),
        .cs .deasserted] ∧
      (∀ l, wireUnitsFrom l t.trace = wireUnitsFrom l s.trace ++ [w.extractLsb' 0 9]) ∧
      t.dc = (if w.getLsbD 8 = true then .data else .cmd) ∧ t.cs = .deasserted ∧ BusFrame s t ∧
      exec (if w.getLsbD 8 = true then .writeData8 (w.extractLsb' 0 8) else .writeCmd (w.extractLsb' 0 8)) s = .next t

/-- R80: the waveform of a byte is three phases for each bit, most significant first: mosi takes the bit with the clock low,
the clock goes high, the clock goes low. So mosi is stable across every rising edge, from whatever level it had before the
byte; the receiver, sampling on rising edges from a low clock, reads the bits of a sequence of bytes in order, eight for each
byte; and the clock is low after a byte. -/
def Obligations.BytesGoOutMostSignificantBitFirst : Prop :=
  (∀ (b : Byte), (byteWaveform b).length = 24 ∧
    ∀ k, k < 8 →
      (byteWaveform b)[3 * k]? = some ⟨levelOfBit (b.getLsbD (7 - k)), .low⟩ ∧
      (byteWaveform b)[3 * k + 1]? = some ⟨levelOfBit (b.getLsbD (7 - k)), .high⟩ ∧
      (byteWaveform b)[3 * k + 2]? = some ⟨levelOfBit (b.getLsbD (7 - k)), .low⟩) ∧
  (∀ (b : Byte) (before x y : ClockPhase) (k : Nat), before.sclk = .low →
    (before :: byteWaveform b)[k]? = some x → (before :: byteWaveform b)[k + 1]? = some y →
    x.sclk = .low → y.sclk = .high → x.mosi = y.mosi) ∧
  (∀ (bs : List Byte), risingSamples .low (bs.flatMap byteWaveform) =
    bs.flatMap (fun b => (List.range 8).map (fun i => levelOfBit (b.getLsbD (7 - i))))) ∧
  ∀ (b : Byte) (s : State), (emit (.byte b) s).sclk = .low

/-! Signal primitives (R85 to R87). -/

/-- WAIT_MS (R85) emits WAIT(d) for d > 0 and nothing for d = 0, holds every output, and changes nothing else but the settle
time the controller still needs, which shrinks by d (the model's reading of R57 and R96, log 9). -/
def Obligations.WaitMsHoldsEveryOutput : Prop :=
  ∀ (d : U16) (s : State), ∃ t, exec (.waitMs d) s = .next t ∧
    Emits s t (if d = 0 then [] else [.wait d.toNat]) ∧
    t.dc = s.dc ∧ t.cs = s.cs ∧ t.sclk = s.sclk ∧ t.mosi = s.mosi ∧ BusFrame s t ∧ t.freeTick = s.freeTick ∧
    t.panel = { s.panel with settle := s.panel.settle - d.toNat }

/-- R86: DRIVE_BACKLIGHT emits BL(HIGH) and drives bl high when the pin is present, and changes nothing otherwise. -/
def Obligations.DriveBacklightOnlyWithThePin : Prop :=
  ∀ s : State, exec .driveBacklight s =
    .next (if s.cfg.hasBl = true then { s with bl := .high, trace := s.trace ++ [.blHigh] } else s)

/-- R87: HW_RESET_PULSE emits the pulse and its 120 ms wait when the pin is present, leaves rst inactive and every other
signal, flag and counter as it was; without the pin nothing changes. -/
def Obligations.HwResetPulseOnlyWithThePin : Prop :=
  ∀ s : State, ∃ t, exec .hwResetPulse s = .next t ∧
    (s.cfg.hasRst = false → t = s) ∧
    (s.cfg.hasRst = true →
      Emits s t (([.rst .inactive, .rst .active] : List BusEvent) ++
        (if 0 < s.cfg.rstPulseMs then [.wait s.cfg.rstPulseMs] else [] : List BusEvent) ++
        ([.rst .inactive, .wait 120] : List BusEvent)) ∧
      t.rst = .inactive ∧ t.dc = s.dc ∧ t.cs = s.cs ∧ t.sclk = s.sclk ∧ t.mosi = s.mosi ∧ t.bl = s.bl ∧
      t.cfg = s.cfg ∧ t.ready = s.ready ∧ t.setupDone = s.setupDone ∧ t.busy = s.busy ∧
      t.diagCount = s.diagCount ∧ t.seqPc = s.seqPc ∧ t.returns = s.returns ∧ t.quantOut = s.quantOut ∧
      t.pending = s.pending)

/-- A hardware reset pulse leaves no byte of the frame memory with a known value and the controller accepting; without the
pin the panel is as it was (the model's reading of R57, R143 and U17, log 10). -/
def Obligations.HwResetPulseLeavesThePanelUnknown : Prop :=
  ∀ s : State, ∃ t, exec .hwResetPulse s = .next t ∧
    if s.cfg.hasRst = true then Accepting t ∧ ∀ a, gramRead t.panel.gram a = none else t.panel = s.panel

/-! The sequencer (R92 to R101). -/

/-- R93: EXEC_STEP sends the command, each payload byte in its own data transaction, and the wait for a delay above 0. -/
def Obligations.ExecStepSendsCommandPayloadAndWait : Prop :=
  ∀ (st : InitStep) (s : State), ∃ t, exec (.execStep st) s = .next t ∧
    Emits s t (([.dc .cmd, .cs .asserted, .byte st.cmd, .cs .deasserted] : List BusEvent) ++
      st.payload.flatMap (fun p => ([.dc .data, .cs .asserted, .byte p, .cs .deasserted] : List BusEvent)) ++
      (if st.delayMs = 0 then [] else [.wait st.delayMs.toNat] : List BusEvent)) ∧
    t.dc = (if st.payload = [] then .cmd else .data) ∧ t.cs = .deasserted ∧ BusFrame s t

/-- An initialization step of a named or vendor opcode leaves the window, the write pointer and every byte of the frame
memory as they were, in an accepting controller (R49, R54; a payload after a reset or sleep-out falls into its settle time,
R57). That a software reset (0x01) keeps them is the model's reading (log 25). -/
def Obligations.InitStepsKeepTheFrameMemory : Prop :=
  ∀ (st : InitStep) (s : State), Accepting s → wfStep st = true → (startsSettle st.cmd = true → st.payload = []) →
    ∃ t, exec (.execStep st) s = .next t ∧ PanelKept s t

/-- R98: RUN_INIT's trace is the concatenation of its steps' events; its command bytes are the table's opcodes in order; it
has one transaction for each opcode and payload byte, each of one byte; seq_pc ends at the table's length (R94); nothing but
seq_pc and the bus changes (R101). -/
def Obligations.RunInitSendsTheTableInOrder : Prop :=
  ∀ s : State, ∃ t, exec .runInit s = .next t ∧
    (∃ es, Emits s t es ∧
      es = s.cfg.initTable.flatMap (fun st =>
        ([.dc .cmd, .cs .asserted, .byte st.cmd, .cs .deasserted] : List BusEvent) ++
        st.payload.flatMap (fun p => ([.dc .data, .cs .asserted, .byte p, .cs .deasserted] : List BusEvent)) ++
        (if st.delayMs = 0 then [] else [.wait st.delayMs.toNat] : List BusEvent)) ∧
      (∀ l, commandBytesFrom l es = s.cfg.initTable.map InitStep.cmd) ∧
      transactionCount es = s.cfg.initTable.length + (s.cfg.initTable.map (fun st => st.payload.length)).sum ∧
      (traceBytes es).length = transactionCount es) ∧
    t.seqPc = s.cfg.initTable.length ∧ BusFrame { s with seqPc := s.cfg.initTable.length } t

/-- With a well-formed table RUN_INIT leaves the window, the pointer and every byte of the frame memory of an accepting
controller as they were, and the controller accepting: no byte falls into a settle time (R54, R57, R92; the settle time is
log 9). Every well-formed table starts with a software reset, and that this keeps them is the model's reading (log 25). -/
def Obligations.RunInitKeepsTheFrameMemory : Prop :=
  ∀ s : State, Accepting s → wfInit s.cfg = true → ∃ t, exec .runInit s = .next t ∧ PanelKept s t ∧ Accepting t

/-- R92: WF_INIT accepts a configuration exactly when its table meets WF1 to WF7, and a configuration whose table fails it
is refused: it takes no step (R129). -/
def Obligations.InitTableCheckIsItsSevenClauses : Prop :=
  (∀ s : State, wfInit s.cfg = false → step s = .refused .initTableIllformed) ∧
  ∀ c : Config, wfInit c = true ↔
    (∃ st rest, c.initTable = st :: rest ∧ st.cmd = 0x01 ∧ 120 ≤ st.delayMs.toNat ∧ ∀ st' ∈ rest, st'.cmd ≠ 0x01) ∧
    (∀ st ∈ c.initTable,
      (st.cmd ∈ ([0x01, 0x11, 0x13, 0x21, 0x29, 0x36, 0x3A] : List Byte) ∨
        (0x84 ≤ st.cmd.toNat ∧ st.cmd.toNat ≤ 0x98) ∨ st.cmd = 0xB6 ∨ 0xBC ≤ st.cmd.toNat) ∧
      (st.cmd = 0x11 → 120 ≤ st.delayMs.toNat) ∧ (st.cmd = 0x21 → 10 ≤ st.delayMs.toNat) ∧
      (st.cmd = 0x13 → 10 ≤ st.delayMs.toNat) ∧ (st.cmd = 0x29 → 120 ≤ st.delayMs.toNat) ∧
      (st.cmd = 0x01 → 120 ≤ st.delayMs.toNat) ∧
      (st.cmd = 0x3A → st.payload = c.colmodPayload) ∧ (st.cmd = 0x36 → st.payload = c.madctlPayload) ∧
      (st.cmd ∈ ([0x01, 0x11, 0x13, 0x21, 0x29] : List Byte) → st.payload = [])) ∧
    (∀ op ∈ ([0x11, 0x21, 0x13, 0x29, 0x36, 0x3A] : List Byte), ∃ st ∈ c.initTable, st.cmd = op)

/-! Window and pixel operations (R102 to R107). -/

/-- R102: SET_WINDOW sends its seven transactions when 0 ≤ x1 ≤ x2 < 240 and 0 ≤ y1 ≤ y2 < 240, with every value split high
byte first, and faults WINDOW_INVALID otherwise. -/
def Obligations.SetWindowSendsItsWindowOrFaults : Prop :=
  ∀ (x1 y1 x2 y2 : Nat) (s : State),
    if x1 ≤ x2 ∧ x2 < 240 ∧ y1 ≤ y2 ∧ y2 < 240 then
      ∃ t, exec (.setWindow x1 y1 x2 y2) s = .next t ∧
        Emits s t (linesEvents [.cmd 0x2A, .d16 (BitVec.ofNat 16 x1), .d16 (BitVec.ofNat 16 x2),
          .cmd 0x2B, .d16 (BitVec.ofNat 16 y1), .d16 (BitVec.ofNat 16 y2), .cmd 0x2C]) ∧
        t.dc = .cmd ∧ t.cs = .deasserted ∧ BusFrame s t
    else exec (.setWindow x1 y1 x2 y2) s = .fault .windowInvalid

/-- In an accepting controller SET_WINDOW changes no byte of the frame memory, and leaves the panel primed: its bounds are
the window, its pointer the window's origin, the next byte the high byte of a pixel (R49, R50, R102). -/
def Obligations.SetWindowPrimesThePanel : Prop :=
  ∀ (x1 y1 x2 y2 : Nat) (s : State), Accepting s → x1 ≤ x2 → x2 < 240 → y1 ≤ y2 → y2 < 240 →
    ∃ t, exec (.setWindow x1 y1 x2 y2) s = .next t ∧ GramSame s t ∧ Accepting t ∧
      t.panel.cmd = some 0x2C ∧ t.panel.xs.toNat = x1 ∧ t.panel.xe.toNat = x2 ∧
      t.panel.ys.toNat = y1 ∧ t.panel.ye.toNat = y2 ∧ t.panel.wc = x1 ∧ t.panel.wr = y1 ∧ t.panel.half = .hi

/-- R77: the full-panel window on the wire, unit by unit, in seven transactions of lengths 1, 2, 2, 1, 2, 2, 1. -/
def Obligations.FullPanelWindowOnTheWire : Prop :=
  ∀ s : State, ∃ t, exec (.setWindow 0 0 239 239) s = .next t ∧
    (∀ l, wireUnitsFrom l t.trace = wireUnitsFrom l s.trace ++
      [0x02A, 0x100, 0x100, 0x100, 0x1EF, 0x02B, 0x100, 0x100, 0x100, 0x1EF, 0x02C]) ∧
    Emits s t (txnEvents .cmd [0x2A] ++ txnEvents .data [0x00, 0x00] ++ txnEvents .data [0x00, 0xEF] ++
      txnEvents .cmd [0x2B] ++ txnEvents .data [0x00, 0x00] ++ txnEvents .data [0x00, 0xEF] ++ txnEvents .cmd [0x2C])

/-- R103: FILL_RAW sends the full-panel window and one run of 57,600 pixels of the quantized colour, whatever ready is. -/
def Obligations.FillRawSendsOneRun : Prop :=
  ∀ (r g b : Byte) (s : State), ∃ t, exec (.fillRaw r g b) s = .next t ∧
    Emits s t (linesEvents [.window 0 0 239 239, .run (quantizeColor r g b) (240 * 240)]) ∧
    t.dc = .data ∧ t.cs = .deasserted ∧ BusFrame s t

/-- R104: FILL sends FILL_RAW's events when ready, and nothing at all otherwise. -/
def Obligations.FillSendsOneRunWhenReady : Prop :=
  ∀ (r g b : Byte) (s : State), s.busy = false → ∃ t, exec (.fill r g b) s = .next t ∧
    if s.ready = true then
      Emits s t (linesEvents [.window 0 0 239 239, .run (quantizeColor r g b) (240 * 240)]) ∧
      t.dc = .data ∧ t.cs = .deasserted ∧ BusFrame s t
    else t = s

/-- R105: DRAW_PIXEL sends a one-pixel window and one 16-bit value when ready and 0 ≤ x < 240 and 0 ≤ y < 240 on the
integers, and changes nothing otherwise. -/
def Obligations.DrawPixelSendsOnePixelWhenInBounds : Prop :=
  ∀ (x y : Coord) (r g b : Byte) (s : State), s.busy = false → ∃ t, exec (.drawPixel x y r g b) s = .next t ∧
    if s.ready = true ∧ 0 ≤ x.toInt ∧ x.toInt < 240 ∧ 0 ≤ y.toInt ∧ y.toInt < 240 then
      Emits s t (linesEvents [.window x.toInt.toNat y.toInt.toNat x.toInt.toNat y.toInt.toNat,
        .d16 (quantizeColor r g b)]) ∧
      t.dc = .data ∧ t.cs = .deasserted ∧ BusFrame s t
    else t = s

/-- R107: the transactions and bytes of SET_WINDOW, of a FILL with ready = true and of a DRAW_PIXEL that is not rejected. -/
def Obligations.CountLaws : Prop :=
  (∀ (x1 y1 x2 y2 : Nat) (s t : State), exec (.setWindow x1 y1 x2 y2) s = .next t →
    transactionCount t.trace = transactionCount s.trace + 7 ∧
    (traceBytes t.trace).length = (traceBytes s.trace).length + 11 ∧
    ∀ l, (commandBytesFrom l t.trace).length = (commandBytesFrom l s.trace).length + 3) ∧
  (∀ (r g b : Byte) (s : State), s.busy = false → ∃ t, exec (.fill r g b) s = .next t ∧
    if s.ready = true then
      transactionCount t.trace = transactionCount s.trace + 8 ∧
      (traceBytes t.trace).length = (traceBytes s.trace).length + 115211 ∧
      (∃ (es : List BusEvent) (bs : List Byte), t.trace = s.trace ++ es ++ txnEvents .data bs ∧ bs.length = 115200)
    else transactionCount t.trace = transactionCount s.trace) ∧
  (∀ (x y : Coord) (r g b : Byte) (s : State), s.busy = false → ∃ t, exec (.drawPixel x y r g b) s = .next t ∧
    if s.ready = true ∧ 0 ≤ x.toInt ∧ x.toInt < 240 ∧ 0 ≤ y.toInt ∧ y.toInt < 240 then
      transactionCount t.trace = transactionCount s.trace + 8 ∧
      (traceBytes t.trace).length = (traceBytes s.trace).length + 13 ∧
      (∃ (es : List BusEvent) (bs : List Byte), t.trace = s.trace ++ es ++ txnEvents .data bs ∧ bs.length = 2)
    else transactionCount t.trace = transactionCount s.trace)

/-- EXEC_STEP, SET_WINDOW, FILL_RAW and an accepted DRAW_PIXEL have, in every state of the block and the controller, exactly
the effect of their units run one after the other (R93, R102, R103, R105, R37). -/
def Obligations.CompositeOperationsRunTheirUnits : Prop :=
  (∀ (st : InitStep) (s : State), exec (.execStep st) s =
    runAll (.writeCmd st.cmd :: st.payload.map .writeData8 ++ [.waitMs st.delayMs]) s) ∧
  (∀ (x1 y1 x2 y2 : Nat) (s : State), x1 ≤ x2 → x2 < 240 → y1 ≤ y2 → y2 < 240 → exec (.setWindow x1 y1 x2 y2) s =
    runAll [.writeCmd 0x2A, .writeData16 (BitVec.ofNat 16 x1), .writeData16 (BitVec.ofNat 16 x2),
      .writeCmd 0x2B, .writeData16 (BitVec.ofNat 16 y1), .writeData16 (BitVec.ofNat 16 y2), .writeCmd 0x2C] s) ∧
  (∀ (r g b : Byte) (s : State), exec (.fillRaw r g b) s =
    runAll [.setWindow 0 0 239 239, .writeColorRun (quantizeColor r g b) (240 * 240)] s) ∧
  (∀ (x y : Coord) (r g b : Byte) (s : State), s.busy = false → s.ready = true →
    0 ≤ x.toInt → x.toInt < 240 → 0 ≤ y.toInt → y.toInt < 240 → ∃ u,
      runAll [.setWindow x.toInt.toNat y.toInt.toNat x.toInt.toNat y.toInt.toNat, .writeData16 (quantizeColor r g b)]
        { s with busy := true } = .next u ∧
      exec (.drawPixel x y r g b) s = .next { u with busy := false })

/-! The quantizer (R108 to R111). -/

/-- R108, R109: QUANTIZE's word has r × 31 / 255 in bits 15..11, g × 63 / 255 in bits 10..5 and b × 31 / 255 in bits 4..0,
truncating; it depends on the colour alone. The rule's result is a value and writes no state: that an instruction leaves it in
quantOut, and changes nothing else, is the model's choice (log 19). -/
def Obligations.QuantizeScalesEachChannel : Prop :=
  ∀ (r g b : Byte) (s : State), ∃ q : U16, exec (.quantize r g b) s = .next { s with quantOut := q } ∧
    (q.extractLsb' 11 5).toNat = r.toNat * 31 / 255 ∧
    (q.extractLsb' 5 6).toNat = g.toNat * 63 / 255 ∧
    (q.extractLsb' 0 5).toNat = b.toNat * 31 / 255

/-- R110: each field of the quantized word is monotone in its channel, and has value k exactly between the thresholds
ceil(255k/31) (red, blue) and ceil(255k/63) (green); the thresholds are those the rule lists. -/
def Obligations.QuantizerThresholds : Prop :=
  (∀ (r g b : Byte),
    (∀ k, k < 32 → ((quantizeColor r g b).toNat / 2048 = k ↔
      (255 * k + 30) / 31 ≤ r.toNat ∧ r.toNat < (255 * (k + 1) + 30) / 31)) ∧
    (∀ k, k < 64 → ((quantizeColor r g b).toNat / 32 % 64 = k ↔
      (255 * k + 62) / 63 ≤ g.toNat ∧ g.toNat < (255 * (k + 1) + 62) / 63)) ∧
    (∀ k, k < 32 → ((quantizeColor r g b).toNat % 32 = k ↔
      (255 * k + 30) / 31 ≤ b.toNat ∧ b.toNat < (255 * (k + 1) + 30) / 31)) ∧
    (∀ r' g' b' : Byte,
      (r.toNat ≤ r'.toNat → (quantizeColor r g b).toNat / 2048 ≤ (quantizeColor r' g' b').toNat / 2048) ∧
      (g.toNat ≤ g'.toNat → (quantizeColor r g b).toNat / 32 % 64 ≤ (quantizeColor r' g' b').toNat / 32 % 64) ∧
      (b.toNat ≤ b'.toNat → (quantizeColor r g b).toNat % 32 ≤ (quantizeColor r' g' b').toNat % 32))) ∧
  (List.range 32).map (fun k => (255 * k + 30) / 31) =
    [0, 9, 17, 25, 33, 42, 50, 58, 66, 75, 83, 91, 99, 107, 116, 124,
      132, 140, 149, 157, 165, 173, 181, 190, 198, 206, 214, 223, 231, 239, 247, 255] ∧
  (List.range 64).map (fun k => (255 * k + 62) / 63) =
    [0, 5, 9, 13, 17, 21, 25, 29, 33, 37, 41, 45, 49, 53, 57, 61, 65, 69, 73, 77, 81, 85, 90, 94, 98, 102, 106, 110,
      114, 118, 122, 126] ++
    [130, 134, 138, 142, 146, 150, 154, 158, 162, 166, 170, 175, 179, 183, 187, 191, 195, 199, 203, 207, 211, 215,
      219, 223, 227, 231, 235, 239, 243, 247, 251, 255]

/-! Lifecycle (R114 to R122). -/

/-- R114, R121: the first SETUP runs from every state that is not busy: backlight, reset pulse, the table, the initial fill,
then ready; its trace is R121's closed form. -/
def Obligations.FirstSetupRunsToReady : Prop :=
  ∀ s : State, s.busy = false → s.setupDone = false → ∃ t, exec .setup s = .next t ∧
    Emits s t (
      (if s.cfg.hasBl = true then [.blHigh] else [] : List BusEvent) ++
      (if s.cfg.hasRst = true then
        ([.rst .inactive, .rst .active] : List BusEvent) ++
          (if 0 < s.cfg.rstPulseMs then [.wait s.cfg.rstPulseMs] else [] : List BusEvent) ++
          ([.rst .inactive, .wait 120] : List BusEvent)
      else [] : List BusEvent) ++
      s.cfg.initTable.flatMap (fun st =>
        ([.dc .cmd, .cs .asserted, .byte st.cmd, .cs .deasserted] : List BusEvent) ++
        st.payload.flatMap (fun p => ([.dc .data, .cs .asserted, .byte p, .cs .deasserted] : List BusEvent)) ++
        (if st.delayMs = 0 then [] else [.wait st.delayMs.toNat] : List BusEvent)) ++
      linesEvents [.window 0 0 239 239,
        .run (quantizeColor s.cfg.initialFillColor.r s.cfg.initialFillColor.g s.cfg.initialFillColor.b) (240 * 240)]) ∧
    t.ready = true ∧ t.setupDone = true ∧ t.busy = false ∧ t.seqPc = s.cfg.initTable.length ∧
    t.dc = .data ∧ t.cs = .deasserted ∧
    t.rst = (if s.cfg.hasRst = true then .inactive else s.rst) ∧ t.bl = (if s.cfg.hasBl = true then .high else s.bl) ∧
    t.cfg = s.cfg ∧ t.diagCount = s.diagCount ∧ t.returns = s.returns ∧ t.quantOut = s.quantOut ∧
    t.pending = s.pending

/-- R143 and R59: with a well-formed table and the reset signal inactive (as `Inv` has it between operations), SETUP brings the
panel to a known content from any state of the controller: after it every cell holds the quantized initial colour, and the
controller is accepting. A controller still settling is ready again because the table's 0x01 starts its settle time anew (the
model's reading, log 9). -/
def Obligations.SetupFillsThePanelFromAnyControllerState : Prop :=
  ∀ s : State, s.busy = false → s.setupDone = false → wfInit s.cfg = true → s.rst = .inactive →
    ∃ t, exec .setup s = .next t ∧ Accepting t ∧
      ∀ c r, c < 240 → r < 240 → gramCell t.panel.gram c r =
        some (quantizeColor s.cfg.initialFillColor.r s.cfg.initialFillColor.g s.cfg.initialFillColor.b)

/-- R115: a SETUP when setup_done is true, on a block that is not busy, faults SETUP_REPEATED. -/
def Obligations.SecondSetupFaults : Prop :=
  ∀ s : State, s.busy = false → s.setupDone = true → exec .setup s = .fault .setupRepeated

/-- R116: UPDATE adds one to diag_count modulo 2^32, whatever ready is, emits nothing and changes nothing else. -/
def Obligations.UpdateCountsOneTick : Prop :=
  ∀ s : State, s.busy = false → ∃ t, exec .update s = .next t ∧
    t.diagCount.toNat = (s.diagCount.toNat + 1) % 2 ^ 32 ∧ t = { s with diagCount := t.diagCount }

/-- R117 to R120: the queries return 240, 240, true and diag_count in every lifecycle state, and change nothing else. -/
def Obligations.QueriesReturnTheirValues : Prop :=
  ∀ s : State, s.busy = false →
    exec .getWidth s = .next { s with returns := s.returns ++ [.u16 240] } ∧
    exec .getHeight s = .next { s with returns := s.returns ++ [.u16 240] } ∧
    exec .getIsColor s = .next { s with returns := s.returns ++ [.bool true] } ∧
    exec .getDiagCount s = .next { s with returns := s.returns ++ [.u32 s.diagCount] }

/-- R122: while ready is false FILL and DRAW_PIXEL emit nothing and change nothing, UPDATE counts, and the queries answer. -/
def Obligations.BeforeSetupNothingIsSent : Prop :=
  ∀ s : State, s.busy = false → s.ready = false →
    (∀ r g b, exec (.fill r g b) s = .next s) ∧
    (∀ x y r g b, exec (.drawPixel x y r g b) s = .next s) ∧
    exec .update s = .next { s with diagCount := s.diagCount + 1 } ∧
    (∀ i ∈ ([.getWidth, .getHeight, .getIsColor, .getDiagCount] : List Instr),
      ∃ v, exec i s = .next { s with returns := s.returns ++ [v] })

/-! Faults and priority (R129 to R132). -/

/-- R130, R132: every host operation faults CONCURRENT_OP while busy, before anything else is looked at. -/
def Obligations.BusyHostOperationFaults : Prop :=
  ∀ (i : Instr) (s : State), isHostInstr i = true → s.busy = true → exec i s = .fault .concurrentOp

/-- R129, R130, R132: a host operation stops only as CONCURRENT_OP while busy or as SETUP_REPEATED on a second SETUP; in every
other case it runs and busy is false after it. So no host operation reaches WINDOW_INVALID. -/
def Obligations.HostOperationsStopOnlyAsTheSpecSays : Prop :=
  ∀ (i : Instr) (s : State), isHostInstr i = true →
    (s.busy = true ∧ exec i s = .fault .concurrentOp) ∨
    (s.busy = false ∧ i = .setup ∧ s.setupDone = true ∧ exec i s = .fault .setupRepeated) ∨
    (s.busy = false ∧ (i = .setup → s.setupDone = false) ∧ ∃ t, exec i s = .next t ∧ t.busy = false)

/-! The panel (R48 to R60). -/

/-- R49: a command byte is taken as the panel's command, resets the count, and for 0x2C alone moves the pointer to the
window's origin. The bounds and every byte of the frame memory are kept, which for the software reset 0x01 is the model's
reading (log 25). A byte while select is deasserted is not received. -/
def Obligations.CommandByteAtThePanel : Prop :=
  (∀ (c : Byte) (s : State), Accepting s → ∃ t, exec (.writeCmd c) s = .next t ∧
    t.panel.cmd = some c ∧ t.panel.pidx = 0 ∧ GramSame s t ∧
    t.panel.xs = s.panel.xs ∧ t.panel.xe = s.panel.xe ∧ t.panel.ys = s.panel.ys ∧ t.panel.ye = s.panel.ye ∧
    t.panel.hiLatch = s.panel.hiLatch ∧
    t.panel.wc = (if c = 0x2C then s.panel.xs.toNat else s.panel.wc) ∧
    t.panel.wr = (if c = 0x2C then s.panel.ys.toNat else s.panel.wr) ∧
    t.panel.half = (if c = 0x2C then .hi else s.panel.half)) ∧
  (∀ (b : Byte) (s : State), s.cs = .deasserted → (emit (.byte b) s).panel = s.panel)

/-- R50: the first four data bytes after 0x2A set the column bounds, after 0x2B the row bounds, high byte first; later ones
leave the frame memory and the pointer alone (the bounds are then anything, log 7). -/
def Obligations.WindowBytesAtThePanel : Prop :=
  ∀ (d : Byte) (s : State), Accepting s → (s.panel.cmd = some 0x2A ∨ s.panel.cmd = some 0x2B) →
    ∃ t, exec (.writeData8 d) s = .next t ∧ t.panel.pidx = s.panel.pidx + 1 ∧ t.panel.cmd = s.panel.cmd ∧
      GramSame s t ∧ t.panel.wc = s.panel.wc ∧ t.panel.wr = s.panel.wr ∧ t.panel.half = s.panel.half ∧
      t.panel.hiLatch = s.panel.hiLatch ∧
      (s.panel.pidx < 4 →
        t.panel.xs = (if s.panel.cmd = some 0x2A ∧ s.panel.pidx = 0 then d ++ s.panel.xs.extractLsb' 0 8
          else if s.panel.cmd = some 0x2A ∧ s.panel.pidx = 1 then s.panel.xs.extractLsb' 8 8 ++ d else s.panel.xs) ∧
        t.panel.xe = (if s.panel.cmd = some 0x2A ∧ s.panel.pidx = 2 then d ++ s.panel.xe.extractLsb' 0 8
          else if s.panel.cmd = some 0x2A ∧ s.panel.pidx = 3 then s.panel.xe.extractLsb' 8 8 ++ d else s.panel.xe) ∧
        t.panel.ys = (if s.panel.cmd = some 0x2B ∧ s.panel.pidx = 0 then d ++ s.panel.ys.extractLsb' 0 8
          else if s.panel.cmd = some 0x2B ∧ s.panel.pidx = 1 then s.panel.ys.extractLsb' 8 8 ++ d else s.panel.ys) ∧
        t.panel.ye = (if s.panel.cmd = some 0x2B ∧ s.panel.pidx = 2 then d ++ s.panel.ye.extractLsb' 0 8
          else if s.panel.cmd = some 0x2B ∧ s.panel.pidx = 3 then s.panel.ye.extractLsb' 8 8 ++ d else s.panel.ye))

/-- R51, R52: after 0x2C the first byte of a pixel is latched and stores nothing; the second stores the pixel at the
pointer's cell, most significant byte first, and no other byte of the frame memory changes, or stores nothing outside
240 × 240; the pointer then advances row-major. Beyond the window, where R52 lets every cell take any value, no byte keeps a
known value (the model's form of that, log 8); an inverted window is read literally (log 27). -/
def Obligations.PixelBytesAtThePanel : Prop :=
  ∀ (d : Byte) (s : State), Accepting s → s.panel.cmd = some 0x2C → ∃ t, exec (.writeData8 d) s = .next t ∧
    t.panel.xs = s.panel.xs ∧ t.panel.xe = s.panel.xe ∧ t.panel.ys = s.panel.ys ∧ t.panel.ye = s.panel.ye ∧
    (s.panel.half = .hi → t.panel.half = .lo ∧ t.panel.hiLatch = d ∧ GramSame s t ∧
      t.panel.wc = s.panel.wc ∧ t.panel.wr = s.panel.wr) ∧
    (s.panel.half = .lo → t.panel.half = .hi ∧
      (if s.panel.xe.toNat < s.panel.wc + 1 then t.panel.wc = s.panel.xs.toNat ∧ t.panel.wr = s.panel.wr + 1
        else t.panel.wc = s.panel.wc + 1 ∧ t.panel.wr = s.panel.wr) ∧
      if s.panel.ye.toNat < s.panel.wr ∨ 240 ≤ s.panel.xs.toNat ∨ 240 ≤ s.panel.xe.toNat ∨ 240 ≤ s.panel.ys.toNat ∨
          240 ≤ s.panel.ye.toNat then ∀ a, gramRead t.panel.gram a = none
      else if s.panel.wc < 240 ∧ s.panel.wr < 240 then
        gramRead t.panel.gram (cellAddr s.panel.wc s.panel.wr) = some s.panel.hiLatch ∧
        gramRead t.panel.gram (cellAddr s.panel.wc s.panel.wr + 1) = some d ∧
        ∀ a, a ≠ cellAddr s.panel.wc s.panel.wr → a ≠ cellAddr s.panel.wc s.panel.wr + 1 →
          gramRead t.panel.gram a = gramRead s.panel.gram a
      else GramSame s t)

/-- R54: data after any other command changes neither the frame memory nor the bounds nor the pointer: one byte, a 16-bit
value, or a run. -/
def Obligations.OtherDataKeepsThePanel : Prop :=
  ∀ (c : Byte) (s : State), Accepting s → s.panel.cmd = some c → c ≠ 0x2A → c ≠ 0x2B → c ≠ 0x2C →
    (∀ d, ∃ t, exec (.writeData8 d) s = .next t ∧ PanelKept s t) ∧
    (∀ v, ∃ t, exec (.writeData16 v) s = .next t ∧ PanelKept s t) ∧
    (∀ v n, ∃ t, exec (.writeColorRun v n) s = .next t ∧ PanelKept s t)

/-- A 16-bit value after 0x2C, with the panel expecting a high byte and its pointer inside a legal window, is one pixel: it
changes exactly the two bytes of the cell the pointer addresses (R51). -/
def Obligations.WriteData16StoresOnePixel : Prop :=
  ∀ (v : U16) (s : State), Accepting s → s.panel.cmd = some 0x2C → s.panel.half = .hi →
    s.panel.xs.toNat < 240 → s.panel.xe.toNat < 240 → s.panel.ys.toNat < 240 → s.panel.ye.toNat < 240 →
    s.panel.wr ≤ s.panel.ye.toNat → s.panel.wc < 240 →
    ∃ t, exec (.writeData16 v) s = .next t ∧ gramCell t.panel.gram s.panel.wc s.panel.wr = some v ∧
      ∀ a, a ≠ cellAddr s.panel.wc s.panel.wr → a ≠ cellAddr s.panel.wc s.panel.wr + 1 →
        gramRead t.panel.gram a = gramRead s.panel.gram a

/-- A run of n pixels, no more than the window holds, into a primed panel: the first n cells of the window, row-major, hold the
colour, and every other byte of the frame memory is unchanged (R51, R84). -/
def Obligations.ColorRunFillsTheWindowInOrder : Prop :=
  ∀ (v : U16) (n x1 y1 x2 y2 : Nat) (s : State), Accepting s → s.panel.cmd = some 0x2C → s.panel.half = .hi →
    s.panel.xs.toNat = x1 → s.panel.xe.toNat = x2 → s.panel.ys.toNat = y1 → s.panel.ye.toNat = y2 →
    s.panel.wc = x1 → s.panel.wr = y1 → x1 ≤ x2 → x2 < 240 → y1 ≤ y2 → y2 < 240 →
    n ≤ (x2 - x1 + 1) * (y2 - y1 + 1) →
    ∃ t, exec (.writeColorRun v n) s = .next t ∧
      (∀ k, k < n → gramCell t.panel.gram (x1 + k % (x2 - x1 + 1)) (y1 + k / (x2 - x1 + 1)) = some v) ∧
      (∀ a, (∀ k, k < n →
          a ≠ cellAddr (x1 + k % (x2 - x1 + 1)) (y1 + k / (x2 - x1 + 1)) ∧
          a ≠ cellAddr (x1 + k % (x2 - x1 + 1)) (y1 + k / (x2 - x1 + 1)) + 1) →
        gramRead t.panel.gram a = gramRead s.panel.gram a)

/-- R57: a byte sent while the controller's reset is active or its settle time runs (the model's intervals, log 9) leaves no byte
of the frame memory with a known value (the model's form of an unspecified content, log 8), and the block's own state is as it
would be otherwise. -/
def Obligations.ForbiddenIntervalLosesThePanel : Prop :=
  ∀ (b : Byte) (s : State), ¬ Accepting s →
    (∃ t, exec (.writeCmd b) s = .next t ∧ (∀ a, gramRead t.panel.gram a = none) ∧
      Emits s t (txnEvents .cmd [b]) ∧ BusFrame s t) ∧
    (∃ t, exec (.writeData8 b) s = .next t ∧ (∀ a, gramRead t.panel.gram a = none) ∧
      Emits s t (txnEvents .data [b]) ∧ BusFrame s t)

/-- R58, the window law: after a legal window and exactly its number of pixels, in any grouping into data transactions, the
window's cells hold the pixels row-major and every other byte of the frame memory is unchanged. -/
def Obligations.WindowLaw : Prop :=
  ∀ (x1 y1 x2 y2 : Nat) (groups : List (List U16)) (s : State), Accepting s →
    x1 ≤ x2 → x2 < 240 → y1 ≤ y2 → y2 < 240 →
    groups.flatten.length = (x2 - x1 + 1) * (y2 - y1 + 1) →
    ∃ t, t = emitAll (windowEvents x1 y1 x2 y2 ++
        groups.flatMap (fun g => txnEvents .data (g.flatMap fun p => [p.extractLsb' 8 8, p.extractLsb' 0 8]))) s ∧
      (∀ k, k < groups.flatten.length →
        gramCell t.panel.gram (x1 + k % (x2 - x1 + 1)) (y1 + k / (x2 - x1 + 1)) = groups.flatten[k]?) ∧
      (∀ a, (∀ c r, x1 ≤ c → c ≤ x2 → y1 ≤ r → r ≤ y2 → a ≠ cellAddr c r ∧ a ≠ cellAddr c r + 1) →
        gramRead t.panel.gram a = gramRead s.panel.gram a)

/-- R59, the full-fill law: after a FILL with ready = true, or a FILL_RAW, every cell holds the quantized colour, no byte
outside the frame memory changed, and the pointer has passed the window. -/
def Obligations.FullFillLaw : Prop :=
  ∀ (r g b : Byte) (s : State) (i : Instr), Accepting s →
    (i = .fill r g b ∧ s.busy = false ∧ s.ready = true) ∨ i = .fillRaw r g b →
    ∃ t, exec i s = .next t ∧
      (∀ col row, col < 240 → row < 240 → gramCell t.panel.gram col row = some (quantizeColor r g b)) ∧
      (∀ a, 115200 ≤ a → gramRead t.panel.gram a = gramRead s.panel.gram a) ∧
      t.panel.wc = 0 ∧ t.panel.wr = 240 ∧ Accepting t

/-- R60, the pixel law: an accepted DRAW_PIXEL writes exactly the two bytes of its cell; a rejected one leaves every panel
field as it was. -/
def Obligations.PixelLaw : Prop :=
  ∀ (x y : Coord) (r g b : Byte) (s : State), s.busy = false →
    ∃ t, exec (.drawPixel x y r g b) s = .next t ∧
      if s.ready = true ∧ 0 ≤ x.toInt ∧ x.toInt < 240 ∧ 0 ≤ y.toInt ∧ y.toInt < 240 then
        Accepting s →
        gramCell t.panel.gram x.toInt.toNat y.toInt.toNat = some (quantizeColor r g b) ∧
        (∀ a, a ≠ cellAddr x.toInt.toNat y.toInt.toNat → a ≠ cellAddr x.toInt.toNat y.toInt.toNat + 1 →
          gramRead t.panel.gram a = gramRead s.panel.gram a) ∧ Accepting t
      else t.panel = s.panel

/-- R39: two fills of one colour emit identical events, and the second leaves every byte of the frame memory as the first
did. -/
def Obligations.FillIsIdempotent : Prop :=
  ∀ (r g b : Byte) (s : State), s.busy = false → s.ready = true → Accepting s →
    ∃ t u es, exec (.fill r g b) s = .next t ∧ exec (.fill r g b) t = .next u ∧
      Emits s t es ∧ Emits t u es ∧ GramSame t u

/-! Reset and step (R113, R141, R142). -/

/-- R141: the reset values the spec gives, for every configuration; dc, mosi and the panel are left out, since it gives them
none (log 2, 3, 4). -/
def Obligations.ResetValues : Prop :=
  ∀ c : Config,
    let s := State.resetWith c
    s.cfg = c ∧ s.ready = false ∧ s.setupDone = false ∧ s.busy = false ∧ s.diagCount = 0 ∧ s.seqPc = 0 ∧
    s.cs = .deasserted ∧ s.rst = .inactive ∧ s.bl = .off ∧ s.sclk = .low ∧ s.trace = [] ∧ s.returns = []

/-- R10, R26: the electrical level of each pin follows its signal: mode-select is low for CMD and high for DATA; select and
reset stand at the configured active level exactly while asserted and active; an absent reset or backlight pin has none. -/
def Obligations.PinsFollowTheirSignals : Prop :=
  ∀ s : State,
    dcPin s = (if s.dc = .cmd then .low else .high) ∧
    (csPin s = s.cfg.csActiveLevel ↔ s.cs = .asserted) ∧
    (s.cfg.hasRst = true → (rstPin s = some s.cfg.rstActiveLevel ↔ s.rst = .active)) ∧
    (s.cfg.hasRst = false → rstPin s = none) ∧
    blPin s = (if s.cfg.hasBl = true then some s.bl else none)

/-- R142: with no request the block does nothing; a run is over when none is left and busy is false (R123). -/
def Obligations.NothingHappensWithoutARequest : Prop :=
  ∀ s : State, wfInit s.cfg = true → s.pending = [] →
    step s = .next s ∧ (finished s = true ↔ s.busy = false)

/-- A step runs the decoded instruction: the next request is taken from the queue and its instruction executed on the state
without it; a request that is no instruction is refused by name; and a word placed by withFetchWord is the next to run
(the queue and the container are the model's own, log 15, 16). -/
def Obligations.StepRunsTheDecodedInstruction : Prop :=
  (∀ (s : State) (r : Request) (rest : List Request) (i : Instr), wfInit s.cfg = true → s.pending = r :: rest →
    decode r = .ok i → step s = exec i { s with pending := rest }) ∧
  (∀ (s : State) (r : Request) (rest : List Request) (e : DecodeError), wfInit s.cfg = true → s.pending = r :: rest →
    decode r = .error e → step s = .refused (.undecodable e)) ∧
  (∀ (s : State) (nbits w : Nat) (i : Instr), wfInit s.cfg = true → decodeTableWord nbits w = some i →
    step (s.withFetchWord nbits w) = exec i s)

/-! Whole-machine rules. -/

/-- The invariant of every run, and the one of a run of host operations, hold after reset, in every configuration (they rest
on the model's reset value of the settle time, log 9, and not on its dc, mosi or panel registers). -/
def Obligations.InvariantsHoldAtReset : Prop :=
  ∀ c : Config, Inv (State.resetWith c) ∧ HostInv (State.resetWith c)

/-- Every step keeps the invariant of every run: whole transactions and signals at rest (R88, R26), the frame memory in
canonical form, seq_pc inside the table (R20), READY only after a setup (R21), no operation under way (R130). -/
def Obligations.StepKeepsTheInvariant : Prop :=
  ∀ s t : State, Inv s → step s = .next t → Inv t

/-- Every step of a run of host operations keeps every settle delay (R95, R148), leaves the controller accepting (R57, with the
settle time of log 9), and gives every command exactly its data (R68, R150): a window command two 16-bit values, 0x2C the
window's pixels, any other command the payload of a step of the table with its opcode, each byte in its own transaction. -/
def Obligations.StepKeepsTheHostInvariant : Prop :=
  ∀ s t : State, HostInv s → step s = .next t → HostInv t

/-- A run of host operations stops in one way only: a second SETUP; with a well-formed table every other step runs. -/
def Obligations.HostRunsStopOnlyOnASecondSetup : Prop :=
  ∀ s : State, HostInv s → wfInit s.cfg = true →
    Runs s ∨ (step s = .fault .setupRepeated ∧ s.setupDone = true ∧ s.pending.head? = some (.host .setup))

/-- R88 in its five clauses, at every event of the trace of every state that meets the invariant of every run: no DC and no
WAIT, RST or BL event while select is asserted; CS events alternate, ASSERTED first; every byte comes while select is
asserted, in a transaction whose mode-select was set just before, with nothing but bytes since. -/
def Obligations.TracesMeetTheSignalRules : Prop :=
  ∀ (s : State) (before after : List BusEvent) (e : BusEvent), Inv s → s.trace = before ++ e :: after →
    (∀ l, e = .dc l → csAfter .deasserted before = .deasserted) ∧
    (∀ b, e = .byte b → csAfter .deasserted before = .asserted ∧
      ∃ (p : List BusEvent) (k : Mode) (bs : List Byte),
        before = p ++ [.dc k, .cs .asserted] ++ bs.map .byte ∧ ∀ l, dcAfter l before = k) ∧
    (e = .cs .asserted → csAfter .deasserted before = .deasserted) ∧
    (e = .cs .deasserted → csAfter .deasserted before = .asserted) ∧
    (∀ d, e = .wait d → csAfter .deasserted before = .deasserted) ∧
    (∀ a, e = .rst a → csAfter .deasserted before = .deasserted) ∧
    (e = .blHigh → csAfter .deasserted before = .deasserted)

/-- R38, R42: an instruction only appends to the trace, and what it appends is whole transactions. -/
def Obligations.TraceOnlyGrowsByWholeTransactions : Prop :=
  ∀ (i : Instr) (s t : State), exec i s = .next t → ∃ es, Emits s t es ∧ framed es = true

/-- R21 to R24, R28, R29: no instruction writes the configuration; busy after it is as before; ready and setup_done are written by SETUP alone and
never fall; diag_count is written by UPDATE alone; seq_pc by RUN_INIT and SETUP alone; each query appends one returned value,
and no other instruction touches the returned values. Of the model's own fields, quantOut is written by QUANTIZE alone (log 19)
and no instruction touches the requests to come (log 15). -/
def Obligations.WhoWritesTheStatusFields : Prop :=
  ∀ (i : Instr) (s t : State), exec i s = .next t →
    t.cfg = s.cfg ∧ t.pending = s.pending ∧ t.busy = s.busy ∧
    (s.ready = true → t.ready = true) ∧ (s.setupDone = true → t.setupDone = true) ∧
    (i ≠ .setup → t.ready = s.ready ∧ t.setupDone = s.setupDone) ∧
    (i ≠ .update → t.diagCount = s.diagCount) ∧
    (i ≠ .runInit → i ≠ .setup → t.seqPc = s.seqPc) ∧
    (i ∈ ([.getWidth, .getHeight, .getIsColor, .getDiagCount] : List Instr) → ∃ v, t.returns = s.returns ++ [v]) ∧
    (i ∉ ([.getWidth, .getHeight, .getIsColor, .getDiagCount] : List Instr) → t.returns = s.returns) ∧
    ((∀ r g b, i ≠ .quantize r g b) → t.quantOut = s.quantOut)

/-- R37, R128: the bus is write-only: two states that differ only in the panel, in mosi and in the free values still to come
stop alike or go on to states that differ only in those. -/
def Obligations.BlockNeverReadsThePanel : Prop :=
  ∀ (i : Instr) (s : State) (p : Panel) (m : Level) (k : Nat),
    match exec i s, exec i { s with panel := p, mosi := m, freeTick := k } with
    | .next t, .next u => u = { t with panel := u.panel, mosi := u.mosi, freeTick := u.freeTick }
    | .fault e, .fault f => e = f
    | .refused e, .refused f => e = f
    | _, _ => False
end

