-- ==== Sys2Proof/Laws/Memory.lean ====
section
/-! SUPPORT. The frame memory: reading after writing, and every operation keeps the canonical form. -/

namespace Sys2Proof.Machine

@[simp] theorem gramRead_nil (a : Nat) : gramRead [] a = none := rfl

/-- A byte written is the byte read back, and every other address reads as before. -/
theorem gramRead_gramWrite (m : List Host.Cell) (a b : Nat) (v : Byte) :
    gramRead (gramWrite m a v) b = if b = a then some v else gramRead m b := by
  induction m with
  | nil => simp [gramWrite, gramRead]
  | cons x m ih =>
    obtain ⟨k, w⟩ := x
    simp only [gramWrite]
    split
    · simp [gramRead]
    · split
      · subst_vars; simp only [gramRead]; split <;> simp_all
      · simp only [gramRead, ih]; split <;> split <;> simp_all

@[simp] theorem gramRead_gramWrite_same (m : List Host.Cell) (a : Nat) (v : Byte) :
    gramRead (gramWrite m a v) a = some v := by
  simp [gramRead_gramWrite]

theorem gramRead_gramWrite_other {a b : Nat} (m : List Host.Cell) (v : Byte) (h : b ≠ a) :
    gramRead (gramWrite m a v) b = gramRead m b := by
  simp [gramRead_gramWrite, h]

theorem mem_gramWrite {m : List Host.Cell} {a : Nat} {v : Byte} {x : Host.Cell} (h : x ∈ gramWrite m a v) :
    x = (a, v) ∨ x ∈ m := by
  induction m with
  | nil => simpa [gramWrite] using h
  | cons y m ih =>
    obtain ⟨k, w⟩ := y
    simp only [gramWrite] at h
    split at h
    · simpa using h
    · split at h
      · simp only [List.mem_cons] at h ⊢; tauto
      · simp only [List.mem_cons] at h ⊢
        rcases h with h | h
        · exact .inr (.inl h)
        · rcases ih h with h | h <;> tauto

/-- Writing inside the frame memory keeps the canonical form. -/
theorem gramWf_gramWrite {m : List Host.Cell} {a : Nat} {v : Byte} (h : gramWf m) (ha : a < gramBytes) :
    gramWf (gramWrite m a v) := by
  refine ⟨?_, fun x hx => ?_⟩
  · obtain ⟨h, -⟩ := h
    induction m with
    | nil => simp [gramWrite]
    | cons y m ih =>
      obtain ⟨k, w⟩ := y
      rw [List.pairwise_cons] at h
      simp only [gramWrite]
      split
      · rename_i hk
        refine List.pairwise_cons.2 ⟨fun x hx => ?_, List.pairwise_cons.2 h⟩
        rcases List.mem_cons.1 hx with rfl | hx
        · exact hk
        · exact lt_trans hk (h.1 x hx)
      · split
        · subst_vars; exact List.pairwise_cons.2 ⟨fun x hx => h.1 x hx, h.2⟩
        · refine List.pairwise_cons.2 ⟨fun x hx => ?_, ih h.2⟩
          rcases mem_gramWrite hx with rfl | hx
          · show k < a; omega
          · exact h.1 x hx
  · rcases mem_gramWrite hx with rfl | hx
    · exact ha
    · exact h.2 x hx

theorem gramWf_nil : gramWf [] := ⟨List.Pairwise.nil, by simp⟩

/-- Writing a cell inside the frame memory keeps the canonical form. -/
theorem gramWf_gramWrite16 {m : List Host.Cell} {a : Nat} {v : U16} (h : gramWf m) (ha : a + 1 < gramBytes) :
    gramWf (gramWrite16 m a v) :=
  gramWf_gramWrite (gramWf_gramWrite h (by omega)) ha

/-- A cell written changes its two bytes and nothing else (R34). -/
theorem gramRead_gramWrite16 (m : List Host.Cell) (a b : Nat) (v : U16) :
    gramRead (gramWrite16 m a v) b =
      if b = a then some (hi8 v) else if b = a + 1 then some (lo8 v) else gramRead m b := by
  simp only [gramWrite16, gramRead_gramWrite]
  split <;> split <;> simp_all

/-- A cell of the frame memory lies inside it. -/
theorem cellAddr_lt {c r : Nat} (hc : c < 240) (hr : r < 240) : cellAddr c r + 1 < gramBytes := by
  simp only [cellAddr, gramBytes]; omega

/-- Two cells of the frame memory have the same address only if they are the same cell. -/
theorem cellAddr_inj {c r c' r' : Nat} (hc : c < 240) (hc' : c' < 240) :
    cellAddr c r = cellAddr c' r' ↔ c = c' ∧ r = r' := by
  simp only [cellAddr]; omega

@[simp] theorem joinBytes_hi8_lo8 (v : U16) : joinBytes (hi8 v) (lo8 v) = v := by
  apply BitVec.eq_of_getLsbD_eq
  intro i hi
  simp only [joinBytes, hi8, lo8, BitVec.getLsbD_append, BitVec.getLsbD_extractLsb']
  by_cases h : i < 8
  · simp [h]
  · have h1 : i - 8 < 8 := by omega
    have h2 : 8 + (i - 8) = i := by omega
    simp [h, h1, h2]

@[simp] theorem hi8_joinBytes (h l : Byte) : hi8 (joinBytes h l) = h := by
  ext i hi
  simp only [joinBytes, hi8, BitVec.getElem_extractLsb', BitVec.getLsbD_append]
  rw [if_neg (by omega)]
  simp [BitVec.getLsbD_eq_getElem, hi]

@[simp] theorem lo8_joinBytes (h l : Byte) : lo8 (joinBytes h l) = l := by
  ext i hi
  simp only [joinBytes, lo8, BitVec.getElem_extractLsb', BitVec.getLsbD_append]
  rw [if_pos (by omega)]
  simp [BitVec.getLsbD_eq_getElem, hi]

/-- After a cell is written it reads as its value, and every other cell reads as before (R51). -/
theorem gramCell_gramWrite16 (m : List Host.Cell) (v : U16) {c r c' r' : Nat} (hc : c < 240) (hc' : c' < 240) :
    gramCell (gramWrite16 m (cellAddr c r) v) c' r' =
      if c' = c ∧ r' = r then some v else gramCell m c' r' := by
  simp only [gramCell, gramRead_gramWrite16]
  by_cases h : c' = c ∧ r' = r
  · obtain ⟨rfl, rfl⟩ := h; simp
  · have h1 : cellAddr c' r' ≠ cellAddr c r := fun e => h ((cellAddr_inj hc' hc).1 e)
    have h2 : cellAddr c' r' ≠ cellAddr c r + 1 := by simp only [cellAddr]; omega
    have h3 : cellAddr c' r' + 1 ≠ cellAddr c r := by simp only [cellAddr]; omega
    have h4 : cellAddr c' r' + 1 ≠ cellAddr c r + 1 := by omega
    simp [h, h1, h2, h3]

end Sys2Proof.Machine
end

