-- ==== Sys2Proof/Laws/State.lean ====
section
/-! SUPPORT. What every update of the state leaves in every field, each true by rfl on the
parts of the state. None is stated as a definitional unfolding, so that rewriting with it never asks the kernel to evaluate a
long run. -/

namespace Sys2Proof.Machine

/-! Fields after the flag ready (markReady). -/

@[simp] theorem markReady_cfg (s : State) : (markReady s).cfg = s.cfg := by cases s; rfl
@[simp] theorem markReady_ready (s : State) : (markReady s).ready = true := by cases s; rfl
@[simp] theorem markReady_setupDone (s : State) : (markReady s).setupDone = s.setupDone := by cases s; rfl
@[simp] theorem markReady_busy (s : State) : (markReady s).busy = s.busy := by cases s; rfl
@[simp] theorem markReady_diagCount (s : State) : (markReady s).diagCount = s.diagCount := by cases s; rfl
@[simp] theorem markReady_seqPc (s : State) : (markReady s).seqPc = s.seqPc := by cases s; rfl
@[simp] theorem markReady_dc (s : State) : (markReady s).dc = s.dc := by cases s; rfl
@[simp] theorem markReady_cs (s : State) : (markReady s).cs = s.cs := by cases s; rfl
@[simp] theorem markReady_rst (s : State) : (markReady s).rst = s.rst := by cases s; rfl
@[simp] theorem markReady_bl (s : State) : (markReady s).bl = s.bl := by cases s; rfl
@[simp] theorem markReady_sclk (s : State) : (markReady s).sclk = s.sclk := by cases s; rfl
@[simp] theorem markReady_mosi (s : State) : (markReady s).mosi = s.mosi := by cases s; rfl
@[simp] theorem markReady_trace (s : State) : (markReady s).trace = s.trace := by cases s; rfl
@[simp] theorem markReady_returns (s : State) : (markReady s).returns = s.returns := by cases s; rfl
@[simp] theorem markReady_panel (s : State) : (markReady s).panel = s.panel := by cases s; rfl
@[simp] theorem markReady_quantOut (s : State) : (markReady s).quantOut = s.quantOut := by cases s; rfl
@[simp] theorem markReady_pending (s : State) : (markReady s).pending = s.pending := by cases s; rfl
@[simp] theorem markReady_freeTick (s : State) : (markReady s).freeTick = s.freeTick := by cases s; rfl

/-! Fields after the flag setup_done (markSetupDone). -/

@[simp] theorem markSetupDone_cfg (s : State) : (markSetupDone s).cfg = s.cfg := by cases s; rfl
@[simp] theorem markSetupDone_ready (s : State) : (markSetupDone s).ready = s.ready := by cases s; rfl
@[simp] theorem markSetupDone_setupDone (s : State) : (markSetupDone s).setupDone = true := by cases s; rfl
@[simp] theorem markSetupDone_busy (s : State) : (markSetupDone s).busy = s.busy := by cases s; rfl
@[simp] theorem markSetupDone_diagCount (s : State) : (markSetupDone s).diagCount = s.diagCount := by cases s; rfl
@[simp] theorem markSetupDone_seqPc (s : State) : (markSetupDone s).seqPc = s.seqPc := by cases s; rfl
@[simp] theorem markSetupDone_dc (s : State) : (markSetupDone s).dc = s.dc := by cases s; rfl
@[simp] theorem markSetupDone_cs (s : State) : (markSetupDone s).cs = s.cs := by cases s; rfl
@[simp] theorem markSetupDone_rst (s : State) : (markSetupDone s).rst = s.rst := by cases s; rfl
@[simp] theorem markSetupDone_bl (s : State) : (markSetupDone s).bl = s.bl := by cases s; rfl
@[simp] theorem markSetupDone_sclk (s : State) : (markSetupDone s).sclk = s.sclk := by cases s; rfl
@[simp] theorem markSetupDone_mosi (s : State) : (markSetupDone s).mosi = s.mosi := by cases s; rfl
@[simp] theorem markSetupDone_trace (s : State) : (markSetupDone s).trace = s.trace := by cases s; rfl
@[simp] theorem markSetupDone_returns (s : State) : (markSetupDone s).returns = s.returns := by cases s; rfl
@[simp] theorem markSetupDone_panel (s : State) : (markSetupDone s).panel = s.panel := by cases s; rfl
@[simp] theorem markSetupDone_quantOut (s : State) : (markSetupDone s).quantOut = s.quantOut := by cases s; rfl
@[simp] theorem markSetupDone_pending (s : State) : (markSetupDone s).pending = s.pending := by cases s; rfl
@[simp] theorem markSetupDone_freeTick (s : State) : (markSetupDone s).freeTick = s.freeTick := by cases s; rfl

/-! Fields after the start of an operation (beginOp). -/

@[simp] theorem beginOp_cfg (s : State) : (beginOp s).cfg = s.cfg := by cases s; rfl
@[simp] theorem beginOp_ready (s : State) : (beginOp s).ready = s.ready := by cases s; rfl
@[simp] theorem beginOp_setupDone (s : State) : (beginOp s).setupDone = s.setupDone := by cases s; rfl
@[simp] theorem beginOp_busy (s : State) : (beginOp s).busy = true := by cases s; rfl
@[simp] theorem beginOp_diagCount (s : State) : (beginOp s).diagCount = s.diagCount := by cases s; rfl
@[simp] theorem beginOp_seqPc (s : State) : (beginOp s).seqPc = s.seqPc := by cases s; rfl
@[simp] theorem beginOp_dc (s : State) : (beginOp s).dc = s.dc := by cases s; rfl
@[simp] theorem beginOp_cs (s : State) : (beginOp s).cs = s.cs := by cases s; rfl
@[simp] theorem beginOp_rst (s : State) : (beginOp s).rst = s.rst := by cases s; rfl
@[simp] theorem beginOp_bl (s : State) : (beginOp s).bl = s.bl := by cases s; rfl
@[simp] theorem beginOp_sclk (s : State) : (beginOp s).sclk = s.sclk := by cases s; rfl
@[simp] theorem beginOp_mosi (s : State) : (beginOp s).mosi = s.mosi := by cases s; rfl
@[simp] theorem beginOp_trace (s : State) : (beginOp s).trace = s.trace := by cases s; rfl
@[simp] theorem beginOp_returns (s : State) : (beginOp s).returns = s.returns := by cases s; rfl
@[simp] theorem beginOp_panel (s : State) : (beginOp s).panel = s.panel := by cases s; rfl
@[simp] theorem beginOp_quantOut (s : State) : (beginOp s).quantOut = s.quantOut := by cases s; rfl
@[simp] theorem beginOp_pending (s : State) : (beginOp s).pending = s.pending := by cases s; rfl
@[simp] theorem beginOp_freeTick (s : State) : (beginOp s).freeTick = s.freeTick := by cases s; rfl

/-! Fields after the end of an operation (endOp). -/

@[simp] theorem endOp_cfg (s : State) : (endOp s).cfg = s.cfg := by cases s; rfl
@[simp] theorem endOp_ready (s : State) : (endOp s).ready = s.ready := by cases s; rfl
@[simp] theorem endOp_setupDone (s : State) : (endOp s).setupDone = s.setupDone := by cases s; rfl
@[simp] theorem endOp_busy (s : State) : (endOp s).busy = false := by cases s; rfl
@[simp] theorem endOp_diagCount (s : State) : (endOp s).diagCount = s.diagCount := by cases s; rfl
@[simp] theorem endOp_seqPc (s : State) : (endOp s).seqPc = s.seqPc := by cases s; rfl
@[simp] theorem endOp_dc (s : State) : (endOp s).dc = s.dc := by cases s; rfl
@[simp] theorem endOp_cs (s : State) : (endOp s).cs = s.cs := by cases s; rfl
@[simp] theorem endOp_rst (s : State) : (endOp s).rst = s.rst := by cases s; rfl
@[simp] theorem endOp_bl (s : State) : (endOp s).bl = s.bl := by cases s; rfl
@[simp] theorem endOp_sclk (s : State) : (endOp s).sclk = s.sclk := by cases s; rfl
@[simp] theorem endOp_mosi (s : State) : (endOp s).mosi = s.mosi := by cases s; rfl
@[simp] theorem endOp_trace (s : State) : (endOp s).trace = s.trace := by cases s; rfl
@[simp] theorem endOp_returns (s : State) : (endOp s).returns = s.returns := by cases s; rfl
@[simp] theorem endOp_panel (s : State) : (endOp s).panel = s.panel := by cases s; rfl
@[simp] theorem endOp_quantOut (s : State) : (endOp s).quantOut = s.quantOut := by cases s; rfl
@[simp] theorem endOp_pending (s : State) : (endOp s).pending = s.pending := by cases s; rfl
@[simp] theorem endOp_freeTick (s : State) : (endOp s).freeTick = s.freeTick := by cases s; rfl

/-! Fields after the counter (countTick). -/

@[simp] theorem countTick_cfg (s : State) : (countTick s).cfg = s.cfg := by cases s; rfl
@[simp] theorem countTick_ready (s : State) : (countTick s).ready = s.ready := by cases s; rfl
@[simp] theorem countTick_setupDone (s : State) : (countTick s).setupDone = s.setupDone := by cases s; rfl
@[simp] theorem countTick_busy (s : State) : (countTick s).busy = s.busy := by cases s; rfl
@[simp] theorem countTick_diagCount (s : State) : (countTick s).diagCount = s.diagCount + 1 := by cases s; rfl
@[simp] theorem countTick_seqPc (s : State) : (countTick s).seqPc = s.seqPc := by cases s; rfl
@[simp] theorem countTick_dc (s : State) : (countTick s).dc = s.dc := by cases s; rfl
@[simp] theorem countTick_cs (s : State) : (countTick s).cs = s.cs := by cases s; rfl
@[simp] theorem countTick_rst (s : State) : (countTick s).rst = s.rst := by cases s; rfl
@[simp] theorem countTick_bl (s : State) : (countTick s).bl = s.bl := by cases s; rfl
@[simp] theorem countTick_sclk (s : State) : (countTick s).sclk = s.sclk := by cases s; rfl
@[simp] theorem countTick_mosi (s : State) : (countTick s).mosi = s.mosi := by cases s; rfl
@[simp] theorem countTick_trace (s : State) : (countTick s).trace = s.trace := by cases s; rfl
@[simp] theorem countTick_returns (s : State) : (countTick s).returns = s.returns := by cases s; rfl
@[simp] theorem countTick_panel (s : State) : (countTick s).panel = s.panel := by cases s; rfl
@[simp] theorem countTick_quantOut (s : State) : (countTick s).quantOut = s.quantOut := by cases s; rfl
@[simp] theorem countTick_pending (s : State) : (countTick s).pending = s.pending := by cases s; rfl
@[simp] theorem countTick_freeTick (s : State) : (countTick s).freeTick = s.freeTick := by cases s; rfl

/-! Fields after a returned value (returnValue). -/

@[simp] theorem returnValue_cfg (v : RetVal) (s : State) : (returnValue v s).cfg = s.cfg := by cases s; rfl
@[simp] theorem returnValue_ready (v : RetVal) (s : State) : (returnValue v s).ready = s.ready := by cases s; rfl
@[simp] theorem returnValue_setupDone (v : RetVal) (s : State) : (returnValue v s).setupDone = s.setupDone := by cases s; rfl
@[simp] theorem returnValue_busy (v : RetVal) (s : State) : (returnValue v s).busy = s.busy := by cases s; rfl
@[simp] theorem returnValue_diagCount (v : RetVal) (s : State) : (returnValue v s).diagCount = s.diagCount := by cases s; rfl
@[simp] theorem returnValue_seqPc (v : RetVal) (s : State) : (returnValue v s).seqPc = s.seqPc := by cases s; rfl
@[simp] theorem returnValue_dc (v : RetVal) (s : State) : (returnValue v s).dc = s.dc := by cases s; rfl
@[simp] theorem returnValue_cs (v : RetVal) (s : State) : (returnValue v s).cs = s.cs := by cases s; rfl
@[simp] theorem returnValue_rst (v : RetVal) (s : State) : (returnValue v s).rst = s.rst := by cases s; rfl
@[simp] theorem returnValue_bl (v : RetVal) (s : State) : (returnValue v s).bl = s.bl := by cases s; rfl
@[simp] theorem returnValue_sclk (v : RetVal) (s : State) : (returnValue v s).sclk = s.sclk := by cases s; rfl
@[simp] theorem returnValue_mosi (v : RetVal) (s : State) : (returnValue v s).mosi = s.mosi := by cases s; rfl
@[simp] theorem returnValue_trace (v : RetVal) (s : State) : (returnValue v s).trace = s.trace := by cases s; rfl
@[simp] theorem returnValue_returns (v : RetVal) (s : State) : (returnValue v s).returns = s.returns ++ [v] := by cases s; rfl
@[simp] theorem returnValue_panel (v : RetVal) (s : State) : (returnValue v s).panel = s.panel := by cases s; rfl
@[simp] theorem returnValue_quantOut (v : RetVal) (s : State) : (returnValue v s).quantOut = s.quantOut := by cases s; rfl
@[simp] theorem returnValue_pending (v : RetVal) (s : State) : (returnValue v s).pending = s.pending := by cases s; rfl
@[simp] theorem returnValue_freeTick (v : RetVal) (s : State) : (returnValue v s).freeTick = s.freeTick := by cases s; rfl

/-! What serializing and delivering a byte leaves. -/

/-- The waveform of a byte ends with the clock low, whatever its bits (R80). -/
@[simp] theorem linesAfter_byteWaveform_sclk (p : ClockPhase) (b : Byte) :
    (linesAfter p (byteWaveform b)).sclk = .low := rfl

/-- A byte leaves the clock low and mosi free (R26, R80). -/
theorem shiftByte_eq (b : Byte) (s : State) :
    shiftByte b s = { s with sclk := .low, mosi := Config.freeLevel s.freeTick, freeTick := s.freeTick + 1 } := rfl

@[simp] theorem deliverByte_cfg (b : Byte) (s : State) : (deliverByte b s).cfg = s.cfg := by
  unfold deliverByte; split <;> rfl
@[simp] theorem deliverByte_ready (b : Byte) (s : State) : (deliverByte b s).ready = s.ready := by
  unfold deliverByte; split <;> rfl
@[simp] theorem deliverByte_setupDone (b : Byte) (s : State) : (deliverByte b s).setupDone = s.setupDone := by
  unfold deliverByte; split <;> rfl
@[simp] theorem deliverByte_busy (b : Byte) (s : State) : (deliverByte b s).busy = s.busy := by
  unfold deliverByte; split <;> rfl
@[simp] theorem deliverByte_diagCount (b : Byte) (s : State) : (deliverByte b s).diagCount = s.diagCount := by
  unfold deliverByte; split <;> rfl
@[simp] theorem deliverByte_seqPc (b : Byte) (s : State) : (deliverByte b s).seqPc = s.seqPc := by
  unfold deliverByte; split <;> rfl
@[simp] theorem deliverByte_dc (b : Byte) (s : State) : (deliverByte b s).dc = s.dc := by
  unfold deliverByte; split <;> rfl
@[simp] theorem deliverByte_cs (b : Byte) (s : State) : (deliverByte b s).cs = s.cs := by
  unfold deliverByte; split <;> rfl
@[simp] theorem deliverByte_rst (b : Byte) (s : State) : (deliverByte b s).rst = s.rst := by
  unfold deliverByte; split <;> rfl
@[simp] theorem deliverByte_bl (b : Byte) (s : State) : (deliverByte b s).bl = s.bl := by
  unfold deliverByte; split <;> rfl
@[simp] theorem deliverByte_sclk (b : Byte) (s : State) : (deliverByte b s).sclk = s.sclk := by
  unfold deliverByte; split <;> rfl
@[simp] theorem deliverByte_mosi (b : Byte) (s : State) : (deliverByte b s).mosi = s.mosi := by
  unfold deliverByte; split <;> rfl
@[simp] theorem deliverByte_trace (b : Byte) (s : State) : (deliverByte b s).trace = s.trace := by
  unfold deliverByte; split <;> rfl
@[simp] theorem deliverByte_returns (b : Byte) (s : State) : (deliverByte b s).returns = s.returns := by
  unfold deliverByte; split <;> rfl
@[simp] theorem deliverByte_quantOut (b : Byte) (s : State) : (deliverByte b s).quantOut = s.quantOut := by
  unfold deliverByte; split <;> rfl
@[simp] theorem deliverByte_pending (b : Byte) (s : State) : (deliverByte b s).pending = s.pending := by
  unfold deliverByte; split <;> rfl
@[simp] theorem deliverByte_freeTick (b : Byte) (s : State) : (deliverByte b s).freeTick = s.freeTick := by
  unfold deliverByte; split <;> rfl

/-- While select is asserted the panel receives the byte; otherwise nothing does (R49). -/
theorem deliverByte_panel (b : Byte) (s : State) :
    (deliverByte b s).panel = if s.cs = .asserted then panelReceive s.freeTick s.rst s.dc b s.panel else s.panel := by
  unfold deliverByte; cases h : s.cs <;> simp

/-! What one event leaves (R26). -/

@[simp] theorem emit_cfg (e : BusEvent) (s : State) : (emit e s).cfg = s.cfg := by
  cases e <;> simp [emit, applyEvent, shiftByte_eq]
@[simp] theorem emit_ready (e : BusEvent) (s : State) : (emit e s).ready = s.ready := by
  cases e <;> simp [emit, applyEvent, shiftByte_eq]
@[simp] theorem emit_setupDone (e : BusEvent) (s : State) : (emit e s).setupDone = s.setupDone := by
  cases e <;> simp [emit, applyEvent, shiftByte_eq]
@[simp] theorem emit_busy (e : BusEvent) (s : State) : (emit e s).busy = s.busy := by
  cases e <;> simp [emit, applyEvent, shiftByte_eq]
@[simp] theorem emit_diagCount (e : BusEvent) (s : State) : (emit e s).diagCount = s.diagCount := by
  cases e <;> simp [emit, applyEvent, shiftByte_eq]
@[simp] theorem emit_seqPc (e : BusEvent) (s : State) : (emit e s).seqPc = s.seqPc := by
  cases e <;> simp [emit, applyEvent, shiftByte_eq]
@[simp] theorem emit_returns (e : BusEvent) (s : State) : (emit e s).returns = s.returns := by
  cases e <;> simp [emit, applyEvent, shiftByte_eq]
@[simp] theorem emit_quantOut (e : BusEvent) (s : State) : (emit e s).quantOut = s.quantOut := by
  cases e <;> simp [emit, applyEvent, shiftByte_eq]
@[simp] theorem emit_pending (e : BusEvent) (s : State) : (emit e s).pending = s.pending := by
  cases e <;> simp [emit, applyEvent, shiftByte_eq]

@[simp] theorem emit_trace (e : BusEvent) (s : State) : (emit e s).trace = s.trace ++ [e] := by
  cases e <;> simp [emit, applyEvent, shiftByte_eq]

@[simp] theorem emit_dc_dc (l : Mode) (s : State) : (emit (.dc l) s).dc = l := by cases s; rfl
@[simp] theorem emit_dc_cs (l : Mode) (s : State) : (emit (.dc l) s).cs = s.cs := by cases s; rfl
@[simp] theorem emit_dc_rst (l : Mode) (s : State) : (emit (.dc l) s).rst = s.rst := by cases s; rfl
@[simp] theorem emit_dc_bl (l : Mode) (s : State) : (emit (.dc l) s).bl = s.bl := by cases s; rfl
@[simp] theorem emit_dc_sclk (l : Mode) (s : State) : (emit (.dc l) s).sclk = s.sclk := by cases s; rfl
@[simp] theorem emit_dc_mosi (l : Mode) (s : State) : (emit (.dc l) s).mosi = s.mosi := by cases s; rfl
@[simp] theorem emit_dc_panel (l : Mode) (s : State) : (emit (.dc l) s).panel = s.panel := by cases s; rfl
@[simp] theorem emit_dc_freeTick (l : Mode) (s : State) : (emit (.dc l) s).freeTick = s.freeTick := by cases s; rfl

@[simp] theorem emit_cs_dc (v : Select) (s : State) : (emit (.cs v) s).dc = s.dc := by cases s; rfl
@[simp] theorem emit_cs_cs (v : Select) (s : State) : (emit (.cs v) s).cs = v := by cases s; rfl
@[simp] theorem emit_cs_rst (v : Select) (s : State) : (emit (.cs v) s).rst = s.rst := by cases s; rfl
@[simp] theorem emit_cs_bl (v : Select) (s : State) : (emit (.cs v) s).bl = s.bl := by cases s; rfl
@[simp] theorem emit_cs_sclk (v : Select) (s : State) : (emit (.cs v) s).sclk = s.sclk := by cases s; rfl
@[simp] theorem emit_cs_mosi (v : Select) (s : State) : (emit (.cs v) s).mosi = s.mosi := by cases s; rfl
@[simp] theorem emit_cs_panel (v : Select) (s : State) : (emit (.cs v) s).panel = s.panel := by cases s; rfl
@[simp] theorem emit_cs_freeTick (v : Select) (s : State) : (emit (.cs v) s).freeTick = s.freeTick := by cases s; rfl

@[simp] theorem emit_wait_dc (d : Nat) (s : State) : (emit (.wait d) s).dc = s.dc := by cases s; rfl
@[simp] theorem emit_wait_cs (d : Nat) (s : State) : (emit (.wait d) s).cs = s.cs := by cases s; rfl
@[simp] theorem emit_wait_rst (d : Nat) (s : State) : (emit (.wait d) s).rst = s.rst := by cases s; rfl
@[simp] theorem emit_wait_bl (d : Nat) (s : State) : (emit (.wait d) s).bl = s.bl := by cases s; rfl
@[simp] theorem emit_wait_sclk (d : Nat) (s : State) : (emit (.wait d) s).sclk = s.sclk := by cases s; rfl
@[simp] theorem emit_wait_mosi (d : Nat) (s : State) : (emit (.wait d) s).mosi = s.mosi := by cases s; rfl
@[simp] theorem emit_wait_panel (d : Nat) (s : State) : (emit (.wait d) s).panel = panelElapse d s.panel := by cases s; rfl
@[simp] theorem emit_wait_freeTick (d : Nat) (s : State) : (emit (.wait d) s).freeTick = s.freeTick := by cases s; rfl

@[simp] theorem emit_blHigh_dc (s : State) : (emit .blHigh s).dc = s.dc := by cases s; rfl
@[simp] theorem emit_blHigh_cs (s : State) : (emit .blHigh s).cs = s.cs := by cases s; rfl
@[simp] theorem emit_blHigh_rst (s : State) : (emit .blHigh s).rst = s.rst := by cases s; rfl
@[simp] theorem emit_blHigh_bl (s : State) : (emit .blHigh s).bl = .high := by cases s; rfl
@[simp] theorem emit_blHigh_sclk (s : State) : (emit .blHigh s).sclk = s.sclk := by cases s; rfl
@[simp] theorem emit_blHigh_mosi (s : State) : (emit .blHigh s).mosi = s.mosi := by cases s; rfl
@[simp] theorem emit_blHigh_panel (s : State) : (emit .blHigh s).panel = s.panel := by cases s; rfl
@[simp] theorem emit_blHigh_freeTick (s : State) : (emit .blHigh s).freeTick = s.freeTick := by cases s; rfl

@[simp] theorem emit_rst_dc (a : ResetLine) (s : State) : (emit (.rst a) s).dc = s.dc := by cases s; rfl
@[simp] theorem emit_rst_cs (a : ResetLine) (s : State) : (emit (.rst a) s).cs = s.cs := by cases s; rfl
@[simp] theorem emit_rst_rst (a : ResetLine) (s : State) : (emit (.rst a) s).rst = a := by cases s; rfl
@[simp] theorem emit_rst_bl (a : ResetLine) (s : State) : (emit (.rst a) s).bl = s.bl := by cases s; rfl
@[simp] theorem emit_rst_sclk (a : ResetLine) (s : State) : (emit (.rst a) s).sclk = s.sclk := by cases s; rfl
@[simp] theorem emit_rst_mosi (a : ResetLine) (s : State) : (emit (.rst a) s).mosi = s.mosi := by cases s; rfl
@[simp] theorem emit_rst_panel (a : ResetLine) (s : State) : (emit (.rst a) s).panel = panelResetPin s.freeTick s.rst a s.panel := by cases s; rfl
@[simp] theorem emit_rst_freeTick (a : ResetLine) (s : State) : (emit (.rst a) s).freeTick = s.freeTick + 1 := by cases s; rfl

@[simp] theorem emit_byte_dc (b : Byte) (s : State) : (emit (.byte b) s).dc = s.dc := by
  simp [emit, applyEvent, shiftByte_eq]
@[simp] theorem emit_byte_cs (b : Byte) (s : State) : (emit (.byte b) s).cs = s.cs := by
  simp [emit, applyEvent, shiftByte_eq]
@[simp] theorem emit_byte_rst (b : Byte) (s : State) : (emit (.byte b) s).rst = s.rst := by
  simp [emit, applyEvent, shiftByte_eq]
@[simp] theorem emit_byte_bl (b : Byte) (s : State) : (emit (.byte b) s).bl = s.bl := by
  simp [emit, applyEvent, shiftByte_eq]
@[simp] theorem emit_byte_sclk (b : Byte) (s : State) : (emit (.byte b) s).sclk = .low := by
  simp [emit, applyEvent, shiftByte_eq]
@[simp] theorem emit_byte_mosi (b : Byte) (s : State) : (emit (.byte b) s).mosi = Config.freeLevel s.freeTick := by
  simp [emit, applyEvent, shiftByte_eq]
@[simp] theorem emit_byte_panel (b : Byte) (s : State) : (emit (.byte b) s).panel = if s.cs = .asserted then panelReceive s.freeTick s.rst s.dc b s.panel else s.panel := by
  simp [emit, applyEvent, shiftByte_eq, deliverByte_panel]
@[simp] theorem emit_byte_freeTick (b : Byte) (s : State) : (emit (.byte b) s).freeTick = s.freeTick + 1 := by
  simp [emit, applyEvent, shiftByte_eq]

/-! What a list of events leaves. -/

@[simp] theorem emitAll_nil (s : State) : emitAll [] s = s := by cases s; rfl
@[simp] theorem emitAll_cons (e : BusEvent) (es : List BusEvent) (s : State) :
    emitAll (e :: es) s = emitAll es (emit e s) := rfl

theorem emitAll_append (es fs : List BusEvent) (s : State) :
    emitAll (es ++ fs) s = emitAll fs (emitAll es s) := by
  simp [emitAll, List.foldl_append]

@[simp] theorem emitAll_trace (es : List BusEvent) (s : State) : (emitAll es s).trace = s.trace ++ es := by
  induction es generalizing s with
  | nil => simp
  | cons e es ih => simp [ih]

@[simp] theorem emitAll_cfg (es : List BusEvent) (s : State) : (emitAll es s).cfg = s.cfg := by
  induction es generalizing s with
  | nil => rfl
  | cons e es ih => simp [ih]
@[simp] theorem emitAll_ready (es : List BusEvent) (s : State) : (emitAll es s).ready = s.ready := by
  induction es generalizing s with
  | nil => rfl
  | cons e es ih => simp [ih]
@[simp] theorem emitAll_setupDone (es : List BusEvent) (s : State) : (emitAll es s).setupDone = s.setupDone := by
  induction es generalizing s with
  | nil => rfl
  | cons e es ih => simp [ih]
@[simp] theorem emitAll_busy (es : List BusEvent) (s : State) : (emitAll es s).busy = s.busy := by
  induction es generalizing s with
  | nil => rfl
  | cons e es ih => simp [ih]
@[simp] theorem emitAll_diagCount (es : List BusEvent) (s : State) : (emitAll es s).diagCount = s.diagCount := by
  induction es generalizing s with
  | nil => rfl
  | cons e es ih => simp [ih]
@[simp] theorem emitAll_seqPc (es : List BusEvent) (s : State) : (emitAll es s).seqPc = s.seqPc := by
  induction es generalizing s with
  | nil => rfl
  | cons e es ih => simp [ih]
@[simp] theorem emitAll_returns (es : List BusEvent) (s : State) : (emitAll es s).returns = s.returns := by
  induction es generalizing s with
  | nil => rfl
  | cons e es ih => simp [ih]
@[simp] theorem emitAll_quantOut (es : List BusEvent) (s : State) : (emitAll es s).quantOut = s.quantOut := by
  induction es generalizing s with
  | nil => rfl
  | cons e es ih => simp [ih]
@[simp] theorem emitAll_pending (es : List BusEvent) (s : State) : (emitAll es s).pending = s.pending := by
  induction es generalizing s with
  | nil => rfl
  | cons e es ih => simp [ih]

/-! What the framing units, the waits and the sequencer's pieces leave. -/

@[simp] theorem txn_cfg (l : Mode) (bs : List Byte) (s : State) : (txn l bs s).cfg = s.cfg := by
  simp [txn]
@[simp] theorem txn_ready (l : Mode) (bs : List Byte) (s : State) : (txn l bs s).ready = s.ready := by
  simp [txn]
@[simp] theorem txn_setupDone (l : Mode) (bs : List Byte) (s : State) : (txn l bs s).setupDone = s.setupDone := by
  simp [txn]
@[simp] theorem txn_busy (l : Mode) (bs : List Byte) (s : State) : (txn l bs s).busy = s.busy := by
  simp [txn]
@[simp] theorem txn_diagCount (l : Mode) (bs : List Byte) (s : State) : (txn l bs s).diagCount = s.diagCount := by
  simp [txn]
@[simp] theorem txn_seqPc (l : Mode) (bs : List Byte) (s : State) : (txn l bs s).seqPc = s.seqPc := by
  simp [txn]
@[simp] theorem txn_returns (l : Mode) (bs : List Byte) (s : State) : (txn l bs s).returns = s.returns := by
  simp [txn]
@[simp] theorem txn_quantOut (l : Mode) (bs : List Byte) (s : State) : (txn l bs s).quantOut = s.quantOut := by
  simp [txn]
@[simp] theorem txn_pending (l : Mode) (bs : List Byte) (s : State) : (txn l bs s).pending = s.pending := by
  simp [txn]

@[simp] theorem waitMs_cfg (d : Nat) (s : State) : (waitMs d s).cfg = s.cfg := by
  simp [waitMs]
@[simp] theorem waitMs_ready (d : Nat) (s : State) : (waitMs d s).ready = s.ready := by
  simp [waitMs]
@[simp] theorem waitMs_setupDone (d : Nat) (s : State) : (waitMs d s).setupDone = s.setupDone := by
  simp [waitMs]
@[simp] theorem waitMs_busy (d : Nat) (s : State) : (waitMs d s).busy = s.busy := by
  simp [waitMs]
@[simp] theorem waitMs_diagCount (d : Nat) (s : State) : (waitMs d s).diagCount = s.diagCount := by
  simp [waitMs]
@[simp] theorem waitMs_seqPc (d : Nat) (s : State) : (waitMs d s).seqPc = s.seqPc := by
  simp [waitMs]
@[simp] theorem waitMs_returns (d : Nat) (s : State) : (waitMs d s).returns = s.returns := by
  simp [waitMs]
@[simp] theorem waitMs_quantOut (d : Nat) (s : State) : (waitMs d s).quantOut = s.quantOut := by
  simp [waitMs]
@[simp] theorem waitMs_pending (d : Nat) (s : State) : (waitMs d s).pending = s.pending := by
  simp [waitMs]

@[simp] theorem writeCmd_cfg (c : Byte) (s : State) : (writeCmd c s).cfg = s.cfg := by
  simp [writeCmd]
@[simp] theorem writeCmd_ready (c : Byte) (s : State) : (writeCmd c s).ready = s.ready := by
  simp [writeCmd]
@[simp] theorem writeCmd_setupDone (c : Byte) (s : State) : (writeCmd c s).setupDone = s.setupDone := by
  simp [writeCmd]
@[simp] theorem writeCmd_busy (c : Byte) (s : State) : (writeCmd c s).busy = s.busy := by
  simp [writeCmd]
@[simp] theorem writeCmd_diagCount (c : Byte) (s : State) : (writeCmd c s).diagCount = s.diagCount := by
  simp [writeCmd]
@[simp] theorem writeCmd_seqPc (c : Byte) (s : State) : (writeCmd c s).seqPc = s.seqPc := by
  simp [writeCmd]
@[simp] theorem writeCmd_returns (c : Byte) (s : State) : (writeCmd c s).returns = s.returns := by
  simp [writeCmd]
@[simp] theorem writeCmd_quantOut (c : Byte) (s : State) : (writeCmd c s).quantOut = s.quantOut := by
  simp [writeCmd]
@[simp] theorem writeCmd_pending (c : Byte) (s : State) : (writeCmd c s).pending = s.pending := by
  simp [writeCmd]

@[simp] theorem writeData8_cfg (d : Byte) (s : State) : (writeData8 d s).cfg = s.cfg := by
  simp [writeData8]
@[simp] theorem writeData8_ready (d : Byte) (s : State) : (writeData8 d s).ready = s.ready := by
  simp [writeData8]
@[simp] theorem writeData8_setupDone (d : Byte) (s : State) : (writeData8 d s).setupDone = s.setupDone := by
  simp [writeData8]
@[simp] theorem writeData8_busy (d : Byte) (s : State) : (writeData8 d s).busy = s.busy := by
  simp [writeData8]
@[simp] theorem writeData8_diagCount (d : Byte) (s : State) : (writeData8 d s).diagCount = s.diagCount := by
  simp [writeData8]
@[simp] theorem writeData8_seqPc (d : Byte) (s : State) : (writeData8 d s).seqPc = s.seqPc := by
  simp [writeData8]
@[simp] theorem writeData8_returns (d : Byte) (s : State) : (writeData8 d s).returns = s.returns := by
  simp [writeData8]
@[simp] theorem writeData8_quantOut (d : Byte) (s : State) : (writeData8 d s).quantOut = s.quantOut := by
  simp [writeData8]
@[simp] theorem writeData8_pending (d : Byte) (s : State) : (writeData8 d s).pending = s.pending := by
  simp [writeData8]

@[simp] theorem writeData16_cfg (v : U16) (s : State) : (writeData16 v s).cfg = s.cfg := by
  simp [writeData16]
@[simp] theorem writeData16_ready (v : U16) (s : State) : (writeData16 v s).ready = s.ready := by
  simp [writeData16]
@[simp] theorem writeData16_setupDone (v : U16) (s : State) : (writeData16 v s).setupDone = s.setupDone := by
  simp [writeData16]
@[simp] theorem writeData16_busy (v : U16) (s : State) : (writeData16 v s).busy = s.busy := by
  simp [writeData16]
@[simp] theorem writeData16_diagCount (v : U16) (s : State) : (writeData16 v s).diagCount = s.diagCount := by
  simp [writeData16]
@[simp] theorem writeData16_seqPc (v : U16) (s : State) : (writeData16 v s).seqPc = s.seqPc := by
  simp [writeData16]
@[simp] theorem writeData16_returns (v : U16) (s : State) : (writeData16 v s).returns = s.returns := by
  simp [writeData16]
@[simp] theorem writeData16_quantOut (v : U16) (s : State) : (writeData16 v s).quantOut = s.quantOut := by
  simp [writeData16]
@[simp] theorem writeData16_pending (v : U16) (s : State) : (writeData16 v s).pending = s.pending := by
  simp [writeData16]

@[simp] theorem writeColorRun_cfg (v : U16) (n : Nat) (s : State) : (writeColorRun v n s).cfg = s.cfg := by
  simp [writeColorRun]
@[simp] theorem writeColorRun_ready (v : U16) (n : Nat) (s : State) : (writeColorRun v n s).ready = s.ready := by
  simp [writeColorRun]
@[simp] theorem writeColorRun_setupDone (v : U16) (n : Nat) (s : State) : (writeColorRun v n s).setupDone = s.setupDone := by
  simp [writeColorRun]
@[simp] theorem writeColorRun_busy (v : U16) (n : Nat) (s : State) : (writeColorRun v n s).busy = s.busy := by
  simp [writeColorRun]
@[simp] theorem writeColorRun_diagCount (v : U16) (n : Nat) (s : State) : (writeColorRun v n s).diagCount = s.diagCount := by
  simp [writeColorRun]
@[simp] theorem writeColorRun_seqPc (v : U16) (n : Nat) (s : State) : (writeColorRun v n s).seqPc = s.seqPc := by
  simp [writeColorRun]
@[simp] theorem writeColorRun_returns (v : U16) (n : Nat) (s : State) : (writeColorRun v n s).returns = s.returns := by
  simp [writeColorRun]
@[simp] theorem writeColorRun_quantOut (v : U16) (n : Nat) (s : State) : (writeColorRun v n s).quantOut = s.quantOut := by
  simp [writeColorRun]
@[simp] theorem writeColorRun_pending (v : U16) (n : Nat) (s : State) : (writeColorRun v n s).pending = s.pending := by
  simp [writeColorRun]

@[simp] theorem sendWindow_cfg (x1 y1 x2 y2 : Nat) (s : State) : (sendWindow x1 y1 x2 y2 s).cfg = s.cfg := by
  simp [sendWindow]
@[simp] theorem sendWindow_ready (x1 y1 x2 y2 : Nat) (s : State) : (sendWindow x1 y1 x2 y2 s).ready = s.ready := by
  simp [sendWindow]
@[simp] theorem sendWindow_setupDone (x1 y1 x2 y2 : Nat) (s : State) : (sendWindow x1 y1 x2 y2 s).setupDone = s.setupDone := by
  simp [sendWindow]
@[simp] theorem sendWindow_busy (x1 y1 x2 y2 : Nat) (s : State) : (sendWindow x1 y1 x2 y2 s).busy = s.busy := by
  simp [sendWindow]
@[simp] theorem sendWindow_diagCount (x1 y1 x2 y2 : Nat) (s : State) : (sendWindow x1 y1 x2 y2 s).diagCount = s.diagCount := by
  simp [sendWindow]
@[simp] theorem sendWindow_seqPc (x1 y1 x2 y2 : Nat) (s : State) : (sendWindow x1 y1 x2 y2 s).seqPc = s.seqPc := by
  simp [sendWindow]
@[simp] theorem sendWindow_returns (x1 y1 x2 y2 : Nat) (s : State) : (sendWindow x1 y1 x2 y2 s).returns = s.returns := by
  simp [sendWindow]
@[simp] theorem sendWindow_quantOut (x1 y1 x2 y2 : Nat) (s : State) : (sendWindow x1 y1 x2 y2 s).quantOut = s.quantOut := by
  simp [sendWindow]
@[simp] theorem sendWindow_pending (x1 y1 x2 y2 : Nat) (s : State) : (sendWindow x1 y1 x2 y2 s).pending = s.pending := by
  simp [sendWindow]

@[simp] theorem writePayload_cfg (ps : List Byte) (s : State) : (writePayload ps s).cfg = s.cfg := by
  induction ps generalizing s with
  | nil => rfl
  | cons p ps ih => simp [writePayload, ih]
@[simp] theorem writePayload_ready (ps : List Byte) (s : State) : (writePayload ps s).ready = s.ready := by
  induction ps generalizing s with
  | nil => rfl
  | cons p ps ih => simp [writePayload, ih]
@[simp] theorem writePayload_setupDone (ps : List Byte) (s : State) : (writePayload ps s).setupDone = s.setupDone := by
  induction ps generalizing s with
  | nil => rfl
  | cons p ps ih => simp [writePayload, ih]
@[simp] theorem writePayload_busy (ps : List Byte) (s : State) : (writePayload ps s).busy = s.busy := by
  induction ps generalizing s with
  | nil => rfl
  | cons p ps ih => simp [writePayload, ih]
@[simp] theorem writePayload_diagCount (ps : List Byte) (s : State) : (writePayload ps s).diagCount = s.diagCount := by
  induction ps generalizing s with
  | nil => rfl
  | cons p ps ih => simp [writePayload, ih]
@[simp] theorem writePayload_seqPc (ps : List Byte) (s : State) : (writePayload ps s).seqPc = s.seqPc := by
  induction ps generalizing s with
  | nil => rfl
  | cons p ps ih => simp [writePayload, ih]
@[simp] theorem writePayload_returns (ps : List Byte) (s : State) : (writePayload ps s).returns = s.returns := by
  induction ps generalizing s with
  | nil => rfl
  | cons p ps ih => simp [writePayload, ih]
@[simp] theorem writePayload_quantOut (ps : List Byte) (s : State) : (writePayload ps s).quantOut = s.quantOut := by
  induction ps generalizing s with
  | nil => rfl
  | cons p ps ih => simp [writePayload, ih]
@[simp] theorem writePayload_pending (ps : List Byte) (s : State) : (writePayload ps s).pending = s.pending := by
  induction ps generalizing s with
  | nil => rfl
  | cons p ps ih => simp [writePayload, ih]

@[simp] theorem runStep_cfg (st : InitStep) (s : State) : (runStep st s).cfg = s.cfg := by
  simp [runStep]
@[simp] theorem runStep_ready (st : InitStep) (s : State) : (runStep st s).ready = s.ready := by
  simp [runStep]
@[simp] theorem runStep_setupDone (st : InitStep) (s : State) : (runStep st s).setupDone = s.setupDone := by
  simp [runStep]
@[simp] theorem runStep_busy (st : InitStep) (s : State) : (runStep st s).busy = s.busy := by
  simp [runStep]
@[simp] theorem runStep_diagCount (st : InitStep) (s : State) : (runStep st s).diagCount = s.diagCount := by
  simp [runStep]
@[simp] theorem runStep_seqPc (st : InitStep) (s : State) : (runStep st s).seqPc = s.seqPc := by
  simp [runStep]
@[simp] theorem runStep_returns (st : InitStep) (s : State) : (runStep st s).returns = s.returns := by
  simp [runStep]
@[simp] theorem runStep_quantOut (st : InitStep) (s : State) : (runStep st s).quantOut = s.quantOut := by
  simp [runStep]
@[simp] theorem runStep_pending (st : InitStep) (s : State) : (runStep st s).pending = s.pending := by
  simp [runStep]

@[simp] theorem runSteps_cfg (l : List InitStep) (s : State) : (runSteps l s).cfg = s.cfg := by
  induction l generalizing s with
  | nil => rfl
  | cons st l ih => simp [runSteps, ih]
@[simp] theorem runInit_cfg (s : State) : (runInit s).cfg = s.cfg := by
  simp [runInit]
@[simp] theorem runSteps_ready (l : List InitStep) (s : State) : (runSteps l s).ready = s.ready := by
  induction l generalizing s with
  | nil => rfl
  | cons st l ih => simp [runSteps, ih]
@[simp] theorem runInit_ready (s : State) : (runInit s).ready = s.ready := by
  simp [runInit]
@[simp] theorem runSteps_setupDone (l : List InitStep) (s : State) : (runSteps l s).setupDone = s.setupDone := by
  induction l generalizing s with
  | nil => rfl
  | cons st l ih => simp [runSteps, ih]
@[simp] theorem runInit_setupDone (s : State) : (runInit s).setupDone = s.setupDone := by
  simp [runInit]
@[simp] theorem runSteps_busy (l : List InitStep) (s : State) : (runSteps l s).busy = s.busy := by
  induction l generalizing s with
  | nil => rfl
  | cons st l ih => simp [runSteps, ih]
@[simp] theorem runInit_busy (s : State) : (runInit s).busy = s.busy := by
  simp [runInit]
@[simp] theorem runSteps_diagCount (l : List InitStep) (s : State) : (runSteps l s).diagCount = s.diagCount := by
  induction l generalizing s with
  | nil => rfl
  | cons st l ih => simp [runSteps, ih]
@[simp] theorem runInit_diagCount (s : State) : (runInit s).diagCount = s.diagCount := by
  simp [runInit]
@[simp] theorem runSteps_returns (l : List InitStep) (s : State) : (runSteps l s).returns = s.returns := by
  induction l generalizing s with
  | nil => rfl
  | cons st l ih => simp [runSteps, ih]
@[simp] theorem runInit_returns (s : State) : (runInit s).returns = s.returns := by
  simp [runInit]
@[simp] theorem runSteps_quantOut (l : List InitStep) (s : State) : (runSteps l s).quantOut = s.quantOut := by
  induction l generalizing s with
  | nil => rfl
  | cons st l ih => simp [runSteps, ih]
@[simp] theorem runInit_quantOut (s : State) : (runInit s).quantOut = s.quantOut := by
  simp [runInit]
@[simp] theorem runSteps_pending (l : List InitStep) (s : State) : (runSteps l s).pending = s.pending := by
  induction l generalizing s with
  | nil => rfl
  | cons st l ih => simp [runSteps, ih]
@[simp] theorem runInit_pending (s : State) : (runInit s).pending = s.pending := by
  simp [runInit]

/-- The sequencer position advances by one for every step (R20). -/
@[simp] theorem runSteps_seqPc (l : List InitStep) (s : State) : (runSteps l s).seqPc = s.seqPc + l.length := by
  induction l generalizing s with
  | nil => rfl
  | cons st l ih => simp [runSteps, ih]; omega

@[simp] theorem runInit_seqPc (s : State) : (runInit s).seqPc = s.cfg.initTable.length := by
  simp [runInit]

@[simp] theorem driveBacklight_cfg (s : State) : (driveBacklight s).cfg = s.cfg := by
  unfold driveBacklight; split <;> simp
@[simp] theorem driveBacklight_ready (s : State) : (driveBacklight s).ready = s.ready := by
  unfold driveBacklight; split <;> simp
@[simp] theorem driveBacklight_setupDone (s : State) : (driveBacklight s).setupDone = s.setupDone := by
  unfold driveBacklight; split <;> simp
@[simp] theorem driveBacklight_busy (s : State) : (driveBacklight s).busy = s.busy := by
  unfold driveBacklight; split <;> simp
@[simp] theorem driveBacklight_diagCount (s : State) : (driveBacklight s).diagCount = s.diagCount := by
  unfold driveBacklight; split <;> simp
@[simp] theorem driveBacklight_seqPc (s : State) : (driveBacklight s).seqPc = s.seqPc := by
  unfold driveBacklight; split <;> simp
@[simp] theorem driveBacklight_returns (s : State) : (driveBacklight s).returns = s.returns := by
  unfold driveBacklight; split <;> simp
@[simp] theorem driveBacklight_quantOut (s : State) : (driveBacklight s).quantOut = s.quantOut := by
  unfold driveBacklight; split <;> simp
@[simp] theorem driveBacklight_pending (s : State) : (driveBacklight s).pending = s.pending := by
  unfold driveBacklight; split <;> simp

@[simp] theorem hwResetPulse_cfg (s : State) : (hwResetPulse s).cfg = s.cfg := by
  unfold hwResetPulse; split <;> simp
@[simp] theorem hwResetPulse_ready (s : State) : (hwResetPulse s).ready = s.ready := by
  unfold hwResetPulse; split <;> simp
@[simp] theorem hwResetPulse_setupDone (s : State) : (hwResetPulse s).setupDone = s.setupDone := by
  unfold hwResetPulse; split <;> simp
@[simp] theorem hwResetPulse_busy (s : State) : (hwResetPulse s).busy = s.busy := by
  unfold hwResetPulse; split <;> simp
@[simp] theorem hwResetPulse_diagCount (s : State) : (hwResetPulse s).diagCount = s.diagCount := by
  unfold hwResetPulse; split <;> simp
@[simp] theorem hwResetPulse_seqPc (s : State) : (hwResetPulse s).seqPc = s.seqPc := by
  unfold hwResetPulse; split <;> simp
@[simp] theorem hwResetPulse_returns (s : State) : (hwResetPulse s).returns = s.returns := by
  unfold hwResetPulse; split <;> simp
@[simp] theorem hwResetPulse_quantOut (s : State) : (hwResetPulse s).quantOut = s.quantOut := by
  unfold hwResetPulse; split <;> simp
@[simp] theorem hwResetPulse_pending (s : State) : (hwResetPulse s).pending = s.pending := by
  unfold hwResetPulse; split <;> simp

end Sys2Proof.Machine
end

