-- ==== Sys2Proof/Laws/Trace.lean ====
section
/-! SUPPORT. The trace readers and monitors over concatenation and over one transaction. -/

namespace Sys2Proof.Machine

@[simp] theorem txnEvents_ne_nil (l : Mode) (bs : List Byte) : txnEvents l bs ≠ [] := by simp [txnEvents]

@[simp] theorem length_runBytes (v : U16) (n : Nat) : (runBytes v n).length = 2 * n := by
  simp [runBytes, bytes16, List.length_flatten, Nat.mul_comm]

/-- n + 1 pixels are one pixel and n more. -/
theorem runBytes_succ (v : U16) (n : Nat) : runBytes v (n + 1) = hi8 v :: lo8 v :: runBytes v n := rfl

theorem runBytes_zero (v : U16) : runBytes v 0 = [] := rfl

@[simp] theorem transactionCount_append (s t : List BusEvent) :
    transactionCount (s ++ t) = transactionCount s + transactionCount t := by
  simp [transactionCount]

@[simp] theorem traceBytes_append (s t : List BusEvent) : traceBytes (s ++ t) = traceBytes s ++ traceBytes t := by
  induction s with
  | nil => rfl
  | cons e s ih => cases e <;> simp [traceBytes, ih]

@[simp] theorem traceWaits_append (s t : List BusEvent) : traceWaits (s ++ t) = traceWaits s ++ traceWaits t := by
  induction s with
  | nil => rfl
  | cons e s ih => cases e <;> simp [traceWaits, ih]

@[simp] theorem dcAfter_append (l : Mode) (s t : List BusEvent) : dcAfter l (s ++ t) = dcAfter (dcAfter l s) t := by
  induction s generalizing l with
  | nil => rfl
  | cons e s ih => cases e <;> simp [dcAfter, ih]

@[simp] theorem csAfter_append (v : Select) (s t : List BusEvent) : csAfter v (s ++ t) = csAfter (csAfter v s) t := by
  induction s generalizing v with
  | nil => rfl
  | cons e s ih => cases e <;> simp [csAfter, ih]

@[simp] theorem wireUnitsFrom_append (l : Mode) (s t : List BusEvent) :
    wireUnitsFrom l (s ++ t) = wireUnitsFrom l s ++ wireUnitsFrom (dcAfter l s) t := by
  induction s generalizing l with
  | nil => rfl
  | cons e s ih => cases e <;> simp [wireUnitsFrom, dcAfter, ih]

@[simp] theorem commandBytesFrom_append (l : Mode) (s t : List BusEvent) :
    commandBytesFrom l (s ++ t) = commandBytesFrom l s ++ commandBytesFrom (dcAfter l s) t := by
  induction s generalizing l with
  | nil => rfl
  | cons e s ih => cases e <;> cases l <;> simp [commandBytesFrom, dcAfter, ih]

/-! One transaction. -/

@[simp] theorem dcAfter_bytes (l : Mode) (bs : List Byte) : dcAfter l (bs.map .byte) = l := by
  induction bs with
  | nil => rfl
  | cons b bs ih => simpa [dcAfter] using ih

@[simp] theorem dcAfter_txnEvents (k l : Mode) (bs : List Byte) : dcAfter k (txnEvents l bs) = l := by
  simp [txnEvents, dcAfter]

@[simp] theorem traceBytes_bytes (bs : List Byte) : traceBytes (bs.map .byte) = bs := by
  induction bs with
  | nil => rfl
  | cons b bs ih => simp [traceBytes, ih]

@[simp] theorem traceBytes_txnEvents (l : Mode) (bs : List Byte) : traceBytes (txnEvents l bs) = bs := by
  simp [txnEvents, traceBytes]

@[simp] theorem traceWaits_txnEvents (l : Mode) (bs : List Byte) : traceWaits (txnEvents l bs) = [] := by
  have : traceWaits (bs.map .byte) = [] := by induction bs <;> simp_all [traceWaits]
  simp [txnEvents, traceWaits, this]

@[simp] theorem transactionCount_txnEvents (l : Mode) (bs : List Byte) : transactionCount (txnEvents l bs) = 1 := by
  have h : List.countP (fun e => e == BusEvent.cs .asserted) (bs.map .byte) = 0 := by
    simp [List.countP_eq_zero]
  simp [transactionCount, txnEvents, h]

@[simp] theorem wireUnitsFrom_bytes (l : Mode) (bs : List Byte) :
    wireUnitsFrom l (bs.map .byte) = bs.map (wireUnit l) := by
  induction bs with
  | nil => rfl
  | cons b bs ih => simp [wireUnitsFrom, ih]

@[simp] theorem wireUnitsFrom_txnEvents (k l : Mode) (bs : List Byte) :
    wireUnitsFrom k (txnEvents l bs) = bs.map (wireUnit l) := by
  simp [txnEvents, wireUnitsFrom]

@[simp] theorem commandBytesFrom_txn_cmd (k : Mode) (bs : List Byte) :
    commandBytesFrom k (txnEvents .cmd bs) = bs := by
  have : commandBytesFrom .cmd (bs.map .byte) = bs := by induction bs <;> simp_all [commandBytesFrom]
  simp [txnEvents, commandBytesFrom, this]

@[simp] theorem commandBytesFrom_txn_data (k : Mode) (bs : List Byte) :
    commandBytesFrom k (txnEvents .data bs) = [] := by
  have : commandBytesFrom .data (bs.map .byte) = [] := by induction bs <;> simp_all [commandBytesFrom]
  simp [txnEvents, commandBytesFrom, this]

/-! The framing monitor. -/

theorem frameRun_append (p : FramePhase) (s t : List BusEvent) :
    frameRun p (s ++ t) = (frameRun p s).bind (fun q => frameRun q t) := by
  induction s generalizing p with
  | nil => rfl
  | cons e s ih =>
    simp only [List.cons_append, frameRun]
    cases frameStep p e with
    | none => rfl
    | some q => exact ih q

theorem frameRun_bytes (bs : List Byte) : frameRun .shifting (bs.map .byte) = some .shifting := by
  induction bs with
  | nil => rfl
  | cons b bs ih => simpa [frameRun, frameStep] using ih

/-- A transaction starts and ends between transactions (R63). -/
@[simp] theorem frameRun_txnEvents (l : Mode) (bs : List Byte) : frameRun .idle (txnEvents l bs) = some .idle := by
  simp [txnEvents, frameRun, frameStep, frameRun_append, frameRun_bytes]

@[simp] theorem frameRun_waitEvents (d : Nat) : frameRun .idle (waitEvents d) = some .idle := by
  unfold waitEvents; split <;> rfl

theorem framed_iff (t : List BusEvent) : framed t = true ↔ frameRun .idle t = some .idle := by
  simp [framed]

/-- Framed traces concatenate. -/
theorem framed_append {s t : List BusEvent} (hs : framed s = true) (ht : framed t = true) : framed (s ++ t) = true := by
  rw [framed_iff] at *; simp [frameRun_append, hs, ht]

/-! The delay monitor. -/

theorem owedRun_append (o : Owed) (s t : List BusEvent) :
    owedRun o (s ++ t) = (owedRun o s).bind (fun q => owedRun q t) := by
  induction s generalizing o with
  | nil => rfl
  | cons e s ih =>
    simp only [List.cons_append, owedRun]
    cases owedStep o e with
    | none => rfl
    | some q => exact ih q

/-- Data bytes owe nothing. -/
theorem owedRun_data_bytes (bs : List Byte) (r : ResetLine) :
    owedRun ⟨.data, r, 0, 0⟩ (bs.map .byte) = some ⟨.data, r, 0, 0⟩ := by
  induction bs with
  | nil => rfl
  | cons b bs ih => simpa [owedRun, owedStep] using ih

/-- A data transaction owes nothing after it. -/
theorem owedRun_txn_data (l : Mode) (bs : List Byte) (r : ResetLine) :
    owedRun ⟨l, r, 0, 0⟩ (txnEvents .data bs) = some ⟨.data, r, 0, 0⟩ := by
  simp [txnEvents, owedRun, owedStep, owedRun_append, owedRun_data_bytes]

/-- A command transaction owes the delay of its command (R95). -/
theorem owedRun_txn_cmd (l : Mode) (c : Byte) (r : ResetLine) :
    owedRun ⟨l, r, 0, 0⟩ (txnEvents .cmd [c]) = some ⟨.cmd, r, 0, minDelayMs c⟩ := by
  simp [txnEvents, owedRun, owedStep]

/-- A wait pays what is owed (R85, R96). -/
theorem owedRun_waitEvents (l : Mode) (r : ResetLine) (n d : Nat) :
    owedRun ⟨l, r, 0, n⟩ (waitEvents d) = some ⟨l, r, 0, n - d⟩ := by
  unfold waitEvents; split
  · rfl
  · have : d = 0 := by omega
    simp [owedRun, this]

/-! The payload monitor. -/

theorem streamRun_append (table : List InitStep) (o : Stream) (s t : List BusEvent) :
    streamRun table o (s ++ t) = (streamRun table o s).bind (fun q => streamRun table q t) := by
  induction s generalizing o with
  | nil => rfl
  | cons e s ih =>
    simp only [List.cons_append, streamRun]
    cases streamStep table o e with
    | none => rfl
    | some q => exact ih q

/-- Data bytes after a command gather in the transaction under way. -/
theorem streamRun_data_bytes (table : List InitStep) (bs : List Byte) (s : Stream) (hl : s.level = .data)
    (hc : s.cmd ≠ none) :
    streamRun table s (bs.map .byte) = some { s with current := s.current ++ bs } := by
  induction bs generalizing s with
  | nil => simp [streamRun]
  | cons b bs ih =>
    have h : streamStep table s (.byte b) = some { s with current := s.current ++ [b] } := by simp [streamStep, hl, hc]
    simp only [List.map_cons, streamRun, h]
    simpa using ih { s with current := s.current ++ [b] } hl hc

/-- A data transaction after a command is one more group of its data. -/
theorem streamRun_txn_data (table : List InitStep) (bs : List Byte) (s : Stream) (hc : s.cmd ≠ none)
    (h0 : s.current = []) :
    streamRun table s (txnEvents .data bs) = some { s with level := .data, groups := s.groups ++ [bs] } := by
  simp only [txnEvents, streamRun, streamStep, streamRun_append]
  rw [streamRun_data_bytes table bs { s with level := .data } rfl hc]
  simp [h0, streamRun, streamStep]

/-- A command may come when the last one is complete. -/
theorem streamRun_txn_cmd (table : List InitStep) (c : Byte) (s : Stream) (h : streamComplete table s = true) :
    streamRun table s (txnEvents .cmd [c]) = some { streamCommand c s with level := .cmd } := by
  have h' : streamComplete table { s with level := .cmd } = true := h
  simp [txnEvents, streamRun, streamStep, h', streamCommand]

/-- Waits are not in the stream. -/
theorem streamRun_wait (table : List InitStep) (d : Nat) (s : Stream) : streamRun table s (waitEvents d) = some s := by
  unfold waitEvents; split <;> rfl

end Sys2Proof.Machine
end

