-- ==== Sys2Proof/Laws/Ops.lean ====
section
/-! SUPPORT. What each shared operation can do: the signals and the trace after it, and the cases of an outcome. -/

namespace Sys2Proof.Machine

/-! The signals after the bytes of a transaction. -/

@[simp] theorem emitAll_bytes_dc (bs : List Byte) (s : State) : (emitAll (bs.map .byte) s).dc = s.dc := by
  induction bs generalizing s with
  | nil => rfl
  | cons b bs ih => simp [ih]

@[simp] theorem emitAll_bytes_cs (bs : List Byte) (s : State) : (emitAll (bs.map .byte) s).cs = s.cs := by
  induction bs generalizing s with
  | nil => rfl
  | cons b bs ih => simp [ih]

@[simp] theorem emitAll_bytes_rst (bs : List Byte) (s : State) : (emitAll (bs.map .byte) s).rst = s.rst := by
  induction bs generalizing s with
  | nil => rfl
  | cons b bs ih => simp [ih]

@[simp] theorem emitAll_bytes_bl (bs : List Byte) (s : State) : (emitAll (bs.map .byte) s).bl = s.bl := by
  induction bs generalizing s with
  | nil => rfl
  | cons b bs ih => simp [ih]

theorem emitAll_bytes_sclk (bs : List Byte) (s : State) (h : s.sclk = .low) :
    (emitAll (bs.map .byte) s).sclk = .low := by
  induction bs generalizing s with
  | nil => exact h
  | cons b bs ih => simpa using ih _ (by simp)

theorem txn_eq (l : Mode) (bs : List Byte) (s : State) :
    txn l bs s = emit (.cs .deasserted) (emitAll (bs.map .byte) (emit (.cs .asserted) (emit (.dc l) s))) := by
  simp [txn, txnEvents, emitAll_append]

@[simp] theorem txn_dc (l : Mode) (bs : List Byte) (s : State) : (txn l bs s).dc = l := by
  simp [txn_eq]

@[simp] theorem txn_cs (l : Mode) (bs : List Byte) (s : State) : (txn l bs s).cs = .deasserted := by
  simp [txn_eq]

@[simp] theorem txn_rst (l : Mode) (bs : List Byte) (s : State) : (txn l bs s).rst = s.rst := by
  simp [txn_eq]

@[simp] theorem txn_bl (l : Mode) (bs : List Byte) (s : State) : (txn l bs s).bl = s.bl := by
  simp [txn_eq]

theorem txn_sclk (l : Mode) (bs : List Byte) (s : State) (h : s.sclk = .low) : (txn l bs s).sclk = .low := by
  simp only [txn_eq, emit_cs_sclk]
  exact emitAll_bytes_sclk _ _ (by simpa using h)

@[simp] theorem txn_trace (l : Mode) (bs : List Byte) (s : State) : (txn l bs s).trace = s.trace ++ txnEvents l bs := by
  simp [txn]

/-! Waits change nothing but T and the settle time (R85). -/

theorem waitMs_eq (d : Nat) (s : State) :
    waitMs d s = { s with trace := s.trace ++ waitEvents d, panel := panelElapse d s.panel } := by
  unfold waitMs waitEvents
  split
  · rfl
  · have : d = 0 := by omega
    subst this; simp [panelElapse]

@[simp] theorem waitMs_dc (d : Nat) (s : State) : (waitMs d s).dc = s.dc := by simp [waitMs_eq]
@[simp] theorem waitMs_cs (d : Nat) (s : State) : (waitMs d s).cs = s.cs := by simp [waitMs_eq]
@[simp] theorem waitMs_rst (d : Nat) (s : State) : (waitMs d s).rst = s.rst := by simp [waitMs_eq]
@[simp] theorem waitMs_bl (d : Nat) (s : State) : (waitMs d s).bl = s.bl := by simp [waitMs_eq]
@[simp] theorem waitMs_sclk (d : Nat) (s : State) : (waitMs d s).sclk = s.sclk := by simp [waitMs_eq]
@[simp] theorem waitMs_mosi (d : Nat) (s : State) : (waitMs d s).mosi = s.mosi := by simp [waitMs_eq]
@[simp] theorem waitMs_freeTick (d : Nat) (s : State) : (waitMs d s).freeTick = s.freeTick := by simp [waitMs_eq]
@[simp] theorem waitMs_panel (d : Nat) (s : State) : (waitMs d s).panel = panelElapse d s.panel := by simp [waitMs_eq]
@[simp] theorem waitMs_trace (d : Nat) (s : State) : (waitMs d s).trace = s.trace ++ waitEvents d := by simp [waitMs_eq]

/-! The framing units (R81 to R84). -/

@[simp] theorem writeCmd_trace (c : Byte) (s : State) : (writeCmd c s).trace = s.trace ++ txnEvents .cmd [c] := by
  simp [writeCmd]
@[simp] theorem writeData8_trace (d : Byte) (s : State) : (writeData8 d s).trace = s.trace ++ txnEvents .data [d] := by
  simp [writeData8]
@[simp] theorem writeData16_trace (v : U16) (s : State) :
    (writeData16 v s).trace = s.trace ++ txnEvents .data (bytes16 v) := by
  simp [writeData16]
@[simp] theorem writeColorRun_trace (v : U16) (n : Nat) (s : State) :
    (writeColorRun v n s).trace = s.trace ++ txnEvents .data (runBytes v n) := by
  simp [writeColorRun]

@[simp] theorem writeCmd_dc (c : Byte) (s : State) : (writeCmd c s).dc = .cmd := by simp [writeCmd]
@[simp] theorem writeCmd_cs (c : Byte) (s : State) : (writeCmd c s).cs = .deasserted := by simp [writeCmd]
@[simp] theorem writeCmd_rst (c : Byte) (s : State) : (writeCmd c s).rst = s.rst := by simp [writeCmd]
@[simp] theorem writeCmd_bl (c : Byte) (s : State) : (writeCmd c s).bl = s.bl := by simp [writeCmd]
@[simp] theorem writeData8_dc (d : Byte) (s : State) : (writeData8 d s).dc = .data := by simp [writeData8]
@[simp] theorem writeData8_cs (d : Byte) (s : State) : (writeData8 d s).cs = .deasserted := by simp [writeData8]
@[simp] theorem writeData8_rst (d : Byte) (s : State) : (writeData8 d s).rst = s.rst := by simp [writeData8]
@[simp] theorem writeData8_bl (d : Byte) (s : State) : (writeData8 d s).bl = s.bl := by simp [writeData8]
@[simp] theorem writeData16_dc (v : U16) (s : State) : (writeData16 v s).dc = .data := by simp [writeData16]
@[simp] theorem writeData16_cs (v : U16) (s : State) : (writeData16 v s).cs = .deasserted := by simp [writeData16]
@[simp] theorem writeData16_rst (v : U16) (s : State) : (writeData16 v s).rst = s.rst := by simp [writeData16]
@[simp] theorem writeData16_bl (v : U16) (s : State) : (writeData16 v s).bl = s.bl := by simp [writeData16]
@[simp] theorem writeColorRun_dc (v : U16) (n : Nat) (s : State) : (writeColorRun v n s).dc = .data := by
  simp [writeColorRun]
@[simp] theorem writeColorRun_cs (v : U16) (n : Nat) (s : State) : (writeColorRun v n s).cs = .deasserted := by
  simp [writeColorRun]
@[simp] theorem writeColorRun_rst (v : U16) (n : Nat) (s : State) : (writeColorRun v n s).rst = s.rst := by
  simp [writeColorRun]
@[simp] theorem writeColorRun_bl (v : U16) (n : Nat) (s : State) : (writeColorRun v n s).bl = s.bl := by
  simp [writeColorRun]

/-! The window (R102). -/

@[simp] theorem sendWindow_trace (x1 y1 x2 y2 : Nat) (s : State) :
    (sendWindow x1 y1 x2 y2 s).trace = s.trace ++ windowEvents x1 y1 x2 y2 := by
  simp [sendWindow, windowEvents]
@[simp] theorem sendWindow_dc (x1 y1 x2 y2 : Nat) (s : State) : (sendWindow x1 y1 x2 y2 s).dc = .cmd := by
  simp [sendWindow]
@[simp] theorem sendWindow_cs (x1 y1 x2 y2 : Nat) (s : State) : (sendWindow x1 y1 x2 y2 s).cs = .deasserted := by
  simp [sendWindow]
@[simp] theorem sendWindow_rst (x1 y1 x2 y2 : Nat) (s : State) : (sendWindow x1 y1 x2 y2 s).rst = s.rst := by
  simp [sendWindow]
@[simp] theorem sendWindow_bl (x1 y1 x2 y2 : Nat) (s : State) : (sendWindow x1 y1 x2 y2 s).bl = s.bl := by
  simp [sendWindow]

/-- The window check says exactly the invariant of R102. -/
theorem windowValid_iff (x1 y1 x2 y2 : Nat) :
    windowValid x1 y1 x2 y2 = true ↔ x1 ≤ x2 ∧ x2 < 240 ∧ y1 ≤ y2 ∧ y2 < 240 := by
  simp only [windowValid, Bool.and_eq_true, decide_eq_true_eq, and_assoc]; rfl

/-- SET_WINDOW sends its window or faults, and nothing else. -/
theorem setWindow_eq (x1 y1 x2 y2 : Nat) (s : State) :
    setWindow x1 y1 x2 y2 s =
      if x1 ≤ x2 ∧ x2 < 240 ∧ y1 ≤ y2 ∧ y2 < 240 then .next (sendWindow x1 y1 x2 y2 s) else .fault .windowInvalid := by
  unfold setWindow
  by_cases h : windowValid x1 y1 x2 y2 = true
  · rw [if_pos h, if_pos ((windowValid_iff ..).1 h)]
  · rw [if_neg h, if_neg (fun g => h ((windowValid_iff ..).2 g))]

/-- FILL_RAW always runs (R103). -/
theorem fillRaw_eq (r g b : Byte) (s : State) :
    fillRaw r g b s = .next (writeColorRun (quantizeColor r g b) panelPixels (sendWindow 0 0 239 239 s)) := by
  unfold fillRaw
  rw [setWindow_eq]
  simp [andThen, panelWidth, panelHeight]

/-- The bounds check says 0 ≤ x < 240 and 0 ≤ y < 240 on the integers (R105). -/
theorem inBounds_iff (x y : Coord) :
    inBounds x y = true ↔ 0 ≤ x.toInt ∧ x.toInt < 240 ∧ 0 ≤ y.toInt ∧ y.toInt < 240 := by
  simp [inBounds, and_assoc]

/-- A coordinate pair in bounds is a window of one pixel. -/
theorem coordNat_lt_of_inBounds {x y : Coord} (h : inBounds x y = true) : coordNat x < 240 ∧ coordNat y < 240 := by
  rw [inBounds_iff] at h; unfold coordNat; omega

/-- DRAW_PIXEL's body rejects or sends one pixel (R105). -/
theorem drawPixelBody_eq (x y : Coord) (r g b : Byte) (s : State) :
    drawPixelBody x y r g b s =
      if s.ready = true ∧ inBounds x y = true then
        .next (writeData16 (quantizeColor r g b) (sendWindow (coordNat x) (coordNat y) (coordNat x) (coordNat y) s))
      else .next s := by
  unfold drawPixelBody reject
  by_cases hr : s.ready = true
  · by_cases hb : inBounds x y = true
    · have := coordNat_lt_of_inBounds hb
      simp [hr, hb, setWindow_eq, this, andThen]
    · simp [hr, hb]
  · simp [hr]

/-- FILL's body rejects or fills (R104). -/
theorem fillBody_eq (r g b : Byte) (s : State) :
    fillBody r g b s =
      if s.ready = true then
        .next (writeColorRun (quantizeColor r g b) panelPixels (sendWindow 0 0 239 239 s))
      else .next s := by
  unfold fillBody reject
  split <;> simp [fillRaw_eq]

/-- The state SETUP reaches when it is the first one (R114). -/
def setupState (s : State) : State :=
  markReady (writeColorRun
    (quantizeColor s.cfg.initialFillColor.r s.cfg.initialFillColor.g s.cfg.initialFillColor.b) panelPixels
    (sendWindow 0 0 239 239 (runInit (hwResetPulse (driveBacklight (markSetupDone s))))))

/-- SETUP's body faults on a second setup and otherwise runs (R114, R115). -/
theorem setupBody_eq (s : State) :
    setupBody s = if s.setupDone = true then .fault .setupRepeated else .next (setupState s) := by
  unfold setupBody setupState
  split <;> simp [fillRaw_eq, andThen]

/-- Acceptance (R130): CONCURRENT_OP while busy; otherwise the body runs with busy set, and busy is cleared after it. -/
theorem accept_eq (body : State → Result) (s : State) :
    accept body s =
      if s.busy = true then .fault .concurrentOp
      else match body (beginOp s) with
        | .next t => .next (endOp t)
        | .fault e => .fault e
        | .refused e => .refused e := by
  unfold accept andThen; split <;> rfl

/-- An accepted operation whose body gives a next state. -/
theorem accept_next {body : State → Result} {s t : State} (hb : s.busy = false) (h : body (beginOp s) = .next t) :
    accept body s = .next (endOp t) := by
  simp [accept_eq, hb, h]

/-! The sequencer (R93, R94). -/

@[simp] theorem writePayload_trace (ps : List Byte) (s : State) :
    (writePayload ps s).trace = s.trace ++ ps.flatMap (fun p => txnEvents .data [p]) := by
  induction ps generalizing s with
  | nil => simp [writePayload]
  | cons p ps ih => simp [writePayload, ih]

@[simp] theorem writePayload_cs (ps : List Byte) (s : State) (h : s.cs = .deasserted) :
    (writePayload ps s).cs = .deasserted := by
  induction ps generalizing s with
  | nil => exact h
  | cons p ps ih => exact ih _ (by simp)

@[simp] theorem writePayload_rst (ps : List Byte) (s : State) : (writePayload ps s).rst = s.rst := by
  induction ps generalizing s with
  | nil => rfl
  | cons p ps ih => simp [writePayload, ih]

@[simp] theorem writePayload_bl (ps : List Byte) (s : State) : (writePayload ps s).bl = s.bl := by
  induction ps generalizing s with
  | nil => rfl
  | cons p ps ih => simp [writePayload, ih]

theorem writePayload_sclk (ps : List Byte) (s : State) (h : s.sclk = .low) : (writePayload ps s).sclk = .low := by
  induction ps generalizing s with
  | nil => exact h
  | cons p ps ih => exact ih _ (txn_sclk _ _ _ h)

theorem writePayload_dc (ps : List Byte) (s : State) :
    (writePayload ps s).dc = if ps = [] then s.dc else .data := by
  induction ps generalizing s with
  | nil => rfl
  | cons p ps ih => simp [writePayload, ih]

@[simp] theorem runStep_trace (st : InitStep) (s : State) : (runStep st s).trace = s.trace ++ stepEvents st := by
  simp [runStep, stepEvents]

@[simp] theorem runStep_cs (st : InitStep) (s : State) : (runStep st s).cs = .deasserted := by
  simp [runStep]

@[simp] theorem runStep_rst (st : InitStep) (s : State) : (runStep st s).rst = s.rst := by simp [runStep]

@[simp] theorem runStep_bl (st : InitStep) (s : State) : (runStep st s).bl = s.bl := by simp [runStep]

theorem runStep_sclk (st : InitStep) (s : State) (h : s.sclk = .low) : (runStep st s).sclk = .low := by
  simpa [runStep] using writePayload_sclk st.payload (writeCmd st.cmd s) (txn_sclk _ _ _ h)

theorem runStep_dc (st : InitStep) (s : State) : (runStep st s).dc = if st.payload = [] then .cmd else .data := by
  simp [runStep, writePayload_dc]

@[simp] theorem runSteps_trace (l : List InitStep) (s : State) :
    (runSteps l s).trace = s.trace ++ l.flatMap stepEvents := by
  induction l generalizing s with
  | nil => simp [runSteps]
  | cons st l ih => simp [runSteps, ih]

@[simp] theorem runSteps_rst (l : List InitStep) (s : State) : (runSteps l s).rst = s.rst := by
  induction l generalizing s with
  | nil => rfl
  | cons st l ih => simp [runSteps, ih]

@[simp] theorem runSteps_bl (l : List InitStep) (s : State) : (runSteps l s).bl = s.bl := by
  induction l generalizing s with
  | nil => rfl
  | cons st l ih => simp [runSteps, ih]

theorem runSteps_cs (l : List InitStep) (s : State) (h : s.cs = .deasserted) : (runSteps l s).cs = .deasserted := by
  induction l generalizing s with
  | nil => exact h
  | cons st l ih => exact ih _ (by simp)

theorem runSteps_sclk (l : List InitStep) (s : State) (h : s.sclk = .low) : (runSteps l s).sclk = .low := by
  induction l generalizing s with
  | nil => exact h
  | cons st l ih => exact ih _ (runStep_sclk st s h)

@[simp] theorem runInit_trace (s : State) : (runInit s).trace = s.trace ++ s.cfg.initTable.flatMap stepEvents := by
  simp [runInit]

@[simp] theorem runInit_rst (s : State) : (runInit s).rst = s.rst := by simp [runInit]

@[simp] theorem runInit_bl (s : State) : (runInit s).bl = s.bl := by simp [runInit]

theorem runInit_cs (s : State) (h : s.cs = .deasserted) : (runInit s).cs = .deasserted := runSteps_cs _ _ h

theorem runInit_sclk (s : State) (h : s.sclk = .low) : (runInit s).sclk = .low := runSteps_sclk _ _ h

/-! The pins (R86, R87). -/

/-- DRIVE_BACKLIGHT drives bl high when the pin is there, and does nothing otherwise (R86). -/
theorem driveBacklight_eq (s : State) :
    driveBacklight s =
      if s.cfg.hasBl = true then { s with bl := .high, trace := s.trace ++ [.blHigh] } else s := by
  unfold driveBacklight; split <;> rfl

/-- The reset pulse leaves rst inactive and every other signal as it was (R87). -/
theorem hwResetPulse_trace (s : State) :
    (hwResetPulse s).trace = s.trace ++ (if s.cfg.hasRst = true then resetPulseEvents s.cfg.rstPulseMs else []) := by
  unfold hwResetPulse; split <;> simp

theorem hwResetPulse_eq (s : State) (h : s.cfg.hasRst = true) :
    hwResetPulse s =
      { s with
        rst := .inactive
        trace := s.trace ++ resetPulseEvents s.cfg.rstPulseMs
        panel := (hwResetPulse s).panel
        freeTick := s.freeTick + 3 } := by
  simp only [hwResetPulse, h, if_true, resetPulseEvents, emitAll_append]
  have w : ∀ d (u : State), emitAll (waitEvents d) u = waitMs d u := fun _ _ => rfl
  simp [w, waitMs_eq, emit, applyEvent]

theorem hwResetPulse_rst (s : State) (h : s.rst = .inactive) : (hwResetPulse s).rst = .inactive := by
  by_cases hr : s.cfg.hasRst = true
  · rw [hwResetPulse_eq s hr]
  · simpa [hwResetPulse, hr] using h

end Sys2Proof.Machine
end

