-- ==== Sys2Proof/Laws/Panel.lean ====
section
/-! SUPPORT. The panel through a transaction: what it receives byte by byte, the canonical form of its memory, the window
it holds after SET_WINDOW, and the pixel stream after 0x2C. -/

namespace Sys2Proof.Machine

/-! Reception byte by byte. -/

/-- The panel after the bytes of one transaction, the count of free values starting at `tick`. -/
def panelReceiveAll (tick : Nat) (rst : ResetLine) (l : Mode) : List Byte → Panel → Panel
  | [], p => p
  | b :: bs, p => panelReceiveAll (tick + 1) rst l bs (panelReceive tick rst l b p)

theorem panelReceiveAll_append (tick : Nat) (rst : ResetLine) (l : Mode) (bs cs : List Byte) (p : Panel) :
    panelReceiveAll tick rst l (bs ++ cs) p =
      panelReceiveAll (tick + bs.length) rst l cs (panelReceiveAll tick rst l bs p) := by
  induction bs generalizing tick p with
  | nil => rfl
  | cons b bs ih => simp only [List.cons_append, panelReceiveAll, ih, List.length_cons]; congr 1; omega

theorem emitAll_bytes_panel (bs : List Byte) (s : State) (h : s.cs = .asserted) :
    (emitAll (bs.map .byte) s).panel = panelReceiveAll s.freeTick s.rst s.dc bs s.panel ∧
    (emitAll (bs.map .byte) s).freeTick = s.freeTick + bs.length := by
  induction bs generalizing s with
  | nil => exact ⟨rfl, rfl⟩
  | cons b bs ih =>
    obtain ⟨h1, h2⟩ := ih (emit (.byte b) s) (by simpa using h)
    refine ⟨?_, ?_⟩
    · simpa [panelReceiveAll, h] using h1
    · simp only [List.map_cons, emitAll_cons, h2, emit_byte_freeTick, List.length_cons]; omega

/-- The panel after a transaction. -/
theorem txn_panel (l : Mode) (bs : List Byte) (s : State) :
    (txn l bs s).panel = panelReceiveAll s.freeTick s.rst l bs s.panel := by
  simp only [txn_eq, emit_cs_panel]
  exact (emitAll_bytes_panel bs _ rfl).1

/-- A transaction draws one free value for each byte. -/
theorem txn_freeTick (l : Mode) (bs : List Byte) (s : State) : (txn l bs s).freeTick = s.freeTick + bs.length := by
  simp only [txn_eq, emit_cs_freeTick]
  exact (emitAll_bytes_panel bs _ rfl).2

/-! The forbidden interval (R57). -/

theorem panelBlocked_eq_false (rst : ResetLine) (p : Panel) :
    panelBlocked rst p = false ↔ rst = .inactive ∧ p.settle = 0 := by
  cases rst <;> simp [panelBlocked]

/-- Outside the forbidden interval a command byte is taken as R49 says. -/
theorem panelReceive_cmd {tick : Nat} {rst : ResetLine} {b : Byte} {p : Panel} (h : panelBlocked rst p = false) :
    panelReceive tick rst .cmd b p = panelCommandByte b p := by
  simp [panelReceive, h]

/-- Outside the forbidden interval a data byte is taken as R50, R51 and R54 say. -/
theorem panelReceive_data {tick : Nat} {rst : ResetLine} {b : Byte} {p : Panel} (h : panelBlocked rst p = false) :
    panelReceive tick rst .data b p = panelDataByte tick b p := by
  simp [panelReceive, h]

/-! The canonical form is kept by everything the panel does. -/

theorem gramWf_gramAfterPixel {p : Panel} (v : U16) (h : gramWf p.gram) :
    gramWf (gramAfterPixel p.gram (pixelTarget p) v) := by
  unfold pixelTarget
  split
  · exact gramWf_nil
  · split
    · rename_i hc
      exact gramWf_gramWrite16 h (cellAddr_lt hc.1 hc.2)
    · exact h

@[simp] theorem panelAdvance_gram (p : Panel) : (panelAdvance p).gram = p.gram := by
  unfold panelAdvance; split <;> rfl

theorem gramWf_panelDataEffect {tick : Nat} {c b : Byte} {p : Panel} (h : gramWf p.gram) :
    gramWf (panelDataEffect tick c b p).gram := by
  unfold panelDataEffect
  split
  · unfold panelColumnByte panelFreeWindow; split <;> exact h
  · split
    · unfold panelRowByte panelFreeWindow; split <;> exact h
    · split
      · unfold panelPixelByte
        split
        · exact h
        · simpa using gramWf_gramAfterPixel _ h
      · exact h

theorem gramWf_panelCommandByte {b : Byte} {p : Panel} (h : gramWf p.gram) : gramWf (panelCommandByte b p).gram := by
  simp only [panelCommandByte]; split
  · exact h
  · exact h

theorem gramWf_panelDataByte {tick : Nat} {b : Byte} {p : Panel} (h : gramWf p.gram) :
    gramWf (panelDataByte tick b p).gram := by
  unfold panelDataByte
  cases p.cmd with
  | none => exact h
  | some c => exact gramWf_panelDataEffect h

theorem gramWf_panelReceive {tick : Nat} {rst : ResetLine} {l : Mode} {b : Byte} {p : Panel} (h : gramWf p.gram) :
    gramWf (panelReceive tick rst l b p).gram := by
  unfold panelReceive
  split
  · exact gramWf_nil
  · cases l with
    | cmd => exact gramWf_panelCommandByte h
    | data => exact gramWf_panelDataByte h

/-- Every bus event keeps the canonical form of the frame memory. -/
theorem gramWf_emit (e : BusEvent) {s : State} (h : gramWf s.panel.gram) : gramWf (emit e s).panel.gram := by
  cases e with
  | dc l => exact h
  | cs v => exact h
  | byte b => rw [emit_byte_panel]; split; exacts [gramWf_panelReceive h, h]
  | wait d => exact h
  | blHigh => exact h
  | rst a =>
    rw [emit_rst_panel]
    cases a with
    | active => exact gramWf_nil
    | inactive => simp only [panelResetPin]; split <;> exact h

theorem gramWf_emitAll (es : List BusEvent) {s : State} (h : gramWf s.panel.gram) :
    gramWf (emitAll es s).panel.gram := by
  induction es generalizing s with
  | nil => exact h
  | cons e es ih => exact ih (gramWf_emit e h)

/-! One-byte transactions while the controller is accepting. -/

theorem writeCmd_panel {c : Byte} {s : State} (h : panelBlocked s.rst s.panel = false) :
    (writeCmd c s).panel = panelCommandByte c s.panel := by
  simp [writeCmd, txn_panel, panelReceiveAll, panelReceive_cmd h]

theorem writeData8_panel {d : Byte} {s : State} (h : panelBlocked s.rst s.panel = false) :
    (writeData8 d s).panel = panelDataByte s.freeTick d s.panel := by
  simp [writeData8, txn_panel, panelReceiveAll, panelReceive_data h]

@[simp] theorem panelDataByte_settle (tick : Nat) (b : Byte) (p : Panel) :
    (panelDataByte tick b p).settle = p.settle := by
  unfold panelDataByte
  split
  · rfl
  · simp only [panelDataEffect]
    split
    · unfold panelColumnByte panelFreeWindow; split <;> rfl
    · split
      · unfold panelRowByte panelFreeWindow; split <;> rfl
      · split
        · unfold panelPixelByte panelAdvance; split
          · rfl
          · split <;> rfl
        · rfl

@[simp] theorem panelCommandByte_settle (b : Byte) (p : Panel) :
    (panelCommandByte b p).settle = settleAfterCommand b p.settle := by
  simp only [panelCommandByte]; split <;> rfl

/-- Data bytes leave the settle time alone, whatever the panel holds. -/
theorem panelReceiveAll_data_settle (tick : Nat) (rst : ResetLine) (bs : List Byte) (p : Panel) :
    (panelReceiveAll tick rst .data bs p).settle = p.settle := by
  induction bs generalizing tick p with
  | nil => rfl
  | cons b bs ih =>
    rw [panelReceiveAll, ih]
    unfold panelReceive; split <;> simp [panelUnspecified]

/-! The window the panel holds after SET_WINDOW (R50, R102). -/

theorem joinBytes_lo8_setHi8 (v w : U16) : setLo8 (setHi8 v (hi8 w)) (lo8 w) = w := by
  simp [setLo8, setHi8]

theorem zext16_toNat {k : Nat} (h : k < 240) : (zext16 k).toNat = k := by
  simp only [zext16, BitVec.toNat_ofNat]; omega

/-- After SET_WINDOW the panel holds the window, its pointer is at the window's origin, and it waits for a pixel. -/
theorem sendWindow_panel {x1 y1 x2 y2 : Nat} {s : State} (h : panelBlocked s.rst s.panel = false)
    (hx1 : x1 < 240) (hy1 : y1 < 240) :
    (sendWindow x1 y1 x2 y2 s).panel =
      { s.panel with
        cmd := some 0x2C, pidx := 0, xs := zext16 x1, xe := zext16 x2, ys := zext16 y1, ye := zext16 y2,
        wc := x1, wr := y1, half := .hi } := by
  obtain ⟨hr, hs⟩ := (panelBlocked_eq_false _ _).1 h
  simp [sendWindow, writeCmd, writeData16, txn_panel, panelReceiveAll, panelReceive, panelBlocked, hr, hs,
    panelCommandByte, panelDataByte, panelDataEffect, panelColumnByte, panelRowByte, settleAfterCommand, startsSettle,
    bytes16, joinBytes_lo8_setHi8, zext16_toNat hx1, zext16_toNat hy1]

/-! The pixel stream after 0x2C (R51). -/

/-- The bytes of a list of pixels (R34). -/
def pixelBytes (ps : List U16) : List Byte := ps.flatMap bytes16

/-- The panel takes pixels inside a legal window and its pointer has reached pixel number m of it. -/
structure InStream (x1 y1 x2 y2 m : Nat) (p : Panel) : Prop where
  cmd : p.cmd = some 0x2C
  half : p.half = .hi
  settle : p.settle = 0
  xs : p.xs.toNat = x1
  xe : p.xe.toNat = x2
  ys : p.ys.toNat = y1
  ye : p.ye.toNat = y2
  wc : p.wc = x1 + m % (x2 - x1 + 1)
  wr : p.wr = y1 + m / (x2 - x1 + 1)

theorem inStream_sendWindow {x1 y1 x2 y2 : Nat} {s : State} (h : panelBlocked s.rst s.panel = false)
    (hx : x1 ≤ x2) (hx2 : x2 < 240) (hy : y1 ≤ y2) (hy2 : y2 < 240) :
    InStream x1 y1 x2 y2 0 (sendWindow x1 y1 x2 y2 s).panel := by
  rw [sendWindow_panel h (by omega) (by omega)]
  have hs := ((panelBlocked_eq_false _ _).1 h).2
  constructor <;> simp [hs, zext16_toNat, show x1 < 240 by omega, show y1 < 240 by omega, hx2, hy2]

/-- The first byte of a pixel is latched (R51). -/
theorem panelReceive_pixel_hi {tick : Nat} {b : Byte} {p : Panel} (hs : p.settle = 0) (hc : p.cmd = some 0x2C)
    (hh : p.half = .hi) :
    panelReceive tick .inactive .data b p = { p with hiLatch := b, half := .lo, pidx := p.pidx + 1 } := by
  simp [panelReceive, panelBlocked, hs, panelDataByte, hc, panelDataEffect, panelPixelByte, hh]

/-- The second byte of a pixel stores it and advances the pointer (R51). -/
theorem panelReceive_pixel_lo {tick : Nat} {b : Byte} {p : Panel} (hs : p.settle = 0) (hc : p.cmd = some 0x2C)
    (hh : p.half = .lo) :
    panelReceive tick .inactive .data b p =
      { panelAdvance { p with gram := gramAfterPixel p.gram (pixelTarget p) (joinBytes p.hiLatch b), half := .hi } with
        pidx := p.pidx + 1 } := by
  simp [panelReceive, panelBlocked, hs, panelDataByte, hc, panelDataEffect, panelPixelByte, hh]

/-- One pixel inside the window: it is stored at the pointer's cell, and the pointer moves to the next (R51). -/
theorem inStream_pixel {x1 y1 x2 y2 m tick : Nat} {p : Panel} {v : U16} (hx : x1 ≤ x2) (hx2 : x2 < 240) (hy : y1 ≤ y2)
    (hy2 : y2 < 240) (hp : InStream x1 y1 x2 y2 m p) (hm : m < (x2 - x1 + 1) * (y2 - y1 + 1)) :
    InStream x1 y1 x2 y2 (m + 1) (panelReceiveAll tick .inactive .data (bytes16 v) p) ∧
    (panelReceiveAll tick .inactive .data (bytes16 v) p).gram =
      gramWrite16 p.gram (cellAddr (x1 + m % (x2 - x1 + 1)) (y1 + m / (x2 - x1 + 1))) v := by
  obtain ⟨cmd, half, settle, xs, xe, ys, ye, wc, wr⟩ := hp
  set W := x2 - x1 + 1 with hW
  have hW0 : 0 < W := by omega
  have hmod : m % W < W := Nat.mod_lt _ hW0
  have hdiv : m / W < y2 - y1 + 1 := Nat.div_lt_of_lt_mul hm
  have ht : pixelTarget { p with hiLatch := hi8 v, half := .lo, pidx := p.pidx + 1 } =
      .cell (cellAddr (x1 + m % W) (y1 + m / W)) := by
    have o : ¬ (p.ye.toNat < p.wr ∨ panelWindowOutside { p with hiLatch := hi8 v, half := .lo, pidx := p.pidx + 1 } = true) := by
      simp only [panelWindowOutside, xs, xe, ys, ye, wr, Bool.or_eq_true, decide_eq_true_eq]; omega
    have i : p.wc < 240 ∧ p.wr < 240 := by rw [wc, wr]; omega
    simp only [pixelTarget]
    rw [if_neg o, if_pos i, wc, wr]
  have e2 : panelReceiveAll tick .inactive .data (bytes16 v) p =
      { panelAdvance { p with
          hiLatch := hi8 v
          pidx := p.pidx + 1
          gram := gramWrite16 p.gram (cellAddr (x1 + m % W) (y1 + m / W)) v
          half := .hi } with pidx := p.pidx + 1 + 1 } := by
    simp only [bytes16, panelReceiveAll]
    rw [panelReceive_pixel_hi settle cmd half, panelReceive_pixel_lo (by exact settle) (by exact cmd) rfl, ht]
    simp [gramAfterPixel]
  rw [e2]
  refine ⟨?_, by simp⟩
  have hcase : (m % W + 1 = W ∧ (m + 1) % W = 0 ∧ (m + 1) / W = m / W + 1) ∨
      (m % W + 1 < W ∧ (m + 1) % W = m % W + 1 ∧ (m + 1) / W = m / W) := by
    have hd := Nat.div_add_mod m W
    by_cases hl : m % W + 1 = W
    · have : m + 1 = W * (m / W + 1) := by rw [Nat.mul_add]; omega
      refine .inl ⟨hl, by rw [this]; simp, by rw [this, Nat.mul_div_cancel_left _ hW0]⟩
    · have h1 : m % W + 1 < W := by omega
      have : m + 1 = (m % W + 1) + W * (m / W) := by omega
      refine .inr ⟨h1, ?_, ?_⟩
      · rw [this, Nat.add_mul_mod_self_left, Nat.mod_eq_of_lt h1]
      · rw [this, Nat.add_mul_div_left _ _ hW0, Nat.div_eq_of_lt h1]; omega
  unfold panelAdvance
  split
  · rename_i h1
    have h1 : p.xe.toNat < p.wc + 1 := h1
    rw [xe, wc] at h1
    rcases hcase with ⟨-, hc2, hc3⟩ | ⟨hc1, -, -⟩
    · constructor <;> simp_all
      omega
    · omega
  · rename_i h1
    have h1 : ¬ p.xe.toNat < p.wc + 1 := h1
    rw [xe, wc] at h1
    rcases hcase with ⟨hc1, -, -⟩ | ⟨-, hc2, hc3⟩
    · omega
    · constructor <;> simp_all
      omega

/-- Distinct pixels of a window lie in distinct cells. -/
theorem pixelAddr_ne {x1 y1 x2 m n : Nat} (hx : x1 ≤ x2) (hx2 : x2 < 240) (h : m ≠ n) :
    cellAddr (x1 + m % (x2 - x1 + 1)) (y1 + m / (x2 - x1 + 1)) ≠
      cellAddr (x1 + n % (x2 - x1 + 1)) (y1 + n / (x2 - x1 + 1)) := by
  have hm := Nat.mod_lt m (show 0 < x2 - x1 + 1 by omega)
  have hn := Nat.mod_lt n (show 0 < x2 - x1 + 1 by omega)
  intro e
  obtain ⟨e1, e2⟩ := (cellAddr_inj (by omega) (by omega)).1 e
  have e3 : m % (x2 - x1 + 1) = n % (x2 - x1 + 1) := by omega
  have e4 : m / (x2 - x1 + 1) = n / (x2 - x1 + 1) := by omega
  exact h (by rw [← Nat.div_add_mod m (x2 - x1 + 1), ← Nat.div_add_mod n (x2 - x1 + 1), e3, e4])

/-- A list of pixels that the window still has room for: each is stored at its cell, row-major, no other byte of the
frame memory changes, and the pointer moves past them (R51). -/
theorem inStream_pixels {x1 y1 x2 y2 m tick : Nat} {p : Panel} {ps : List U16} (hx : x1 ≤ x2) (hx2 : x2 < 240)
    (hy : y1 ≤ y2) (hy2 : y2 < 240) (hp : InStream x1 y1 x2 y2 m p)
    (hm : m + ps.length ≤ (x2 - x1 + 1) * (y2 - y1 + 1)) :
    InStream x1 y1 x2 y2 (m + ps.length) (panelReceiveAll tick .inactive .data (pixelBytes ps) p) ∧
    (∀ k, k < ps.length →
      gramCell (panelReceiveAll tick .inactive .data (pixelBytes ps) p).gram
        (x1 + (m + k) % (x2 - x1 + 1)) (y1 + (m + k) / (x2 - x1 + 1)) = ps[k]?) ∧
    (∀ a, (∀ k, k < ps.length →
        a ≠ cellAddr (x1 + (m + k) % (x2 - x1 + 1)) (y1 + (m + k) / (x2 - x1 + 1)) ∧
        a ≠ cellAddr (x1 + (m + k) % (x2 - x1 + 1)) (y1 + (m + k) / (x2 - x1 + 1)) + 1) →
      gramRead (panelReceiveAll tick .inactive .data (pixelBytes ps) p).gram a = gramRead p.gram a) := by
  induction ps generalizing m tick p with
  | nil => exact ⟨hp, by simp, fun a _ => rfl⟩
  | cons v ps ih =>
    simp only [List.length_cons] at hm
    obtain ⟨h1, h2⟩ := inStream_pixel (tick := tick) (v := v) hx hx2 hy hy2 hp (by omega)
    have e : panelReceiveAll tick .inactive .data (pixelBytes (v :: ps)) p =
        panelReceiveAll (tick + 2) .inactive .data (pixelBytes ps)
          (panelReceiveAll tick .inactive .data (bytes16 v) p) := by
      simp only [pixelBytes, List.flatMap_cons, panelReceiveAll_append]; rfl
    rw [e]
    obtain ⟨i1, i2, i3⟩ := ih (tick := tick + 2) h1 (by omega)
    have hs : ∀ k, m + 1 + k = m + (k + 1) := fun k => by omega
    simp only [hs] at i2 i3
    have hl : ∀ k, k < ps.length + 1 → m + k < (x2 - x1 + 1) * (y2 - y1 + 1) := fun k hk => by omega
    have hn : m + (v :: ps).length = m + 1 + ps.length := by simp only [List.length_cons]; omega
    rw [hn]
    refine ⟨i1, fun k hk => ?_, fun a ha => ?_⟩
    · cases k with
      | succ k => simpa using i2 k (by simpa using hk)
      | zero =>
        have g : ∀ a, a = cellAddr (x1 + m % (x2 - x1 + 1)) (y1 + m / (x2 - x1 + 1)) ∨
            a = cellAddr (x1 + m % (x2 - x1 + 1)) (y1 + m / (x2 - x1 + 1)) + 1 →
            gramRead (panelReceiveAll (tick + 2) .inactive .data (pixelBytes ps)
              (panelReceiveAll tick .inactive .data (bytes16 v) p)).gram a =
            gramRead (panelReceiveAll tick .inactive .data (bytes16 v) p).gram a := by
          intro a ha
          refine i3 a fun k _ => ?_
          have n := pixelAddr_ne (y1 := y1) (m := m) (n := m + (k + 1)) hx hx2 (by omega)
          simp only [cellAddr] at n ha ⊢
          omega
        have g0 := g _ (.inl rfl)
        have g1 := g _ (.inr rfl)
        simp only [gramCell, Nat.add_zero, g0, g1, h2, gramRead_gramWrite16]
        simp
    · rw [i3 a fun k hk => ha (k + 1) (by simpa using hk), h2, gramRead_gramWrite16]
      have := ha 0 (by simp)
      simp only [Nat.add_zero] at this
      rw [if_neg this.1, if_neg this.2]

/-- A repeated-colour run is the byte string of its pixels (R84). -/
theorem runBytes_eq_pixelBytes (v : U16) (n : Nat) : runBytes v n = pixelBytes (List.replicate n v) := by
  induction n with
  | zero => rfl
  | succ n ih => rw [runBytes_succ, ih]; rfl

/-- The whole panel filled in an accepting controller: every cell holds the colour, no byte outside the frame memory
changes, and the pointer has passed the window (R59). Its result is stated of any state with that panel, so that no
proof asks the kernel to evaluate the run. -/
theorem fullFill_panel {v : U16} {s t : State} (h : panelBlocked s.rst s.panel = false)
    (ht : t.panel = (writeColorRun v panelPixels (sendWindow 0 0 239 239 s)).panel) :
    InStream 0 0 239 239 57600 t.panel ∧
    (∀ col row, col < 240 → row < 240 → gramCell t.panel.gram col row = some v) ∧
    (∀ a, 115200 ≤ a → gramRead t.panel.gram a = gramRead s.panel.gram a) := by
  have hr := ((panelBlocked_eq_false _ _).1 h).1
  have hp := inStream_sendWindow (x1 := 0) (x2 := 239) (y1 := 0) (y2 := 239) h (by omega) (by omega) (by omega) (by omega)
  obtain ⟨h1, h2, h3⟩ := inStream_pixels (tick := (sendWindow 0 0 239 239 s).freeTick) (ps := List.replicate 57600 v)
    (by omega) (by omega) (by omega) (by omega) hp (by rw [List.length_replicate])
  have e : t.panel = panelReceiveAll (sendWindow 0 0 239 239 s).freeTick .inactive .data
      (pixelBytes (List.replicate 57600 v)) (sendWindow 0 0 239 239 s).panel := by
    rw [ht, writeColorRun, txn_panel, runBytes_eq_pixelBytes, sendWindow_rst, hr]; rfl
  rw [List.length_replicate] at h1 h2 h3
  rw [e]
  refine ⟨by rwa [Nat.zero_add] at h1, fun col row hc hrw => ?_, fun a ha => ?_⟩
  · have := h2 (240 * row + col) (by omega)
    rw [show (0 + (0 + (240 * row + col)) % (239 - 0 + 1)) = col by omega,
      show (0 + (0 + (240 * row + col)) / (239 - 0 + 1)) = row by omega] at this
    rw [this, List.getElem?_replicate, if_pos (by omega)]
  · rw [h3 a fun k hk => by simp only [cellAddr]; omega]
    rw [sendWindow_panel h (by omega) (by omega)]

/-- Data after a command other than 0x2A, 0x2B and 0x2C is counted and does nothing else (R54). -/
theorem panelReceiveAll_other {c : Byte} {tick : Nat} {bs : List Byte} {p : Panel} (hs : p.settle = 0)
    (h : p.cmd = some c) (h1 : c ≠ 0x2A) (h2 : c ≠ 0x2B) (h3 : c ≠ 0x2C) :
    panelReceiveAll tick .inactive .data bs p = { p with pidx := p.pidx + bs.length } := by
  induction bs generalizing tick p with
  | nil => rfl
  | cons b bs ih =>
    rw [panelReceiveAll, panelReceive_data (by rw [panelBlocked_eq_false]; simp [hs])]
    have e : panelDataByte tick b p = { p with pidx := p.pidx + 1 } := by
      simp only [panelDataByte, h, panelDataEffect]
      rw [if_neg h1, if_neg h2, if_neg h3, ← h]
    rw [e, ih (by exact hs) (by exact h)]
    simp only [List.length_cons, ← Nat.add_assoc, Nat.add_right_comm, h]

/-- The panel after a payload sent byte by byte is the panel after its bytes (R53, R93). -/
theorem writePayload_panel (ps : List Byte) (s : State) (hr : s.rst = .inactive) :
    (writePayload ps s).panel = panelReceiveAll s.freeTick .inactive .data ps s.panel := by
  induction ps generalizing s with
  | nil => rfl
  | cons p ps ih =>
    rw [writePayload, ih _ (by simpa using hr), writeData8, txn_panel, txn_freeTick, hr]
    rfl

/-- Transaction boundaries do not end a command: the panel after data transactions is the panel after their bytes, in any
grouping (R53). -/
theorem emitAll_data_groups {α : Type} (groups : List α) (f : α → List Byte) (s : State) (hr : s.rst = .inactive) :
    (emitAll (groups.flatMap fun g => txnEvents .data (f g)) s).panel =
      panelReceiveAll s.freeTick .inactive .data (groups.flatMap f) s.panel := by
  induction groups generalizing s with
  | nil => rfl
  | cons g gs ih =>
    simp only [List.flatMap_cons, emitAll_append, panelReceiveAll_append]
    have e : emitAll (txnEvents .data (f g)) s = txn .data (f g) s := rfl
    have i := ih (txn .data (f g) s) (by simpa using hr)
    rw [txn_panel, txn_freeTick, hr] at i
    rw [e, i]

end Sys2Proof.Machine
end

