-- ==== Sys2Proof/Laws/Exec.lean ====
section
/-! SUPPORT. Every instruction at the bus: the one list of events it emits, and that its next state is, at the bus and the
panel, the state after those events. Proofs over all instructions cite this and open no meaning again. -/

namespace Sys2Proof.Machine

/-- Two states agree at the bus: the signals, the trace, the panel and the count of free values. -/
structure SameBus (t u : State) : Prop where
  dc : t.dc = u.dc
  cs : t.cs = u.cs
  rst : t.rst = u.rst
  bl : t.bl = u.bl
  sclk : t.sclk = u.sclk
  mosi : t.mosi = u.mosi
  trace : t.trace = u.trace
  panel : t.panel = u.panel
  freeTick : t.freeTick = u.freeTick

theorem SameBus.refl (s : State) : SameBus s s := ⟨rfl, rfl, rfl, rfl, rfl, rfl, rfl, rfl, rfl⟩

theorem SameBus.trans {s t u : State} (h : SameBus s t) (g : SameBus t u) : SameBus s u :=
  ⟨h.dc.trans g.dc, h.cs.trans g.cs, h.rst.trans g.rst, h.bl.trans g.bl, h.sclk.trans g.sclk, h.mosi.trans g.mosi,
    h.trace.trans g.trace, h.panel.trans g.panel, h.freeTick.trans g.freeTick⟩

/-- An event does to the bus what the bus alone decides. -/
theorem SameBus.emit {s t : State} (e : BusEvent) (h : SameBus s t) : SameBus (emit e s) (emit e t) := by
  obtain ⟨h1, h2, h3, h4, h5, h6, h7, h8, h9⟩ := h
  cases e <;> constructor <;> simp_all

theorem SameBus.emitAll {s t : State} (es : List BusEvent) (h : SameBus s t) :
    SameBus (emitAll es s) (emitAll es t) := by
  induction es generalizing s t with
  | nil => exact h
  | cons e es ih => exact ih (h.emit e)

theorem sameBus_beginOp (s : State) : SameBus (beginOp s) s := by constructor <;> simp
theorem sameBus_endOp (s : State) : SameBus (endOp s) s := by constructor <;> simp
theorem sameBus_markReady (s : State) : SameBus (markReady s) s := by constructor <;> simp
theorem sameBus_markSetupDone (s : State) : SameBus (markSetupDone s) s := by constructor <;> simp

/-! The shared operations as lists of events. -/

theorem txn_emitAll (l : Mode) (bs : List Byte) (s : State) : txn l bs s = emitAll (txnEvents l bs) s := rfl

theorem waitMs_emitAll (d : Nat) (s : State) : waitMs d s = emitAll (waitEvents d) s := rfl

theorem writePayload_emitAll (ps : List Byte) (s : State) :
    writePayload ps s = emitAll (ps.flatMap fun p => txnEvents .data [p]) s := by
  induction ps generalizing s with
  | nil => rfl
  | cons p ps ih => simp only [writePayload, ih, List.flatMap_cons, emitAll_append, writeData8, txn_emitAll]

theorem runStep_emitAll (st : InitStep) (s : State) : runStep st s = emitAll (stepEvents st) s := by
  simp only [runStep, stepEvents, emitAll_append, writePayload_emitAll, waitMs_emitAll, writeCmd, txn_emitAll]

theorem runSteps_sameBus (l : List InitStep) (s : State) :
    SameBus (runSteps l s) (emitAll (l.flatMap stepEvents) s) := by
  induction l generalizing s with
  | nil => exact .refl s
  | cons st l ih =>
    simp only [runSteps, List.flatMap_cons, emitAll_append, ← runStep_emitAll]
    refine (ih _).trans (SameBus.emitAll _ ?_)
    exact ⟨rfl, rfl, rfl, rfl, rfl, rfl, rfl, rfl, rfl⟩

theorem runInit_sameBus (s : State) : SameBus (runInit s) (emitAll (s.cfg.initTable.flatMap stepEvents) s) := by
  refine (runSteps_sameBus _ _).trans (SameBus.emitAll _ ?_)
  exact ⟨rfl, rfl, rfl, rfl, rfl, rfl, rfl, rfl, rfl⟩

theorem sendWindow_emitAll (x1 y1 x2 y2 : Nat) (s : State) :
    sendWindow x1 y1 x2 y2 s = emitAll (windowEvents x1 y1 x2 y2) s := by
  simp only [sendWindow, windowEvents, emitAll_append, writeCmd, writeData16, txn_emitAll]

/-- The events of DRIVE_BACKLIGHT (R86). -/
def backlightEvents (c : Config) : List BusEvent := if c.hasBl = true then [.blHigh] else []

/-- The events of HW_RESET_PULSE (R87). -/
def hwResetEvents (c : Config) : List BusEvent := if c.hasRst = true then resetPulseEvents c.rstPulseMs else []

theorem driveBacklight_emitAll (s : State) : driveBacklight s = emitAll (backlightEvents s.cfg) s := by
  unfold driveBacklight backlightEvents; split <;> rfl

theorem hwResetPulse_emitAll (s : State) : hwResetPulse s = emitAll (hwResetEvents s.cfg) s := by
  unfold hwResetPulse hwResetEvents; split <;> rfl

/-- The events of SETUP (R121). -/
def setupEvents (c : Config) : List BusEvent :=
  backlightEvents c ++ hwResetEvents c ++ c.initTable.flatMap stepEvents ++
    fullFillEvents (quantizeColor c.initialFillColor.r c.initialFillColor.g c.initialFillColor.b)

/-- A window and a run of the whole panel are the pseudo-line FULLFILL (R76). -/
theorem fullFill_emitAll (v : U16) (s : State) :
    writeColorRun v panelPixels (sendWindow 0 0 239 239 s) = emitAll (fullFillEvents v) s := by
  rw [fullFillEvents, emitAll_append, writeColorRun, txn_emitAll, sendWindow_emitAll]

theorem setupState_sameBus (s : State) : SameBus (setupState s) (emitAll (setupEvents s.cfg) s) := by
  refine (sameBus_markReady _).trans ?_
  rw [fullFill_emitAll, setupEvents, emitAll_append, emitAll_append, emitAll_append]
  refine SameBus.emitAll _ ((runInit_sameBus _).trans ?_)
  simp only [hwResetPulse_emitAll, driveBacklight_emitAll, emitAll_cfg, markSetupDone_cfg]
  exact ((sameBus_markSetupDone s).emitAll _).emitAll _ |>.emitAll _

/-! Every instruction. -/

/-- The events an instruction emits in a state, when it does not stop. -/
def busEvents (i : Instr) (s : State) : List BusEvent :=
  match i with
  | .cmdSoftwareReset => txnEvents .cmd [0x01]
  | .cmdSleepOut => txnEvents .cmd [0x11]
  | .cmdNormalModeOn => txnEvents .cmd [0x13]
  | .cmdInversionOn => txnEvents .cmd [0x21]
  | .cmdDisplayOn => txnEvents .cmd [0x29]
  | .cmdColumnAddressSet => txnEvents .cmd [0x2A]
  | .cmdRowAddressSet => txnEvents .cmd [0x2B]
  | .cmdMemoryWrite => txnEvents .cmd [0x2C]
  | .cmdMemoryAccessControl => txnEvents .cmd [0x36]
  | .cmdPixelFormatSet => txnEvents .cmd [0x3A]
  | .cmdVendor84To87 v => txnEvents .cmd [vendorOpcode84 v]
  | .cmdVendor88To8F v => txnEvents .cmd [vendorOpcode88 v]
  | .cmdVendor90To97 v => txnEvents .cmd [vendorOpcode90 v]
  | .cmdVendor98 => txnEvents .cmd [0x98]
  | .cmdVendorB6 => txnEvents .cmd [0xB6]
  | .cmdVendorBCToBF v => txnEvents .cmd [vendorOpcodeBC v]
  | .cmdVendorC0ToFF v => txnEvents .cmd [vendorOpcodeC0 v]
  | .dataByte d => txnEvents .data [d]
  | .writeCmd c => txnEvents .cmd [c]
  | .writeData8 d => txnEvents .data [d]
  | .writeData16 v => txnEvents .data (bytes16 v)
  | .writeColorRun v n => txnEvents .data (runBytes v n)
  | .waitMs d => waitEvents d.toNat
  | .driveBacklight => backlightEvents s.cfg
  | .hwResetPulse => hwResetEvents s.cfg
  | .execStep st => stepEvents st
  | .runInit => s.cfg.initTable.flatMap stepEvents
  | .setWindow x1 y1 x2 y2 => windowEvents x1 y1 x2 y2
  | .quantize _ _ _ => []
  | .fillRaw r g b => fullFillEvents (quantizeColor r g b)
  | .setup => setupEvents s.cfg
  | .update => []
  | .fill r g b => if s.ready = true then fullFillEvents (quantizeColor r g b) else []
  | .drawPixel x y r g b =>
    if s.ready = true ∧ inBounds x y = true then
      windowEvents (coordNat x) (coordNat y) (coordNat x) (coordNat y) ++ txnEvents .data (bytes16 (quantizeColor r g b))
    else []
  | .getWidth => []
  | .getHeight => []
  | .getIsColor => []
  | .getDiagCount => []

/-- An accepted operation that gives a next state was not busy, and its body gave one (R130). -/
theorem accept_eq_next {body : State → Result} {s t : State} (h : accept body s = .next t) :
    s.busy = false ∧ ∃ u, body (beginOp s) = .next u ∧ t = endOp u := by
  rw [accept_eq] at h
  split at h
  · cases h
  · rename_i hb
    refine ⟨by simpa using hb, ?_⟩
    split at h
    · rename_i u hu; cases h; exact ⟨u, hu, rfl⟩
    · cases h
    · cases h

/-- What an accepted operation does to the bus is what its body does. -/
theorem sameBus_accept {body : State → Result} {s t : State} {es : List BusEvent} (h : accept body s = .next t)
    (hbody : ∀ u, body (beginOp s) = .next u → SameBus u (emitAll es (beginOp s))) : SameBus t (emitAll es s) := by
  obtain ⟨-, u, hu, rfl⟩ := accept_eq_next h
  exact (sameBus_endOp u).trans ((hbody u hu).trans ((sameBus_beginOp s).emitAll es))

theorem sameBus_of_eq {s t u : State} (h : (Host.Outcome.next u : Result) = .next t) (g : SameBus u s) :
    SameBus t s := by
  cases h; exact g

theorem sameBus_txn {l : Mode} {bs : List Byte} {s t : State} (h : (Host.Outcome.next (txn l bs s) : Result) = .next t) :
    SameBus t (emitAll (txnEvents l bs) s) := by
  cases h; exact .refl _

/-- Every instruction that gives a next state gives, at the bus, the state after its events. -/
theorem exec_sameBus {i : Instr} {s t : State} (h : exec i s = .next t) : SameBus t (emitAll (busEvents i s) s) := by
  cases i with
  | driveBacklight => exact sameBus_of_eq h (by rw [driveBacklight_emitAll]; exact .refl _)
  | hwResetPulse => exact sameBus_of_eq h (by rw [hwResetPulse_emitAll]; exact .refl _)
  | execStep st => exact sameBus_of_eq h (by rw [runStep_emitAll]; exact .refl _)
  | runInit => exact sameBus_of_eq h (runInit_sameBus s)
  | setWindow x1 y1 x2 y2 =>
    have h : setWindow x1 y1 x2 y2 s = .next t := h
    rw [setWindow_eq] at h
    split at h
    · exact sameBus_of_eq h (by rw [sendWindow_emitAll]; exact .refl _)
    · cases h
  | fillRaw r g b =>
    have h : fillRaw r g b s = .next t := h
    rw [fillRaw_eq, fullFill_emitAll] at h
    exact sameBus_of_eq h (.refl _)
  | setup =>
    refine sameBus_accept (body := setupBody) h fun u hu => ?_
    rw [setupBody_eq] at hu
    split at hu
    · cases hu
    · exact sameBus_of_eq hu (setupState_sameBus _)
  | update =>
    exact sameBus_accept (body := fun u => .next (countTick u)) h fun u hu =>
      sameBus_of_eq hu (by constructor <;> simp [busEvents])
  | fill r g b =>
    refine sameBus_accept (body := fillBody r g b) h fun u hu => ?_
    rw [fillBody_eq, fullFill_emitAll, beginOp_ready] at hu
    simp only [busEvents]
    by_cases hr : s.ready = true
    · rw [if_pos hr] at hu ⊢
      exact sameBus_of_eq hu (.refl _)
    · rw [if_neg hr] at hu ⊢
      exact sameBus_of_eq hu (.refl _)
  | drawPixel x y r g b =>
    refine sameBus_accept (body := drawPixelBody x y r g b) h fun u hu => ?_
    rw [drawPixelBody_eq, beginOp_ready] at hu
    simp only [busEvents]
    by_cases hr : s.ready = true ∧ inBounds x y = true
    · rw [if_pos hr] at hu ⊢
      refine sameBus_of_eq hu ?_
      rw [emitAll_append, ← sendWindow_emitAll, ← txn_emitAll, writeData16]
      exact .refl _
    · rw [if_neg hr] at hu ⊢
      exact sameBus_of_eq hu (.refl _)
  | quantize r g b => exact sameBus_of_eq h ⟨rfl, rfl, rfl, rfl, rfl, rfl, rfl, rfl, rfl⟩
  | getWidth =>
    exact sameBus_accept (body := fun u => .next (returnValue (.u16 (BitVec.ofNat 16 panelWidth)) u)) h
      fun u hu => sameBus_of_eq hu (by constructor <;> simp [busEvents])
  | getHeight =>
    exact sameBus_accept (body := fun u => .next (returnValue (.u16 (BitVec.ofNat 16 panelHeight)) u)) h
      fun u hu => sameBus_of_eq hu (by constructor <;> simp [busEvents])
  | getIsColor =>
    exact sameBus_accept (body := fun u => .next (returnValue (.bool true) u)) h
      fun u hu => sameBus_of_eq hu (by constructor <;> simp [busEvents])
  | getDiagCount =>
    exact sameBus_accept (body := fun u => .next (returnValue (.u32 u.diagCount) u)) h
      fun u hu => sameBus_of_eq hu (by constructor <;> simp [busEvents])
  | waitMs d => exact sameBus_of_eq h (.refl _)
  | cmdSoftwareReset => exact sameBus_txn (l := .cmd) (bs := [0x01]) h
  | cmdSleepOut => exact sameBus_txn (l := .cmd) (bs := [0x11]) h
  | cmdNormalModeOn => exact sameBus_txn (l := .cmd) (bs := [0x13]) h
  | cmdInversionOn => exact sameBus_txn (l := .cmd) (bs := [0x21]) h
  | cmdDisplayOn => exact sameBus_txn (l := .cmd) (bs := [0x29]) h
  | cmdColumnAddressSet => exact sameBus_txn (l := .cmd) (bs := [0x2A]) h
  | cmdRowAddressSet => exact sameBus_txn (l := .cmd) (bs := [0x2B]) h
  | cmdMemoryWrite => exact sameBus_txn (l := .cmd) (bs := [0x2C]) h
  | cmdMemoryAccessControl => exact sameBus_txn (l := .cmd) (bs := [0x36]) h
  | cmdPixelFormatSet => exact sameBus_txn (l := .cmd) (bs := [0x3A]) h
  | cmdVendor84To87 v => exact sameBus_txn (l := .cmd) (bs := [vendorOpcode84 v]) h
  | cmdVendor88To8F v => exact sameBus_txn (l := .cmd) (bs := [vendorOpcode88 v]) h
  | cmdVendor90To97 v => exact sameBus_txn (l := .cmd) (bs := [vendorOpcode90 v]) h
  | cmdVendor98 => exact sameBus_txn (l := .cmd) (bs := [0x98]) h
  | cmdVendorB6 => exact sameBus_txn (l := .cmd) (bs := [0xB6]) h
  | cmdVendorBCToBF v => exact sameBus_txn (l := .cmd) (bs := [vendorOpcodeBC v]) h
  | cmdVendorC0ToFF v => exact sameBus_txn (l := .cmd) (bs := [vendorOpcodeC0 v]) h
  | dataByte d => exact sameBus_txn (l := .data) (bs := [d]) h
  | writeCmd c => exact sameBus_txn (l := .cmd) (bs := [c]) h
  | writeData8 d => exact sameBus_txn (l := .data) (bs := [d]) h
  | writeData16 v => exact sameBus_txn (l := .data) (bs := (bytes16 v)) h
  | writeColorRun v n => exact sameBus_txn (l := .data) (bs := (runBytes v n)) h

end Sys2Proof.Machine
end

