-- ==== Sys2Proof/Laws/Events.lean ====
section
/-! SUPPORT. The event lists of the operations under the signals, the framing monitor, the delay monitor, the payload
monitor and the settle time of the panel: one lemma for each pair. -/

namespace Sys2Proof.Machine

/-! The signals after a list of events. -/

/-- Mode-select after events is what the trace reader says. -/
theorem emitAll_dc (es) (s : State) : (emitAll es s).dc = dcAfter s.dc es := by
  induction es generalizing s with
  | nil => rfl
  | cons e es ih => cases e <;> simp [ih, dcAfter]

/-- Select after events is what the trace reader says. -/
theorem emitAll_cs (es) (s : State) : (emitAll es s).cs = csAfter s.cs es := by
  induction es generalizing s with
  | nil => rfl
  | cons e es ih => cases e <;> simp [ih, csAfter]

/-- The clock rests low between bytes (R80). -/
theorem emitAll_sclk (es) (s : State) (h : s.sclk = .low) : (emitAll es s).sclk = .low := by
  induction es generalizing s with
  | nil => exact h
  | cons e es ih => rw [emitAll_cons]; exact ih _ (by cases e <;> simp [h])

/-! The framing monitor (R63, R79). -/

/-- A transaction is framed. -/
theorem framed_txn (l bs) : framed (txnEvents l bs) = true := by rw [framed_iff]; simp

/-- A wait is framed. -/
theorem framed_wait (d) : framed (waitEvents d) = true := by rw [framed_iff]; simp

/-- A payload is whole transactions. -/
theorem framed_payloadEvents (ps : List Byte) : framed (ps.flatMap (fun p => txnEvents .data [p])) = true := by
  induction ps with
  | nil => rfl
  | cons p ps ih => rw [List.flatMap_cons]; exact framed_append (framed_txn _ _) ih

/-- A step is whole transactions and a wait. -/
theorem framed_stepEvents (st) : framed (stepEvents st) = true :=
  framed_append (framed_append (framed_txn _ _) (framed_payloadEvents _)) (framed_wait _)

/-- A table is whole transactions and waits. -/
theorem framed_steps (l : List InitStep) : framed (l.flatMap stepEvents) = true := by
  induction l with
  | nil => rfl
  | cons p ps ih => rw [List.flatMap_cons]; exact framed_append (framed_stepEvents _) ih

/-- SET_WINDOW is whole transactions. -/
theorem framed_window (a b c d) : framed (windowEvents a b c d) = true := by
  unfold windowEvents; repeat' apply framed_append
  all_goals exact framed_txn _ _

/-- A full fill is whole transactions. -/
theorem framed_full (v) : framed (fullFillEvents v) = true := framed_append (framed_window ..) (framed_txn ..)

/-- DRIVE_BACKLIGHT is framed. -/
theorem framed_bl (c) : framed (backlightEvents c) = true := by unfold backlightEvents; split <;> rfl

/-- HW_RESET_PULSE is framed. -/
theorem framed_rst (c) : framed (hwResetEvents c) = true := by
  unfold hwResetEvents resetPulseEvents; split
  · repeat' apply framed_append
    all_goals first | rfl | exact framed_wait _
  · rfl

/-- Select is asserted exactly while the framing monitor stands inside a transaction. -/
theorem csAfter_asserted_iff_shifting (es p q v) (h : frameRun p es = some q) (hv : v = .asserted ↔ p = .shifting) :
    csAfter v es = .asserted ↔ q = .shifting := by
  induction es generalizing p v with
  | nil => simp [frameRun] at h; subst h; exact hv
  | cons e es ih =>
    simp only [frameRun] at h
    split at h
    · rename_i p' hp
      cases e with
      | cs w => exact ih p' w h (by cases p <;> cases w <;> simp [frameStep] at hp <;> subst hp <;> simp)
      | _ => exact ih p' v h (by cases p <;> simp [frameStep] at hp <;> subst hp <;> simp_all)
    · simp at h

/-- Select is deasserted after whole transactions. -/
theorem csAfter_framed (es) (h : framed es = true) : csAfter .deasserted es = .deasserted := by
  have := csAfter_asserted_iff_shifting es .idle .idle .deasserted ((framed_iff _).1 h) (by simp)
  cases hc : csAfter .deasserted es <;> simp_all

/-! The delay monitor (R95, R148). -/

/-- A payload owes nothing new. -/
theorem owedRun_payload (ps : List Byte) (l r) (n) (h : ps = [] ∨ n = 0) :
    ∃ l', owedRun ⟨l, r, 0, n⟩ (ps.flatMap (fun p => txnEvents .data [p])) = some ⟨l', r, 0, n⟩ := by
  rcases h with rfl | rfl
  · exact ⟨l, rfl⟩
  · induction ps generalizing l with
    | nil => exact ⟨l, rfl⟩
    | cons p ps ih =>
      rw [List.flatMap_cons, owedRun_append, owedRun_txn_data]
      exact ih .data

/-- A step that waits long enough, with no payload before its wait, owes nothing after it. -/
theorem owedRun_step (st : InitStep) (l r) (h : minDelayMs st.cmd ≤ st.delayMs.toNat) (hp :
    minDelayMs st.cmd = 0 ∨ st.payload = []) :
    ∃ l', owedRun ⟨l, r, 0, 0⟩ (stepEvents st) = some ⟨l', r, 0, 0⟩ := by
  obtain ⟨l', hl⟩ := owedRun_payload st.payload .cmd r (minDelayMs st.cmd) hp.symm
  refine ⟨l', ?_⟩
  rw [stepEvents, owedRun_append, owedRun_append, owedRun_txn_cmd]
  simp only [Option.bind_some, hl, owedRun_waitEvents]
  simp; omega

/-- A table of such steps owes nothing after it. -/
theorem owedRun_steps (t : List InitStep) (l r) (h :
    ∀ st ∈ t, minDelayMs st.cmd ≤ st.delayMs.toNat ∧
      (minDelayMs st.cmd = 0 ∨ st.payload = [])) :
    ∃ l', owedRun ⟨l, r, 0, 0⟩ (t.flatMap stepEvents) = some ⟨l', r,
          0, 0⟩ := by
  induction t generalizing l with
  | nil => exact ⟨l, rfl⟩
  | cons st t ih =>
    obtain ⟨l', h'⟩ := owedRun_step st l r (h st (by simp)).1 (h st (by simp)).2
    rw [List.flatMap_cons, owedRun_append, h']
    exact ih l' (fun s hs => h s (by simp [hs]))

/-- SET_WINDOW owes nothing. -/
theorem owedRun_window (a b c d l r) :
    ∃ l', owedRun ⟨l, r, 0, 0⟩ (windowEvents a b c d) = some ⟨l', r, 0, 0⟩ := by
  refine ⟨.cmd, ?_⟩
  have k : ∀ l c, minDelayMs c = 0 → owedRun ⟨l, r, 0, 0⟩ (txnEvents .cmd [c]) = some ⟨.cmd, r, 0, 0⟩ :=
      fun l c h => by rw [owedRun_txn_cmd, h]
  simp only [windowEvents, owedRun_append, k _ 0x2A rfl, k _ 0x2B rfl, k _ 0x2C rfl, owedRun_txn_data,
      Option.bind_some]

/-- A full fill owes nothing. -/
theorem owedRun_full (v l r) : ∃ l', owedRun ⟨l, r, 0, 0⟩ (fullFillEvents v) = some ⟨l', r, 0, 0⟩ := by
  obtain ⟨l', h⟩ := owedRun_window 0 0 239 239 l r
  exact ⟨.data, by rw [fullFillEvents, owedRun_append, h, Option.bind_some, owedRun_txn_data]⟩

/-- The commands with a load-bearing delay are parameterless (R92, R95). -/
theorem minDelayMs_eq_zero_or (c : Byte) : minDelayMs c = 0 ∨ isParameterless c = true := by
  unfold minDelayMs isParameterless; repeat' split
  all_goals simp_all

/-- What WF_INIT gives for every step of the table (R92). -/
theorem wfInit_step {c : Config} (h : wfInit c = true) :
    ∀ st ∈ c.initTable, minDelayMs st.cmd ≤ st.delayMs.toNat ∧ (minDelayMs st.cmd = 0 ∨ st.payload = []) ∧
      (isNamedInit st.cmd = true ∨ isVendor st.cmd = true) := by
  simp only [wfInit, Bool.and_eq_true] at h
  obtain ⟨⟨⟨⟨⟨⟨h1, h2⟩, h3⟩, h4⟩, h5⟩, h6⟩, h7⟩ := h
  intro st hst
  simp only [wf2, wf3, wf7, List.all_eq_true] at h2 h3 h7
  refine ⟨by simpa using h3 st hst, ?_, by simpa using h2 st hst⟩
  have := h7 st hst
  rcases minDelayMs_eq_zero_or st.cmd with h | h
  · exact .inl h
  · simp [h] at this; exact .inr this

/-- DRIVE_BACKLIGHT owes nothing. -/
theorem owedRun_bl (c l) : owedRun ⟨l, .inactive, 0, 0⟩ (backlightEvents c) = some ⟨l, .inactive, 0, 0⟩ := by
  unfold backlightEvents; split <;> rfl

/-- HW_RESET_PULSE pays what it owes. -/
theorem owedRun_rst (c l) : owedRun ⟨l, .inactive, 0, 0⟩ (hwResetEvents c) = some ⟨l, .inactive, 0, 0⟩ := by
  unfold hwResetEvents resetPulseEvents; split
  · simp only [owedRun_append]
    have : owedRun ⟨l, .inactive, 0, 0⟩ [.rst .inactive, .rst .active] = some ⟨l, .active, 0,0⟩ := rfl
    rw [this, Option.bind_some, owedRun_waitEvents]
    simp [owedRun, owedStep, owedRun_waitEvents]
  · rfl

/-! The payload monitor (R68, R150). -/

/-- Between operations: the last command has exactly its data, and no data transaction is under way. -/
structure StreamIdle (table : List InitStep) (s : Stream) : Prop where
  complete : streamComplete table s = true
  current : s.current = []

/-- A trace has exact payloads when its stream ends between operations. -/
theorem payloadsExact_iff (table : List InitStep) (l : Mode) (t : List BusEvent) :
    payloadsExact table l t = true ↔ ∃ s, streamRun table (Stream.start l) t = some s ∧ StreamIdle table s := by
  unfold payloadsExact
  cases streamRun table (Stream.start l) t with
  | none => simp
  | some s =>
    simp only [Bool.and_eq_true, List.isEmpty_iff, Option.some.injEq]
    exact ⟨fun h => ⟨s, rfl, h.1, h.2⟩, fun ⟨_, e, h⟩ => e ▸ ⟨h.complete, h.current⟩⟩

/-- Data transactions of one byte each after a command are its next groups. -/
theorem streamRun_payload (table : List InitStep) (ps : List Byte) (s : Stream) (hc : s.cmd ≠ none)
    (h0 : s.current = []) :
    ∃ l, streamRun table s (ps.flatMap (fun p => txnEvents .data [p])) =
      some { s with level := l, groups := s.groups ++ ps.map (fun p => [p]) } := by
  induction ps generalizing s with
  | nil => exact ⟨s.level, by simp [streamRun]⟩
  | cons p ps ih =>
    obtain ⟨l, h⟩ := ih { s with level := .data, groups := s.groups ++ [[p]] } hc h0
    exact ⟨l, by simpa [streamRun_append, streamRun_txn_data table [p] s hc h0] using h⟩

/-- A step of the table whose opcode is no window command is complete after it (R68, R93). -/
theorem streamRun_step {table : List InitStep} {st : InitStep} (hst : st ∈ table) {s : Stream}
    (h : StreamIdle table s) (hw : isNamedInit st.cmd = true ∨ isVendor st.cmd = true) :
    ∃ s', streamRun table s (stepEvents st) = some s' ∧ StreamIdle table s' := by
  have hn : ¬ (st.cmd = 0x2A ∨ st.cmd = 0x2B) ∧ st.cmd ≠ 0x2C := by
    refine ⟨fun e => ?_, fun e => ?_⟩
    · rcases e with e | e <;> (rw [e] at hw; revert hw; decide)
    · rw [e] at hw; revert hw; decide
  obtain ⟨l, h1⟩ := streamRun_payload table st.payload { streamCommand st.cmd s with level := .cmd }
    (by simp [streamCommand]) h.current
  refine ⟨{ streamCommand st.cmd s with level := l, groups := st.payload.map fun p => [p] }, ?_, ?_, h.current⟩
  · rw [stepEvents, streamRun_append, streamRun_append, streamRun_txn_cmd _ _ _ h.complete, Option.bind_some, h1,
      Option.bind_some, streamRun_wait]
    simp [streamCommand]
  · simp only [streamComplete, streamCommand, commandComplete]
    rw [if_neg hn.1, if_neg hn.2, List.any_eq_true]
    exact ⟨st, hst, by simp⟩

/-- Steps of the table, in any number, are complete after them. -/
theorem streamRun_steps (table : List InitStep) (l : List InitStep) (hl : ∀ st ∈ l, st ∈ table) {s : Stream}
    (h : StreamIdle table s) (hw : ∀ st ∈ l, isNamedInit st.cmd = true ∨ isVendor st.cmd = true) :
    ∃ s', streamRun table s (l.flatMap stepEvents) = some s' ∧ StreamIdle table s' := by
  induction l generalizing s with
  | nil => exact ⟨s, rfl, h⟩
  | cons st l ih =>
    obtain ⟨s', h1, h2⟩ := streamRun_step (hl st (by simp)) h (hw st (by simp))
    rw [List.flatMap_cons, streamRun_append, h1]
    exact ih (fun x hx => hl x (by simp [hx])) h2 (fun x hx => hw x (by simp [hx]))

/-- The two bytes of a window value, high first, carry the value. -/
theorem groupValue_bytes16 {k : Nat} (h : k < 240) : groupValue (bytes16 (zext16 k)) = k := by
  simp only [groupValue, bytes16, hi8, lo8, List.foldl_cons, List.foldl_nil, BitVec.extractLsb'_toNat, zext16_toNat h,
    Nat.shiftRight_eq_div_pow]
  omega

/-- A window command with its two 16-bit values is complete after them (R68). -/
theorem streamRun_windowCommand (table : List InitStep) {op : Byte} (hop : op = 0x2A ∨ op = 0x2B) (x y : U16)
    {s : Stream} (h : StreamIdle table s) :
    streamRun table s (txnEvents .cmd [op] ++ (txnEvents .data (bytes16 x) ++ txnEvents .data (bytes16 y))) =
        some { streamCommand op s with level := .data, groups := [bytes16 x, bytes16 y] } ∧
      StreamIdle table { streamCommand op s with level := .data, groups := [bytes16 x, bytes16 y] } := by
  refine ⟨?_, ?_, h.current⟩
  · rw [streamRun_append, streamRun_txn_cmd _ _ _ h.complete, Option.bind_some, streamRun_append,
      streamRun_txn_data table (bytes16 x) { streamCommand op s with level := .cmd } (by simp [streamCommand]) h.current,
      Option.bind_some]
    exact streamRun_txn_data table (bytes16 y) { streamCommand op s with level := .data, groups := [bytes16 x] }
      (by simp [streamCommand]) h.current
  · simp only [streamComplete, streamCommand, commandComplete, if_pos hop]
    rfl

/-- SET_WINDOW leaves the stream at 0x2C with no data yet and its window. -/
theorem streamRun_window (table : List InitStep) {a b c d : Nat} (ha : a < 240) (hb : b < 240) (hc : c < 240)
    (hd : d < 240) {s : Stream} (h : StreamIdle table s) :
    ∃ s', streamRun table s (windowEvents a b c d) = some s' ∧ s'.cmd = some 0x2C ∧ s'.current = [] ∧ s'.groups = [] ∧
      windowSpan s'.cols = c - a + 1 ∧ windowSpan s'.rows = d - b + 1 := by
  obtain ⟨e1, i1⟩ := streamRun_windowCommand table (op := 0x2A) (.inl rfl) (zext16 a) (zext16 c) h
  obtain ⟨e2, i2⟩ := streamRun_windowCommand table (op := 0x2B) (.inr rfl) (zext16 b) (zext16 d) i1
  have hw : windowEvents a b c d =
      (txnEvents .cmd [0x2A] ++ (txnEvents .data (bytes16 (zext16 a)) ++ txnEvents .data (bytes16 (zext16 c)))) ++
      ((txnEvents .cmd [0x2B] ++ (txnEvents .data (bytes16 (zext16 b)) ++ txnEvents .data (bytes16 (zext16 d)))) ++
      txnEvents .cmd [0x2C]) := by simp only [windowEvents, List.append_assoc]
  refine ⟨_, (by rw [hw, streamRun_append, e1, Option.bind_some, streamRun_append, e2, Option.bind_some,
    streamRun_txn_cmd _ _ _ i2.complete]), ?_⟩
  simp [streamCommand, h.current, windowSpan, groupValue_bytes16 ha, groupValue_bytes16 hb, groupValue_bytes16 hc,
    groupValue_bytes16 hd]

/-- The window's exact pixel count, in one transaction, completes 0x2C (R150). -/
theorem streamRun_pixels (table : List InitStep) {s : Stream} (hc : s.cmd = some 0x2C) (h0 : s.current = [])
    (hg : s.groups = []) (bs : List Byte) (hl : bs.length = 2 * (windowSpan s.cols * windowSpan s.rows)) :
    ∃ s', streamRun table s (txnEvents .data bs) = some s' ∧ StreamIdle table s' := by
  refine ⟨_, streamRun_txn_data table bs s (by simp [hc]) h0, ?_, h0⟩
  simp [streamComplete, commandComplete, hc, hg, hl]

/-- A full fill is complete after it. -/
theorem streamRun_full (table : List InitStep) (v : U16) {s : Stream} (h : StreamIdle table s) :
    ∃ s', streamRun table s (fullFillEvents v) = some s' ∧ StreamIdle table s' := by
  obtain ⟨s', h1, h2, h3, h4, h5, h6⟩ :=
    streamRun_window table (show 0 < 240 by omega) (show 0 < 240 by omega) (show 239 < 240 by omega)
      (show 239 < 240 by omega) h
  rw [fullFillEvents, streamRun_append, h1]
  exact streamRun_pixels table h2 h3 h4 _ (by rw [length_runBytes, h5, h6]; rfl)

/-- DRIVE_BACKLIGHT is not in the stream. -/
theorem streamRun_bl (table : List InitStep) (c : Config) (s : Stream) :
    streamRun table s (backlightEvents c) = some s := by
  unfold backlightEvents; split <;> rfl

/-- HW_RESET_PULSE is not in the stream. -/
theorem streamRun_rst (table : List InitStep) (c : Config) (s : Stream) :
    streamRun table s (hwResetEvents c) = some s := by
  unfold hwResetEvents resetPulseEvents; split
  · simp only [streamRun_append, streamRun_wait]; rfl
  · rfl

/-! The settle time of the panel along events (R57). -/

/-- Data leaves the settle time. -/
theorem settle_txn_data (bs s) : (emitAll (txnEvents .data bs) s).panel.settle = s.panel.settle := by
  show (txn .data bs s).panel.settle = _
  rw [txn_panel, panelReceiveAll_data_settle]

/-- A command may start one. -/
theorem settle_cmd (c) (s : State) :
    (emitAll (txnEvents .cmd [c]) s).panel.settle = settleAfterCommand c s.panel.settle := by
  show (txn .cmd [c] s).panel.settle = _
  rw [txn_panel]
  simp only [panelReceiveAll, panelReceive]; split
  · rfl
  · simp

/-- A wait shortens it. -/
theorem settle_wait (d) (s : State) : (emitAll (waitEvents d) s).panel.settle = s.panel.settle - d := by
  show (waitMs d s).panel.settle = _
  simp [panelElapse]

/-- A payload leaves it. -/
theorem settle_payload (ps : List Byte) (s : State) :
    (emitAll (ps.flatMap (fun p => txnEvents .data [p])) s).panel.settle = s.panel.settle := by
  induction ps generalizing s with
  | nil => rfl
  | cons p ps ih => rw [List.flatMap_cons, emitAll_append, ih, settle_txn_data]

/-- It is over after a step that waits long enough. -/
theorem settle_step (st : InitStep) (s : State) (h : minDelayMs st.cmd ≤ st.delayMs.toNat) (h' :
    s.panel.settle = 0 ∨ st.cmd = 0x01) : (emitAll (stepEvents st) s).panel.settle = 0 := by
  rw [stepEvents, emitAll_append, emitAll_append, settle_wait, settle_payload, settle_cmd]
  unfold settleAfterCommand startsSettle
  split
  · rename_i h1
    have : minDelayMs st.cmd = 120 := by
      simp at h1; rcases h1 with h1 | h1 <;> rw [h1] <;> rfl
    simp [settleMs]; omega
  · rename_i h1
    rcases h' with h' | h'
    · omega
    · simp [h'] at h1

/-- It is over after a table of such steps. -/
theorem settle_steps (t : List InitStep) (s : State) (h :
    ∀ st ∈ t, minDelayMs st.cmd ≤ st.delayMs.toNat) (hs : s.panel.settle = 0) :
        (emitAll (t.flatMap stepEvents) s).panel.settle = 0 := by
  induction t generalizing s with
  | nil => exact hs
  | cons st t ih =>
    rw [List.flatMap_cons, emitAll_append]
    exact ih _ (fun x hx => h x (by simp [hx])) (settle_step _ _ (h st (by simp)) (.inl hs))

/-- SET_WINDOW leaves it. -/
theorem settle_window (a b c d s) : (emitAll (windowEvents a b c d) s).panel.settle = s.panel.settle := by
  simp only [windowEvents, emitAll_append, settle_cmd, settle_txn_data]; rfl

/-- A full fill leaves it. -/
theorem settle_full (v s) : (emitAll (fullFillEvents v) s).panel.settle = s.panel.settle := by
  rw [fullFillEvents, emitAll_append, settle_txn_data, settle_window]

/-- DRIVE_BACKLIGHT leaves the panel. -/
theorem settle_bl (c s) : (emitAll (backlightEvents c) s).panel = s.panel := by unfold backlightEvents; split <;> simp

/-- It is over after HW_RESET_PULSE. -/
theorem settle_rst (c) (s : State) (h : s.panel.settle = 0) : (emitAll (hwResetEvents c) s).panel.settle = 0 := by
  unfold hwResetEvents resetPulseEvents; split
  · rw [emitAll_append, settle_wait, emitAll_append]
    simp only [emitAll_cons, emitAll_nil, emit_rst_panel, panelResetPin]
    split
    · simp [settleMs]
    · rename_i hr
      exfalso; apply hr
      rw [emitAll_append]
      have : ∀ d (u : State), (emitAll (waitEvents d) u).rst = u.rst := fun d u => waitMs_rst d u
      rw [this]; simp
  · exact h

end Sys2Proof.Machine
end

