-- ==== Sys2Proof/Laws/PerInstr.lean ====
section
/-! SUPPORT. Statements about every instruction as syntax, one lemma for each constructor. -/

namespace Sys2Proof.Laws.WireWordFits

/-- The wire unit of an instruction, where it has one, fits in nine bits (R62). -/
def Statement : Instr → Prop := fun i => ∀ w, encode i = .wire w → w.toNat < 512

/-- A command's container. -/
theorem fits_command (c : Byte) : (commandWord c).toNat < 512 := by
  have := c.isLt
  simp only [commandWord, BitVec.toNat_append]
  simp; omega

/-- A data byte's container. -/
theorem fits_data (d : Byte) : (dataWord d).toNat < 512 := by
  have := d.isLt
  simp only [dataWord, BitVec.toNat_append]
  exact Nat.or_lt_two_pow (n := 9) (by decide) (by omega)

theorem cmdSoftwareReset : Statement .cmdSoftwareReset := by
  intro w h; cases h; exact fits_command _

theorem cmdSleepOut : Statement .cmdSleepOut := by
  intro w h; cases h; exact fits_command _

theorem cmdNormalModeOn : Statement .cmdNormalModeOn := by
  intro w h; cases h; exact fits_command _

theorem cmdInversionOn : Statement .cmdInversionOn := by
  intro w h; cases h; exact fits_command _

theorem cmdDisplayOn : Statement .cmdDisplayOn := by
  intro w h; cases h; exact fits_command _

theorem cmdColumnAddressSet : Statement .cmdColumnAddressSet := by
  intro w h; cases h; exact fits_command _

theorem cmdRowAddressSet : Statement .cmdRowAddressSet := by
  intro w h; cases h; exact fits_command _

theorem cmdMemoryWrite : Statement .cmdMemoryWrite := by
  intro w h; cases h; exact fits_command _

theorem cmdMemoryAccessControl : Statement .cmdMemoryAccessControl := by
  intro w h; cases h; exact fits_command _

theorem cmdPixelFormatSet : Statement .cmdPixelFormatSet := by
  intro w h; cases h; exact fits_command _

theorem cmdVendor84To87 (v : BitVec 2) : Statement (.cmdVendor84To87 v) := by
  intro w h; cases h; exact fits_command _

theorem cmdVendor88To8F (v : BitVec 3) : Statement (.cmdVendor88To8F v) := by
  intro w h; cases h; exact fits_command _

theorem cmdVendor90To97 (v : BitVec 3) : Statement (.cmdVendor90To97 v) := by
  intro w h; cases h; exact fits_command _

theorem cmdVendor98 : Statement .cmdVendor98 := by
  intro w h; cases h; exact fits_command _

theorem cmdVendorB6 : Statement .cmdVendorB6 := by
  intro w h; cases h; exact fits_command _

theorem cmdVendorBCToBF (v : BitVec 2) : Statement (.cmdVendorBCToBF v) := by
  intro w h; cases h; exact fits_command _

theorem cmdVendorC0ToFF (v : BitVec 6) : Statement (.cmdVendorC0ToFF v) := by
  intro w h; cases h; exact fits_command _

theorem dataByte (d : Byte) : Statement (.dataByte d) := by
  intro w h; cases h; exact fits_data d

theorem writeCmd (c : Byte) : Statement (.writeCmd c) := by
  intro w h; cases h

theorem writeData8 (d : Byte) : Statement (.writeData8 d) := by
  intro w h; cases h

theorem writeData16 (v : U16) : Statement (.writeData16 v) := by
  intro w h; cases h

theorem writeColorRun (v : U16) (n : Nat) : Statement (.writeColorRun v n) := by
  intro w h; cases h

theorem waitMs (d : U16) : Statement (.waitMs d) := by
  intro w h; cases h

theorem driveBacklight : Statement .driveBacklight := by
  intro w h; cases h

theorem hwResetPulse : Statement .hwResetPulse := by
  intro w h; cases h

theorem execStep (st : InitStep) : Statement (.execStep st) := by
  intro w h; cases h

theorem runInit : Statement .runInit := by
  intro w h; cases h

theorem setWindow (x1 y1 x2 y2 : Nat) : Statement (.setWindow x1 y1 x2 y2) := by
  intro w h; cases h

theorem quantize (r g b : Byte) : Statement (.quantize r g b) := by
  intro w h; cases h

theorem fillRaw (r g b : Byte) : Statement (.fillRaw r g b) := by
  intro w h; cases h

theorem setup : Statement .setup := by
  intro w h; cases h

theorem update : Statement .update := by
  intro w h; cases h

theorem fill (r g b : Byte) : Statement (.fill r g b) := by
  intro w h; cases h

theorem drawPixel (x y : Coord) (r g b : Byte) : Statement (.drawPixel x y r g b) := by
  intro w h; cases h

theorem getWidth : Statement .getWidth := by
  intro w h; cases h

theorem getHeight : Statement .getHeight := by
  intro w h; cases h

theorem getIsColor : Statement .getIsColor := by
  intro w h; cases h

theorem getDiagCount : Statement .getDiagCount := by
  intro w h; cases h

end Sys2Proof.Laws.WireWordFits
end

