-- ==== Sys2Proof/Tests/Slice0.lean ====
section
/-! SUPPORT. Tests of single steps against the vectors of 95_test_vectors.md and the encodings of the spec, and, for every
obligation with hypotheses, a witness that meets them all. -/

namespace Sys2Proof.Tests

open Sys2Proof.Machine Sys2Proof.Safety

/-- The next state of an outcome, if it has one. -/
def nextOf (r : Result) : Option State :=
  match r with
  | .next s => some s
  | .fault _ => none
  | .refused _ => none

/-- The fault of an outcome, if it is one. -/
def faultOf (r : Result) : Option Fault :=
  match r with
  | .next _ => none
  | .fault e => some e
  | .refused _ => none

/-- The refusal of an outcome, if it is one. -/
def refusalOf (r : Result) : Option Refusal :=
  match r with
  | .next _ => none
  | .fault _ => none
  | .refused e => some e

/-- The trace an instruction leaves from reset. -/
def traceOf (i : Instr) : Option (List BusEvent) := (nextOf (exec i State.reset)).map State.trace

/-- S0 with ready = true, as after a SETUP. -/
def readyState : State := { State.reset with ready := true, setupDone := true }

/-- S0 with both pins present and a pulse of 10 ms. -/
def pinState : State := State.resetWith { Config.ref with hasRst := true, hasBl := true, rstPulseMs := 10 }

/-- S0 with the panel's command set. -/
def panelAt (p : Panel) : State := { State.reset with panel := p }

/-- The panel primed for pixels of the window (1, 1)–(2, 2). -/
def primed : Panel :=
  { Panel.reset with cmd := some 0x2C, xs := 1, xe := 2, ys := 1, ye := 2, wc := 1, wr := 1 }

/-! Well-formedness of instructions. -/

/-- R13, R102: x1 > x2. -/
theorem test_wf_refuses_window_x : (Instr.setWindow 5 0 4 0).wf = false := by decide
/-- R102: x2 = WIDTH. -/
theorem test_wf_refuses_window_width : (Instr.setWindow 0 0 240 0).wf = false := by decide
/-- R102: y1 > y2, and y2 = HEIGHT. -/
theorem test_wf_refuses_window_y : (Instr.setWindow 0 1 0 0).wf = false ∧ (Instr.setWindow 0 0 0 240).wf = false := by
  decide
/-- R63: a transaction has at least one byte. -/
theorem test_wf_refuses_empty_run : (Instr.writeColorRun 0 0).wf = false := by decide
/-- WF2: 0x83 lies below the vendor range, and 0x2A is not a command of the table. -/
theorem test_wf_refuses_step_opcode :
    (Instr.execStep ⟨0x83, [], 0⟩).wf = false ∧ (Instr.execStep ⟨0x2A, [], 0⟩).wf = false := by decide
/-- The bounds themselves are accepted. -/
theorem test_wf_accepts_bounds :
    (Instr.setWindow 0 0 239 239).wf = true ∧ (Instr.writeColorRun 0 1).wf = true ∧
    (Instr.execStep ⟨0x84, [], 0⟩).wf = true := by decide

/-! WF_INIT (V-WF-1 to V-WF-16). -/

/-- CFG0 with another table. -/
def withTable (t : List InitStep) : Config := { Config.ref with initTable := t }

/-- V-WF-1. -/
theorem test_wfInit_reference : wfInit Config.ref = true := by decide
/-- V-WF-2, V-WF-3: WF1. -/
theorem test_wfInit_refuses_wf1 :
    wf1 (withTable []) = false ∧ wf1 (withTable Config.refInit.tail) = false := by decide
/-- V-WF-4: WF1 and WF3. -/
theorem test_wfInit_refuses_short_reset :
    wf1 (withTable (⟨0x01, [], 119⟩ :: Config.refInit.tail)) = false ∧
    wf3 (withTable (⟨0x01, [], 119⟩ :: Config.refInit.tail)) = false := by decide
/-- V-WF-5, V-WF-7: WF3. -/
theorem test_wfInit_refuses_wf3 :
    wf3 (withTable (Config.refInit.take 6 ++ [⟨0x29, [], 100⟩])) = false ∧
    wf3 (withTable (Config.refInit.set 4 ⟨0x21, [], 9⟩)) = false := by decide
/-- V-WF-6: the bound is inclusive. -/
theorem test_wfInit_accepts_bound : wfInit (withTable (Config.refInit.set 4 ⟨0x21, [], 10⟩)) = true := by decide
/-- V-WF-8, V-WF-9, V-WF-10: WF2. -/
theorem test_wfInit_refuses_wf2 :
    wf2 (withTable (Config.refInit ++ [⟨0x2A, [0, 0, 0, 239], 0⟩])) = false ∧
    wf2 (withTable (Config.refInit ++ [⟨0x83, [], 0⟩])) = false ∧
    wf2 (withTable (Config.refInit ++ [⟨0x99, [], 0⟩])) = false := by decide
/-- V-WF-11. -/
theorem test_wfInit_accepts_vendor :
    wfInit (withTable (Config.refInit.take 1 ++ [⟨0x84, [0x40], 0⟩, ⟨0xB6, [0x00, 0x20], 0⟩, ⟨0xFF, [], 0⟩] ++
      Config.refInit.tail)) = true := by decide
/-- V-WF-12: WF4. -/
theorem test_wfInit_refuses_wf4 : wf4 (withTable (Config.refInit.eraseIdx 2)) = false := by decide
/-- V-WF-13: WF5. -/
theorem test_wfInit_refuses_wf5 : wf5 (withTable (Config.refInit.set 2 ⟨0x3A, [0x06], 0⟩)) = false := by decide
/-- V-WF-14: WF6. -/
theorem test_wfInit_refuses_wf6 : wf6 (withTable (Config.refInit ++ [⟨0x01, [], 120⟩])) = false := by decide
/-- V-WF-15: WF7. -/
theorem test_wfInit_refuses_wf7 : wf7 (withTable (Config.refInit.set 1 ⟨0x11, [0x00], 120⟩)) = false := by decide
/-- V-WF-16: order after step 0 is free. -/
theorem test_wfInit_accepts_swap :
    wfInit (withTable ((Config.refInit.set 4 ⟨0x13, [], 10⟩).set 5 ⟨0x21, [], 10⟩)) = true := by decide

/-! Decoding, from the words of R62, R66 and R78 written out bit by bit. -/

/-- The ten named commands (R66). -/
theorem test_decode_named :
    decodeTableWord 16 0b0_0000_0001 = some .cmdSoftwareReset ∧ decodeTableWord 16 0b0_0001_0001 = some .cmdSleepOut ∧
    decodeTableWord 16 0b0_0001_0011 = some .cmdNormalModeOn ∧ decodeTableWord 16 0b0_0010_0001 = some .cmdInversionOn ∧
    decodeTableWord 16 0b0_0010_1001 = some .cmdDisplayOn ∧
    decodeTableWord 16 0b0_0010_1010 = some .cmdColumnAddressSet ∧
    decodeTableWord 16 0b0_0010_1011 = some .cmdRowAddressSet ∧ decodeTableWord 16 0b0_0010_1100 = some .cmdMemoryWrite ∧
    decodeTableWord 16 0b0_0011_0110 = some .cmdMemoryAccessControl ∧
    decodeTableWord 16 0b0_0011_1010 = some .cmdPixelFormatSet := by decide
/-- The first and the last opcode of each vendor block (R67, R78). -/
theorem test_decode_vendor :
    decodeTableWord 16 0b0_1000_0100 = some (.cmdVendor84To87 0) ∧ decodeTableWord 16 0b0_1000_0111 = some (.cmdVendor84To87 3) ∧
    decodeTableWord 16 0b0_1000_1000 = some (.cmdVendor88To8F 0) ∧ decodeTableWord 16 0b0_1000_1111 = some (.cmdVendor88To8F 7) ∧
    decodeTableWord 16 0b0_1001_0000 = some (.cmdVendor90To97 0) ∧ decodeTableWord 16 0b0_1001_0111 = some (.cmdVendor90To97 7) ∧
    decodeTableWord 16 0b0_1001_1000 = some .cmdVendor98 ∧ decodeTableWord 16 0b0_1011_0110 = some .cmdVendorB6 ∧
    decodeTableWord 16 0b0_1011_1100 = some (.cmdVendorBCToBF 0) ∧ decodeTableWord 16 0b0_1011_1111 = some (.cmdVendorBCToBF 3) ∧
    decodeTableWord 16 0b0_1100_0000 = some (.cmdVendorC0ToFF 0) ∧
    decodeTableWord 16 0b0_1111_1111 = some (.cmdVendorC0ToFF 63) := by decide
/-- The data byte (R62: bit 8 set), also where its value is an opcode (V-FR-5). -/
theorem test_decode_data :
    decodeTableWord 16 0b1_0000_0000 = some (.dataByte 0x00) ∧ decodeTableWord 16 0b1_0010_1100 = some (.dataByte 0x2C) ∧
    decodeTableWord 16 0b1_1111_1111 = some (.dataByte 0xFF) := by decide
/-- The neighbours of the vendor ranges are plain command transfers (R69), and a tenth bit is no unit. -/
theorem test_decode_unnamed :
    decodeTableWord 16 0b0_1000_0011 = some (.writeCmd 0x83) ∧ decodeTableWord 16 0b0_1001_1001 = some (.writeCmd 0x99) ∧
    decodeTableWord 16 0b0_1011_0111 = some (.writeCmd 0xB7) ∧ decodeTableWord 16 0b0_1011_1011 = some (.writeCmd 0xBB) ∧
    decodeTableWord 16 0b10_0000_0001 = none := by decide
/-- No two rows of the table with a mask share a unit (R78). -/
theorem test_rows_disjoint :
    wireRows.Pairwise (fun a b => a.pattern &&& (a.mask &&& b.mask) ≠ b.pattern &&& (a.mask &&& b.mask)) := by decide
/-- A container is two bytes, the low byte first; what follows it is handed back. -/
theorem test_decodeBytes_rest : decodeBytes [0x2C, 0x01, 0x55] = .ok (.dataByte 0x2C, [0x55]) := by decide
/-- One byte is no container. -/
theorem test_decodeBytes_short : decodeBytes [0x2C] = .error .tooShort := by decide
/-- Host lines (R71, R75): a colour channel of 256 is no operand, a coordinate of −1 is. -/
theorem test_hostLine_operands :
    (HostLine.fill 256 0 0).request = none ∧
    (HostLine.pixel (-1) 240 1 2 3).request = some (.host (.drawPixel 0xFFFFFFFF 240 1 2 3)) := by decide

/-! The wire rows, one each (R64, R66). -/

theorem test_cmdSoftwareReset :
    traceOf .cmdSoftwareReset = some [.dc .cmd, .cs .asserted, .byte 0x01, .cs .deasserted] := by decide
/-- Sleep-out starts the settle time of 120 ms (R57, R95). -/
theorem test_cmdSleepOut_settle : (nextOf (exec .cmdSleepOut State.reset)).map (·.panel.settle) = some 120 := by decide
theorem test_cmdNormalModeOn :
    traceOf .cmdNormalModeOn = some [.dc .cmd, .cs .asserted, .byte 0x13, .cs .deasserted] := by decide
theorem test_cmdInversionOn :
    traceOf .cmdInversionOn = some [.dc .cmd, .cs .asserted, .byte 0x21, .cs .deasserted] := by decide
theorem test_cmdDisplayOn :
    traceOf .cmdDisplayOn = some [.dc .cmd, .cs .asserted, .byte 0x29, .cs .deasserted] := by decide
theorem test_cmdColumnAddressSet :
    traceOf .cmdColumnAddressSet = some [.dc .cmd, .cs .asserted, .byte 0x2A, .cs .deasserted] := by decide
theorem test_cmdRowAddressSet :
    traceOf .cmdRowAddressSet = some [.dc .cmd, .cs .asserted, .byte 0x2B, .cs .deasserted] := by decide
/-- 0x2C moves the write pointer to the window's origin (R49). -/
theorem test_cmdMemoryWrite_pointer :
    (nextOf (exec .cmdMemoryWrite (panelAt { Panel.reset with xs := 7, ys := 9, half := .lo }))).map
      (fun s => (s.panel.wc, s.panel.wr, s.panel.half)) = some (7, 9, .hi) := by decide
theorem test_cmdMemoryAccessControl :
    traceOf .cmdMemoryAccessControl = some [.dc .cmd, .cs .asserted, .byte 0x36, .cs .deasserted] := by decide
theorem test_cmdPixelFormatSet :
    traceOf .cmdPixelFormatSet = some [.dc .cmd, .cs .asserted, .byte 0x3A, .cs .deasserted] := by decide
theorem test_cmdVendor84To87 :
    traceOf (.cmdVendor84To87 2) = some [.dc .cmd, .cs .asserted, .byte 0x86, .cs .deasserted] := by decide
theorem test_cmdVendor88To8F :
    traceOf (.cmdVendor88To8F 5) = some [.dc .cmd, .cs .asserted, .byte 0x8D, .cs .deasserted] := by decide
theorem test_cmdVendor90To97 :
    traceOf (.cmdVendor90To97 1) = some [.dc .cmd, .cs .asserted, .byte 0x91, .cs .deasserted] := by decide
theorem test_cmdVendor98 :
    traceOf .cmdVendor98 = some [.dc .cmd, .cs .asserted, .byte 0x98, .cs .deasserted] := by decide
theorem test_cmdVendorB6 :
    traceOf .cmdVendorB6 = some [.dc .cmd, .cs .asserted, .byte 0xB6, .cs .deasserted] := by decide
theorem test_cmdVendorBCToBF :
    traceOf (.cmdVendorBCToBF 1) = some [.dc .cmd, .cs .asserted, .byte 0xBD, .cs .deasserted] := by decide
theorem test_cmdVendorC0ToFF :
    traceOf (.cmdVendorC0ToFF 0x28) = some [.dc .cmd, .cs .asserted, .byte 0xE8, .cs .deasserted] := by decide
theorem test_dataByte : traceOf (.dataByte 0x2C) = some [.dc .data, .cs .asserted, .byte 0x2C, .cs .deasserted] := by
  decide

/-! Framing units (V-FR). -/

/-- V-FR-2. -/
theorem test_writeCmd : traceOf (.writeCmd 0xFF) = some [.dc .cmd, .cs .asserted, .byte 0xFF, .cs .deasserted] := by
  decide
/-- V-FR-5. -/
theorem test_writeData8 : traceOf (.writeData8 0x2C) = some [.dc .data, .cs .asserted, .byte 0x2C, .cs .deasserted] := by
  decide
/-- R50: the second data byte after 0x2A is the low byte of the first column bound. -/
theorem test_writeData8_column :
    (nextOf (exec (.writeData8 0xEF) (panelAt { Panel.reset with cmd := some 0x2A, pidx := 1, xs := 0x0122 }))).map
      (·.panel.xs) = some 0x01EF := by decide
/-- V-FR-8. -/
theorem test_writeData16 :
    traceOf (.writeData16 0x1234) = some [.dc .data, .cs .asserted, .byte 0x12, .byte 0x34, .cs .deasserted] := by decide
/-- R51: a pixel is stored at the pointer's cell, and the pointer advances (V-PM-1's first pixel). -/
theorem test_writeData16_pixel :
    (nextOf (exec (.writeData16 0x1111) (panelAt primed))).map
      (fun s => (gramCell s.panel.gram 1 1, gramCell s.panel.gram 2 1, s.panel.wc, s.panel.wr)) =
    some (some 0x1111, none, 2, 1) := by decide
/-- V-FR-11: wire units. -/
theorem test_writeColorRun :
    (traceOf (.writeColorRun 0x07E0 3)).map (wireUnitsFrom .cmd) =
      some [0x107, 0x1E0, 0x107, 0x1E0, 0x107, 0x1E0] := by decide
/-- V-FR-13: a run of no pixel is an empty transaction. -/
theorem test_writeColorRun_zero :
    traceOf (.writeColorRun 0x1234 0) = some [.dc .data, .cs .asserted, .cs .deasserted] := by decide
/-- V-FR-15: what the receiver samples of 0xA5. -/
theorem test_waveform :
    risingSamples .low (byteWaveform 0xA5) = [.high, .low, .high, .low, .low, .high, .low, .high] := by decide
/-- R80's loop, its first two bits for 0x40: mosi takes the bit before the clock rises, and holds it until the clock is low. -/
theorem test_waveform_data_before_clock :
    (byteWaveform 0x40).take 6 =
      [⟨.low, .low⟩, ⟨.low, .high⟩, ⟨.low, .low⟩, ⟨.high, .low⟩, ⟨.high, .high⟩, ⟨.high, .low⟩] := by decide

/-! Signal primitives (V-SG). -/

/-- V-SG-1, V-SG-3. -/
theorem test_waitMs : traceOf (.waitMs 0) = some [] ∧ traceOf (.waitMs 65535) = some [.wait 65535] := by decide
/-- R57, R85: a wait shortens the settle time, never below 0. -/
theorem test_waitMs_settle :
    (nextOf (exec (.waitMs 119) (panelAt { Panel.reset with settle := 120 }))).map (·.panel.settle) = some 1 ∧
    (nextOf (exec (.waitMs 200) (panelAt { Panel.reset with settle := 120 }))).map (·.panel.settle) = some 0 := by decide
/-- V-SG-4, V-SG-5. -/
theorem test_driveBacklight :
    (nextOf (exec .driveBacklight pinState)).map (fun s => (s.bl, s.trace)) = some (.high, [.blHigh]) ∧
    (nextOf (exec .driveBacklight State.reset)).map (fun s => (s.bl, s.trace)) = some (.off, []) := by decide
/-- V-SG-6. -/
theorem test_hwResetPulse :
    (nextOf (exec .hwResetPulse pinState)).map (fun s => (s.rst, s.trace)) =
      some (.inactive, [.rst .inactive, .rst .active, .wait 10, .rst .inactive, .wait 120]) := by decide
/-- V-SG-8. -/
theorem test_hwResetPulse_absent : traceOf .hwResetPulse = some [] := by decide

/-! Sequencer (V-IN). -/

/-- V-IN-5. -/
theorem test_execStep :
    traceOf (.execStep ⟨0x36, [0x48], 5⟩) =
      some (linesEvents [.cmd 0x36, .d8 0x48, .wait 5]) := by decide
/-- V-IN-4: three transactions, no wait. -/
theorem test_execStep_payload :
    (traceOf (.execStep ⟨0xB6, [0x00, 0x20], 0⟩)).map (fun t => (wireUnitsFrom .data t, transactionCount t, traceWaits t)) =
      some ([0x0B6, 0x100, 0x120], 3, []) := by decide
/-- V-INIT-1. -/
theorem test_runInit :
    (traceOf .runInit).map (fun t => (wireUnitsFrom .data t, transactionCount t, traceWaits t)) =
      some ([0x001, 0x011, 0x03A, 0x105, 0x036, 0x148, 0x021, 0x013, 0x029], 9, [120, 120, 10, 10, 120]) := by decide
/-- V-INIT-1: seq_pc ends at 7. -/
theorem test_runInit_seqPc : (nextOf (exec .runInit State.reset)).map State.seqPc = some 7 := by decide

/-! Window and pixels (V-WN, V-FI, V-DP). -/

/-- V-WN-2. -/
theorem test_setWindow :
    (traceOf (.setWindow 3 4 3 4)).map (wireUnitsFrom .data) =
      some [0x02A, 0x100, 0x103, 0x100, 0x103, 0x02B, 0x100, 0x104, 0x100, 0x104, 0x02C] := by decide
/-- V-WN-5, V-WN-6. -/
theorem test_setWindow_invalid :
    faultOf (exec (.setWindow 5 0 4 0) State.reset) = some .windowInvalid ∧
    faultOf (exec (.setWindow 0 0 240 0) State.reset) = some .windowInvalid := by decide
/-- V-QZ-14, V-QZ-8: the quantizer is no shift. -/
theorem test_quantize :
    (nextOf (exec (.quantize 100 150 200) State.reset)).map State.quantOut = some 0x64B8 ∧
    (nextOf (exec (.quantize 248 252 248) State.reset)).map State.quantOut = some 0xF7DE := by decide
/-- V-QZ-2, V-QZ-1: the first thresholds. -/
theorem test_quantize_thresholds : quantizeColor 9 5 9 = 0x0821 ∧ quantizeColor 8 4 8 = 0x0000 := by decide
/-- V-FI-5. -/
theorem test_fillRaw :
    ∃ t, exec (.fillRaw 0 255 0) State.reset = .next t ∧ t.trace = lineEvents (.fullFill 0x07E0) := by
  refine ⟨_, fillRaw_eq .., ?_⟩
  rw [fullFill_emitAll, emitAll_trace, show quantizeColor 0 255 0 = 0x07E0 by decide]; rfl
/-- V-FI-3. -/
theorem test_fill :
    ∃ t, exec (.fill 100 150 200) readyState = .next t ∧ t.trace = lineEvents (.fullFill 0x64B8) := by
  refine ⟨_, accept_next (body := fillBody 100 150 200) (s := readyState) (by decide)
    (by rw [fillBody_eq]; exact if_pos (by decide)), ?_⟩
  rw [fullFill_emitAll, endOp_trace, emitAll_trace, show quantizeColor 100 150 200 = 0x64B8 by decide]; rfl
/-- V-FI-4. -/
theorem test_fill_notReady : traceOf (.fill 255 255 255) = some [] := by decide
/-- V-DP-3. -/
theorem test_drawPixel :
    (nextOf (exec (.drawPixel 239 0 0 0 255) readyState)).map (fun s => wireUnitsFrom .cmd s.trace) =
      some [0x02A, 0x100, 0x1EF, 0x100, 0x1EF, 0x02B, 0x100, 0x100, 0x100, 0x100, 0x02C, 0x100, 0x11F] := by decide
/-- V-DP-7, V-DP-5, V-DP-9: −1, 240 and the most negative coordinate are out of bounds. -/
theorem test_drawPixel_outside :
    (nextOf (exec (.drawPixel 0xFFFFFFFF 0 255 0 0) readyState)).map State.trace = some [] ∧
    (nextOf (exec (.drawPixel 240 0 255 0 0) readyState)).map State.trace = some [] ∧
    (nextOf (exec (.drawPixel 0x80000000 5 1 2 3) readyState)).map State.trace = some [] := by decide
/-- V-DP-13: the panel after V-DP-4. -/
theorem test_drawPixel_panel :
    (nextOf (exec (.drawPixel 10 20 0 255 0) readyState)).map
      (fun s => (gramCell s.panel.gram 10 20, gramCell s.panel.gram 11 20)) = some (some 0x07E0, none) := by decide

/-! Lifecycle, queries and faults (V-LC, V-FT). -/

/-- V-LC-7: ready, setup_done and seq_pc after the first SETUP. -/
theorem test_setup :
    ∃ t, exec .setup State.reset = .next t ∧ t.ready = true ∧ t.setupDone = true ∧ t.seqPc = 7 := by
  refine ⟨_, accept_next (body := setupBody) (s := State.reset) (by decide)
    (by rw [setupBody_eq]; exact if_neg (by decide)), ?_, ?_, ?_⟩
  · rw [endOp_ready, setupState, markReady_ready]
  · rw [endOp_setupDone, setupState, markReady_setupDone]; simp
  · rw [endOp_seqPc, setupState, markReady_seqPc, writeColorRun_seqPc, sendWindow_seqPc, runInit_seqPc]
    simp [State.reset, State.resetWith, Config.ref, Config.refInit]
/-- V-FT-1. -/
theorem test_setup_repeated : faultOf (exec .setup readyState) = some .setupRepeated := by decide
/-- V-LC-1, V-LC-2. -/
theorem test_update :
    (nextOf (exec .update State.reset)).map State.diagCount = some 1 ∧
    (nextOf (exec .update { State.reset with diagCount := 0xFFFFFFFF })).map State.diagCount = some 0 := by decide
/-- V-LC-3. -/
theorem test_getWidth : (nextOf (exec .getWidth State.reset)).map State.returns = some [.u16 240] := by decide
/-- V-LC-4. -/
theorem test_getHeight : (nextOf (exec .getHeight State.reset)).map State.returns = some [.u16 240] := by decide
/-- V-LC-5. -/
theorem test_getIsColor : (nextOf (exec .getIsColor State.reset)).map State.returns = some [.bool true] := by decide
/-- V-LC-6, with a counter of 3 (P3). -/
theorem test_getDiagCount :
    (nextOf (exec .getDiagCount { State.reset with diagCount := 3 })).map State.returns = some [.u32 3] := by decide
/-- V-FT-2, V-FT-3. -/
theorem test_busy :
    faultOf (exec (.fill 0 0 0) { readyState with busy := true }) = some .concurrentOp ∧
    faultOf (exec .getWidth { readyState with busy := true }) = some .concurrentOp := by decide
/-- V-FT-4. -/
theorem test_step_illformed :
    refusalOf (step (State.resetWith (withTable (Config.refInit.take 6 ++ [⟨0x29, [], 100⟩])))) =
      some .initTableIllformed := by decide
/-- A word placed for the next step runs (R113). -/
theorem test_step_fetch :
    (nextOf (step (State.reset.withFetchWord 16 0x12C))).map (fun s => (s.trace, s.pending)) =
      some ([.dc .data, .cs .asserted, .byte 0x2C, .cs .deasserted], []) := by decide
/-- A word that is no unit is refused. -/
theorem test_step_undecodable :
    refusalOf (step (State.reset.withFetchWord 16 0x201)) = some (.undecodable .notAWireUnit) := by decide
/-- R141 and CFG0. -/
theorem test_reset : State.reset.cs = .deasserted ∧ State.reset.trace = [] ∧ State.reset.cfg.hasRst = false := by decide

/-! The panel (R49 to R57). -/

/-- R49: a byte while select is deasserted is not received. -/
theorem test_panel_deselected : (emit (.byte 0x2C) State.reset).panel.cmd = none := by decide
/-- R51: the pointer wraps to the window's first column and the next row. -/
theorem test_panel_wraps :
    (nextOf (exec (.writeData16 0x2222) (panelAt { primed with wc := 2 }))).map (fun s => (s.panel.wc, s.panel.wr)) =
      some (1, 2) := by decide
/-- R52: a pixel beyond the window leaves no byte with a known value. -/
theorem test_panel_beyond :
    (nextOf (exec (.writeData16 5) (panelAt { primed with wr := 3, gram := [(0, 7)] }))).map (·.panel.gram) = some [] := by
  decide
/-- R54: data after another command changes no bound. -/
theorem test_panel_other :
    (nextOf (exec (.writeData8 0x48) (panelAt { primed with cmd := some 0x36 }))).map (fun s => (s.panel.xs, s.panel.pidx)) =
      some (1, 1) := by decide
/-- R57: a byte in a settle time leaves no byte of the frame memory with a known value. -/
theorem test_panel_settling :
    (nextOf (exec (.writeCmd 0x2C) (panelAt { primed with settle := 1, gram := [(0, 7)] }))).map (·.panel.gram) = some [] := by
  decide
/-- R34, R51: a cell's bytes, the most significant first, and a rewrite keeps one entry for each address. -/
theorem test_gram :
    gramWrite16 (gramWrite16 [] 4 0x1234) 4 0x5678 = [(4, 0x56), (5, 0x78)] ∧
    gramWrite (gramWrite [] 9 1) 3 2 = [(3, 2), (9, 1)] := by decide
/-- V-PM-1's addresses lie in their own cells: the last cell ends the frame memory. -/
theorem test_cellAddr : cellAddr 0 0 = 0 ∧ cellAddr 0 1 = 480 ∧ cellAddr 239 239 + 1 = 115199 := by decide

/-! Witnesses: for every obligation with hypotheses, a state and operands that meet them all. -/

/-- A named command, a vendor opcode at each end of its block, and a data byte. -/
theorem witness_EveryWireRowSendsItsUnit :
    wireOf .cmdMemoryWrite = some 0x02C ∧ wireOf (.cmdVendor84To87 0) = some 0x084 ∧
    wireOf (.cmdVendorC0ToFF 63) = some 0x0FF ∧ wireOf (.dataByte 0xFF) = some 0x1FF := by decide

/-- The pin present and absent. -/
theorem witness_HwResetPulseOnlyWithThePin :
    pinState.cfg.hasRst = true ∧ State.reset.cfg.hasRst = false := by decide

/-- A step with a payload, and a step that starts a settle time, with none. -/
theorem witness_InitStepsKeepTheFrameMemory :
    Accepting State.reset ∧ wfStep ⟨0x36, [0x48], 5⟩ = true ∧
    (startsSettle 0x36 = true → ([0x48] : List Byte) = []) ∧ wfStep ⟨0x11, [], 120⟩ = true ∧
    (startsSettle 0x11 = true → ([] : List Byte) = []) := by unfold Accepting; decide

theorem witness_RunInitKeepsTheFrameMemory : Accepting State.reset ∧ wfInit State.reset.cfg = true := by
  unfold Accepting; decide

/-- An ill-formed table, for the first clause. -/
theorem witness_InitTableCheckIsItsSevenClauses :
    wfInit (State.resetWith (withTable (Config.refInit.set 4 ⟨0x21, [], 9⟩))).cfg = false := by decide

/-- The smallest window at both corners, and the whole panel. -/
theorem witness_SetWindowPrimesThePanel :
    Accepting State.reset ∧ (0 ≤ 0 ∧ 0 < 240 ∧ 239 ≤ 239 ∧ 239 < 240) ∧ (0 ≤ 239 ∧ 239 < 240) := by
  unfold Accepting; decide

/-- The window clause at the whole panel, the pixel clause at both ends of a coordinate. -/
theorem witness_CompositeOperationsRunTheirUnits :
    (0 ≤ 239 ∧ 239 < 240) ∧ readyState.busy = false ∧ readyState.ready = true ∧
    (0 ≤ (0 : Coord).toInt ∧ (0 : Coord).toInt < 240) ∧ (0 ≤ (239 : Coord).toInt ∧ (239 : Coord).toInt < 240) := by decide

/-- The first clause's hypothesis, at the whole panel; both outcomes of the other two. -/
theorem witness_CountLaws :
    (nextOf (exec (.setWindow 0 0 239 239) State.reset)).isSome = true ∧ readyState.busy = false ∧
    readyState.ready = true ∧ State.reset.busy = false ∧ State.reset.ready = false := by decide

/-- Ready and not ready, neither busy. -/
theorem witness_FillSendsOneRunWhenReady :
    readyState.busy = false ∧ readyState.ready = true ∧ State.reset.busy = false ∧ State.reset.ready = false := by decide

/-- Both sides of each bound: 0 and 239 inside, −1 and 240 outside. -/
theorem witness_DrawPixelSendsOnePixelWhenInBounds :
    readyState.busy = false ∧ readyState.ready = true ∧
    (0 ≤ (0 : Coord).toInt ∧ (239 : Coord).toInt < 240) ∧ ¬ 0 ≤ (0xFFFFFFFF : Coord).toInt ∧ ¬ (240 : Coord).toInt < 240 := by
  decide

theorem witness_FirstSetupRunsToReady : State.reset.busy = false ∧ State.reset.setupDone = false := by decide

/-- From a controller still in a settle time, too. -/
theorem witness_SetupFillsThePanelFromAnyControllerState :
    (panelAt { primed with settle := 500 }).busy = false ∧ (panelAt { primed with settle := 500 }).setupDone = false ∧
    wfInit (panelAt { primed with settle := 500 }).cfg = true ∧
    (panelAt { primed with settle := 500 }).rst = .inactive := by decide

theorem witness_SecondSetupFaults : readyState.busy = false ∧ readyState.setupDone = true := by decide

/-- Before and after setup. -/
theorem witness_UpdateCountsOneTick : State.reset.busy = false ∧ readyState.busy = false := by decide

/-- Before and after setup. -/
theorem witness_QueriesReturnTheirValues : State.reset.busy = false ∧ readyState.busy = false := by decide

theorem witness_BeforeSetupNothingIsSent : State.reset.busy = false ∧ State.reset.ready = false := by decide

theorem witness_BusyHostOperationFaults :
    isHostInstr .setup = true ∧ { readyState with busy := true }.busy = true := by decide

/-- A state for each of the three cases. -/
theorem witness_HostOperationsStopOnlyAsTheSpecSays :
    isHostInstr .setup = true ∧ isHostInstr .getDiagCount = true ∧ { readyState with busy := true }.busy = true ∧
    (readyState.busy = false ∧ readyState.setupDone = true) ∧ (State.reset.busy = false ∧ State.reset.setupDone = false) := by
  decide

/-- An accepting controller, and a deselected one. -/
theorem witness_CommandByteAtThePanel : Accepting (panelAt primed) ∧ (panelAt primed).cs = .deasserted := by
  unfold Accepting; decide

/-- The last counted byte of each command, and the first beyond it. -/
theorem witness_WindowBytesAtThePanel :
    Accepting (panelAt { primed with cmd := some 0x2A, pidx := 3 }) ∧
    (panelAt { primed with cmd := some 0x2A, pidx := 3 }).panel.cmd = some 0x2A ∧
    Accepting (panelAt { primed with cmd := some 0x2B, pidx := 4 }) ∧
    (panelAt { primed with cmd := some 0x2B, pidx := 4 }).panel.cmd = some 0x2B := by unfold Accepting; decide

/-- A high byte; a low byte in the last row of the window, beyond it, and outside 240 × 240 in a window whose columns are
exchanged. -/
theorem witness_PixelBytesAtThePanel :
    Accepting (panelAt primed) ∧ primed.cmd = some 0x2C ∧ primed.half = .hi ∧
    (Accepting (panelAt { primed with half := .lo, wr := 2 }) ∧ ¬ primed.ye.toNat < 2) ∧
    (Accepting (panelAt { primed with half := .lo, wr := 3 }) ∧ primed.ye.toNat < 3) ∧
    (Accepting (panelAt { primed with half := .lo, xs := 239, wc := 240 }) ∧ ¬ 240 ≤ (239 : U16).toNat ∧ ¬ 240 < 240) := by
  unfold Accepting; decide

theorem witness_OtherDataKeepsThePanel :
    Accepting (panelAt { primed with cmd := some 0x36 }) ∧
    (panelAt { primed with cmd := some 0x36 }).panel.cmd = some 0x36 ∧
    (0x36 : Byte) ≠ 0x2A ∧ (0x36 : Byte) ≠ 0x2B ∧ (0x36 : Byte) ≠ 0x2C := by unfold Accepting; decide

/-- At the last pixel of the window. -/
theorem witness_WriteData16StoresOnePixel :
    Accepting (panelAt { primed with wc := 2, wr := 2 }) ∧ primed.cmd = some 0x2C ∧ primed.half = .hi ∧
    primed.xs.toNat < 240 ∧ primed.xe.toNat < 240 ∧ primed.ys.toNat < 240 ∧ primed.ye.toNat < 240 ∧
    2 ≤ primed.ye.toNat ∧ 2 < 240 := by unfold Accepting; decide

/-- No pixel, and the whole window. -/
theorem witness_ColorRunFillsTheWindowInOrder :
    Accepting (panelAt primed) ∧ primed.cmd = some 0x2C ∧ primed.half = .hi ∧ primed.xs.toNat = 1 ∧ primed.xe.toNat = 2 ∧
    primed.ys.toNat = 1 ∧ primed.ye.toNat = 2 ∧ primed.wc = 1 ∧ primed.wr = 1 ∧ 1 ≤ 2 ∧ 2 < 240 ∧
    0 ≤ (2 - 1 + 1) * (2 - 1 + 1) ∧ 4 ≤ (2 - 1 + 1) * (2 - 1 + 1) := by unfold Accepting; decide

/-- A settle time of 1 ms, and the reset input active. -/
theorem witness_ForbiddenIntervalLosesThePanel :
    ¬ Accepting (panelAt { primed with settle := 1 }) ∧ ¬ Accepting { State.reset with rst := .active } := by
  unfold Accepting; decide

/-- V-PM-1's window with its pixels in two transactions, and the last single cell. -/
theorem witness_WindowLaw :
    Accepting State.reset ∧ (1 ≤ 2 ∧ 2 < 240) ∧
    ([[0x1111, 0x2222, 0x3333], [0x4444]] : List (List U16)).flatten.length = (2 - 1 + 1) * (2 - 1 + 1) ∧
    (239 ≤ 239 ∧ 239 < 240) ∧ ([[0x1111]] : List (List U16)).flatten.length = (239 - 239 + 1) * (239 - 239 + 1) := by
  unfold Accepting; decide

/-- FILL when ready; FILL_RAW when not. -/
theorem witness_FullFillLaw :
    Accepting readyState ∧ readyState.busy = false ∧ readyState.ready = true ∧ Accepting State.reset ∧
    State.reset.ready = false := by unfold Accepting; decide

/-- A pixel drawn, one out of bounds, one before setup. -/
theorem witness_PixelLaw :
    readyState.busy = false ∧ Accepting readyState ∧ readyState.ready = true ∧
    (0 ≤ (239 : Coord).toInt ∧ (239 : Coord).toInt < 240) ∧ ¬ (240 : Coord).toInt < 240 ∧ State.reset.busy = false ∧
    State.reset.ready = false := by unfold Accepting; decide

theorem witness_FillIsIdempotent :
    readyState.busy = false ∧ readyState.ready = true ∧ Accepting readyState := by unfold Accepting; decide

/-- Both pins, present and absent. -/
theorem witness_PinsFollowTheirSignals :
    pinState.cfg.hasRst = true ∧ pinState.cfg.hasBl = true ∧ State.reset.cfg.hasRst = false ∧
    State.reset.cfg.hasBl = false := by decide

theorem witness_NothingHappensWithoutARequest : wfInit State.reset.cfg = true ∧ State.reset.pending = [] := by decide

/-- A request that is an instruction, one that is none, and a word. -/
theorem witness_StepRunsTheDecodedInstruction :
    wfInit State.reset.cfg = true ∧ decode (.host .update) = .ok .update ∧
    decode (.wire 0x200) = .error .notAWireUnit ∧ decodeTableWord 16 0x02C = some .cmdMemoryWrite ∧
    { State.reset with pending := [.host .update] }.pending = [.host .update] := by decide

/-- A state in the middle of a run of any requests: a pixel was sent and a command is to come. -/
def midState : State :=
  { readyState with
    trace := windowEvents 0 0 0 0 ++ txnEvents .data [0x12, 0x34]
    dc := .data
    panel := { Panel.reset with gram := [(0, 0x12), (1, 0x34)], cmd := some 0x2C, pidx := 2, wr := 1 }
    pending := [.host (.drawPixel 5 5 1 2 3), .wire 0x013] }

theorem midState_inv : Inv midState where
  framed := by decide
  cs := by decide
  sclk := by decide
  rst := by decide
  noBacklight := by decide
  dc := ⟨.data, by decide⟩
  gram := by decide
  seqPc := by decide
  setup := by decide
  busy := by decide

/-- R68: an opcode of the table takes exactly its payload, each byte in a transaction of its own: no byte more, none fewer. -/
theorem test_payloads_exact_init :
    payloadsExact [⟨0x84, [0x40, 0x41], 0⟩] .cmd (stepEvents ⟨0x84, [0x40, 0x41], 0⟩) = true ∧
    payloadsExact [⟨0x84, [0x40, 0x41], 0⟩] .cmd (stepEvents ⟨0x84, [0x40, 0x41, 0x42], 0⟩) = false ∧
    payloadsExact [⟨0x84, [0x40, 0x41], 0⟩] .cmd (stepEvents ⟨0x84, [0x40], 0⟩) = false ∧
    payloadsExact [⟨0x84, [0x40, 0x41], 0⟩] .cmd
      (txnEvents .cmd [0x84] ++ txnEvents .data [0x40, 0x41]) = false ∧
    payloadsExact [⟨0x84, [0x40, 0x41], 0⟩] .cmd (stepEvents ⟨0x85, [], 0⟩) = false := by decide
/-- R68, R150: a 2 × 1 window takes two pixels, not one, and a window command its two 16-bit values. -/
theorem test_payloads_exact_window :
    payloadsExact [] .cmd (windowEvents 0 0 1 0 ++ txnEvents .data [1, 2, 3, 4]) = true ∧
    payloadsExact [] .cmd (windowEvents 0 0 1 0 ++ txnEvents .data [1, 2]) = false ∧
    payloadsExact [] .cmd (txnEvents .cmd [0x2A] ++ txnEvents .data [0, 0, 0, 1]) = false := by decide

/-- The invariant of every run, and a step that is not idle. -/
theorem witness_StepKeepsTheInvariant :
    Inv midState ∧ (nextOf (step midState)).map (fun t => (t.pending, transactionCount t.trace)) = some ([.wire 0x013], 16) :=
  ⟨midState_inv, by decide⟩

/-- The same state with host requests only: a pixel, then a second SETUP. -/
def hostState : State := { midState with pending := [.host (.drawPixel 5 5 1 2 3), .host .setup] }

theorem hostState_inv (rs : List Request) (h : rs.all isHostRequest = true) :
    HostInv { hostState with pending := rs } where
  inv := ⟨midState_inv.framed, midState_inv.cs, midState_inv.sclk, midState_inv.rst, midState_inv.noBacklight,
    midState_inv.dc, midState_inv.gram, midState_inv.seqPc, midState_inv.setup, midState_inv.busy⟩
  hostOnly := h
  settle := (by decide : hostState.panel.settle = 0)
  delays := fun l => by
    cases l
    · exact (by decide : delaysKept .cmd hostState.trace = true)
    · exact (by decide : delaysKept .data hostState.trace = true)
  payloads := fun l => by
    cases l
    · exact (by decide : payloadsExact hostState.cfg.initTable .cmd hostState.trace = true)
    · exact (by decide : payloadsExact hostState.cfg.initTable .data hostState.trace = true)

/-- The invariant of a run of host operations, and a step that is not idle. -/
theorem witness_StepKeepsTheHostInvariant :
    HostInv hostState ∧ (nextOf (step hostState)).map State.pending = some [.host .setup] :=
  ⟨hostState_inv _ (by decide), by decide⟩

/-- Both cases: a pixel to come, and a second SETUP to come. -/
theorem witness_HostRunsStopOnlyOnASecondSetup :
    (HostInv hostState ∧ wfInit hostState.cfg = true ∧ (nextOf (step hostState)).isSome = true) ∧
    HostInv { hostState with pending := [.host .setup] } ∧
    faultOf (step { hostState with pending := [.host .setup] }) = some .setupRepeated :=
  ⟨⟨hostState_inv _ (by decide), by decide, by decide⟩, hostState_inv _ (by decide), by decide⟩

/-- A state whose trace holds every kind of event. -/
def allEvents : State :=
  { pinState with
    trace := [.blHigh, .rst .inactive, .rst .active, .wait 10, .rst .inactive, .wait 120, .dc .cmd, .cs .asserted,
      .byte 0x13, .cs .deasserted]
    bl := .high }

/-- A split of one trace at each kind of event. -/
theorem witness_TracesMeetTheSignalRules :
    Inv allEvents ∧
    allEvents.trace = allEvents.trace.take 6 ++ .dc .cmd :: allEvents.trace.drop 7 ∧
    allEvents.trace = allEvents.trace.take 8 ++ .byte 0x13 :: allEvents.trace.drop 9 ∧
    allEvents.trace = allEvents.trace.take 7 ++ .cs .asserted :: allEvents.trace.drop 8 ∧
    allEvents.trace = allEvents.trace.take 9 ++ .cs .deasserted :: [] ∧
    allEvents.trace = allEvents.trace.take 5 ++ .wait 120 :: allEvents.trace.drop 6 ∧
    allEvents.trace = allEvents.trace.take 2 ++ .rst .active :: allEvents.trace.drop 3 ∧
    allEvents.trace = [] ++ .blHigh :: allEvents.trace.drop 1 :=
  ⟨⟨by decide, by decide, by decide, by decide, by decide, ⟨.cmd, by decide⟩, by decide, by decide, by decide, by decide⟩,
    by decide, by decide, by decide, by decide, by decide, by decide, by decide⟩

/-- An instruction that sends something gives a next state. -/
theorem witness_TraceOnlyGrowsByWholeTransactions :
    (nextOf (exec (.drawPixel 5 5 1 2 3) midState)).isSome = true := by decide

/-- A rising edge in a waveform that starts with the clock low: mosi held high, then the first bit of a byte. -/
theorem witness_BytesGoOutMostSignificantBitFirst :
    (⟨.high, .low⟩ :: byteWaveform 0xA5)[1]? = some ⟨.high, .low⟩ ∧
    (⟨.high, .low⟩ :: byteWaveform 0xA5)[2]? = some ⟨.high, .high⟩ := by decide

/-- Instructions of each clause give a next state. -/
theorem witness_WhoWritesTheStatusFields :
    (nextOf (exec .update midState)).isSome = true ∧ (nextOf (exec .runInit midState)).isSome = true ∧
    (nextOf (exec .getWidth midState)).isSome = true ∧ (nextOf (exec .getHeight midState)).isSome = true ∧
    (nextOf (exec .getIsColor midState)).isSome = true ∧ (nextOf (exec .getDiagCount midState)).isSome = true ∧
    (nextOf (exec (.quantize 1 2 3) midState)).isSome = true := by
  decide

end Sys2Proof.Tests
end

section
/-! The pins of R10 and R26: each level read off its signal. A select or reset pin shows its active level only while its
signal is active, because the other level is a different one (`opposite_ne`). -/

namespace Sys2Proof.Machine

@[simp] theorem opposite_ne (l : Level) : opposite l ≠ l := by
  cases l <;> decide

theorem modeLevel_eq_ite (m : Mode) : modeLevel m = if m = .cmd then .low else .high := by
  cases m <;> rfl

theorem csPin_eq_activeLevel_iff (s : State) : csPin s = s.cfg.csActiveLevel ↔ s.cs = .asserted := by
  cases h : s.cs with
  | asserted => simp [csPin, h]
  | deasserted => simp [csPin, h]

theorem rstPin_eq_activeLevel_iff (s : State) (hasRst : s.cfg.hasRst = true) :
    rstPin s = some s.cfg.rstActiveLevel ↔ s.rst = .active := by
  cases h : s.rst with
  | active => simp [rstPin, hasRst, h]
  | inactive => simp [rstPin, hasRst, h]

theorem rstPin_eq_none_of_absent (s : State) (noRst : s.cfg.hasRst = false) : rstPin s = none := by
  simp [rstPin, noRst]

/-- Settles O49: one fact per pin; the backlight pin is its definition. -/
theorem pinsFollowTheirSignals : Obligations.PinsFollowTheirSignals := fun s =>
  ⟨modeLevel_eq_ite s.dc, csPin_eq_activeLevel_iff s, rstPin_eq_activeLevel_iff s, rstPin_eq_none_of_absent s, rfl⟩

end Sys2Proof.Machine
end

section
/-! The status fields after every instruction: cfg, ready, setup_done, busy, diag_count, seq_pc, the returned values,
quantOut and the requests to come (R20 to R24, R28). `exec_sameStatus` is to these fields what `exec_sameBus` is to the bus. -/

namespace Sys2Proof.Machine

/-- Two states agree on every field outside the bus (`SameBus` holds the others). -/
structure SameStatus (t u : State) : Prop where
  cfg : t.cfg = u.cfg
  ready : t.ready = u.ready
  setupDone : t.setupDone = u.setupDone
  busy : t.busy = u.busy
  diagCount : t.diagCount = u.diagCount
  seqPc : t.seqPc = u.seqPc
  returns : t.returns = u.returns
  quantOut : t.quantOut = u.quantOut
  pending : t.pending = u.pending

theorem SameStatus.refl (s : State) : SameStatus s s := ⟨rfl, rfl, rfl, rfl, rfl, rfl, rfl, rfl, rfl⟩

theorem sameStatus_emitAll (es : List BusEvent) (s : State) : SameStatus (emitAll es s) s := by
  constructor <;> simp

theorem sameStatus_runInit (s : State) : SameStatus (runInit s) { s with seqPc := s.cfg.initTable.length } := by
  constructor <;> simp

/-- The state a first SETUP reaches is ready and set up, with the table done (R114). -/
theorem sameStatus_setupState (s : State) :
    SameStatus (setupState s) (markReady (markSetupDone { s with seqPc := s.cfg.initTable.length })) := by
  constructor <;> simp [setupState]

theorem sameStatus_of_next {s t u : State} (h : (Host.Outcome.next u : Result) = .next t) (g : SameStatus u s) :
    SameStatus t s := by
  cases h; exact g

/-- An outcome that is only bus events writes no status field. -/
theorem sameStatus_of_next_emitAll {es : List BusEvent} {s t : State}
    (h : (Host.Outcome.next (emitAll es s) : Result) = .next t) : SameStatus t s :=
  sameStatus_of_next h (sameStatus_emitAll es s)

/-- An accepted operation writes what its body writes, and leaves busy as it was (R130). -/
theorem sameStatus_accept {body : State → Result} {r s t : State} (h : accept body s = .next t) (hr : r.busy = s.busy)
    (hbody : ∀ u, body (beginOp s) = .next u → SameStatus u (beginOp r)) : SameStatus t r := by
  obtain ⟨hb, u, hu, rfl⟩ := accept_eq_next h
  obtain ⟨h1, h2, h3, -, h5, h6, h7, h8, h9⟩ := hbody u hu
  constructor <;> simp_all

/-- The same where the body is one update of the state (R116 to R120). -/
theorem sameStatus_accept_next {f : State → State} {r s t : State} (h : accept (fun u => .next (f u)) s = .next t)
    (hr : r.busy = s.busy) (hf : f (beginOp s) = beginOp r) : SameStatus t r :=
  sameStatus_accept h hr fun _ hu => sameStatus_of_next hu (hf ▸ .refl _)

/-- The state whose status fields are those after an instruction that does not stop. -/
def statusAfter (i : Instr) (s : State) : State :=
  match i with
  | .setup => markReady (markSetupDone { s with seqPc := s.cfg.initTable.length })
  | .runInit => { s with seqPc := s.cfg.initTable.length }
  | .update => countTick s
  | .quantize r g b => { s with quantOut := quantizeColor r g b }
  | .getWidth => returnValue (.u16 (BitVec.ofNat 16 panelWidth)) s
  | .getHeight => returnValue (.u16 (BitVec.ofNat 16 panelHeight)) s
  | .getIsColor => returnValue (.bool true) s
  | .getDiagCount => returnValue (.u32 s.diagCount) s
  | .cmdSoftwareReset | .cmdSleepOut | .cmdNormalModeOn | .cmdInversionOn | .cmdDisplayOn | .cmdColumnAddressSet
  | .cmdRowAddressSet | .cmdMemoryWrite | .cmdMemoryAccessControl | .cmdPixelFormatSet | .cmdVendor84To87 _
  | .cmdVendor88To8F _ | .cmdVendor90To97 _ | .cmdVendor98 | .cmdVendorB6 | .cmdVendorBCToBF _ | .cmdVendorC0ToFF _
  | .dataByte _ | .writeCmd _ | .writeData8 _ | .writeData16 _ | .writeColorRun _ _ | .waitMs _ | .driveBacklight
  | .hwResetPulse | .execStep _ | .setWindow _ _ _ _ | .fillRaw _ _ _ | .fill _ _ _ | .drawPixel _ _ _ _ _ => s

/-- Every instruction that gives a next state leaves the status fields as `statusAfter` says. -/
theorem exec_sameStatus {i : Instr} {s t : State} (h : exec i s = .next t) : SameStatus t (statusAfter i s) := by
  cases i with
  | cmdSoftwareReset | cmdSleepOut | cmdNormalModeOn | cmdInversionOn | cmdDisplayOn | cmdColumnAddressSet
  | cmdRowAddressSet | cmdMemoryWrite | cmdMemoryAccessControl | cmdPixelFormatSet | cmdVendor84To87
  | cmdVendor88To8F | cmdVendor90To97 | cmdVendor98 | cmdVendorB6 | cmdVendorBCToBF | cmdVendorC0ToFF | dataByte
  | writeCmd | writeData8 | writeData16 | writeColorRun | waitMs =>
    exact sameStatus_of_next_emitAll h
  | driveBacklight => exact sameStatus_of_next h (by rw [driveBacklight_emitAll]; exact sameStatus_emitAll _ s)
  | hwResetPulse => exact sameStatus_of_next h (by rw [hwResetPulse_emitAll]; exact sameStatus_emitAll _ s)
  | execStep st => exact sameStatus_of_next h (by rw [runStep_emitAll]; exact sameStatus_emitAll _ s)
  | runInit => exact sameStatus_of_next h (sameStatus_runInit s)
  | setWindow x1 y1 x2 y2 =>
    have h : setWindow x1 y1 x2 y2 s = .next t := h
    rw [setWindow_eq, sendWindow_emitAll] at h
    split at h
    · exact sameStatus_of_next_emitAll h
    · cases h
  | quantize r g b => exact sameStatus_of_next h (.refl _)
  | fillRaw r g b =>
    have h : fillRaw r g b s = .next t := h
    rw [fillRaw_eq, fullFill_emitAll] at h
    exact sameStatus_of_next_emitAll h
  | setup =>
    refine sameStatus_accept (body := setupBody) h rfl fun u hu => ?_
    rw [setupBody_eq] at hu
    split at hu
    · cases hu
    · exact sameStatus_of_next hu (sameStatus_setupState (beginOp s))
  | update => exact sameStatus_accept_next (f := countTick) h rfl rfl
  | fill r g b =>
    refine sameStatus_accept (body := fillBody r g b) h rfl fun u hu => ?_
    rw [fillBody_eq, fullFill_emitAll] at hu
    split at hu
    · exact sameStatus_of_next_emitAll hu
    · exact sameStatus_of_next hu (.refl _)
  | drawPixel x y r g b =>
    refine sameStatus_accept (body := drawPixelBody x y r g b) h rfl fun u hu => ?_
    rw [drawPixelBody_eq, writeData16, txn_emitAll, sendWindow_emitAll, ← emitAll_append] at hu
    split at hu
    · exact sameStatus_of_next_emitAll hu
    · exact sameStatus_of_next hu (.refl _)
  | getWidth | getHeight | getIsColor => exact sameStatus_accept_next (f := returnValue _) h rfl rfl
  | getDiagCount => exact sameStatus_accept_next (f := fun u => returnValue (.u32 u.diagCount) u) h rfl rfl

/-! The writers of each field. -/

@[simp] theorem statusAfter_cfg (i : Instr) (s : State) : (statusAfter i s).cfg = s.cfg := by
  cases i <;> rfl

@[simp] theorem statusAfter_pending (i : Instr) (s : State) : (statusAfter i s).pending = s.pending := by
  cases i <;> rfl

@[simp] theorem statusAfter_busy (i : Instr) (s : State) : (statusAfter i s).busy = s.busy := by
  cases i <;> rfl

@[simp] theorem statusAfter_setup_ready (s : State) : (statusAfter .setup s).ready = true := by
  simp only [statusAfter, markReady_ready]

@[simp] theorem statusAfter_setup_setupDone (s : State) : (statusAfter .setup s).setupDone = true := by
  simp only [statusAfter, markReady_setupDone, markSetupDone_setupDone]

theorem statusAfter_ready_of_ne {i : Instr} (h : i ≠ .setup) (s : State) : (statusAfter i s).ready = s.ready := by
  cases i with
  | setup => exact absurd rfl h
  | _ => rfl

theorem statusAfter_setupDone_of_ne {i : Instr} (h : i ≠ .setup) (s : State) :
    (statusAfter i s).setupDone = s.setupDone := by
  cases i with
  | setup => exact absurd rfl h
  | _ => rfl

/-- READY never falls (R21). -/
theorem statusAfter_ready_of_ready (i : Instr) {s : State} (h : s.ready = true) : (statusAfter i s).ready = true := by
  by_cases hi : i = .setup
  · rw [hi, statusAfter_setup_ready]
  · rw [statusAfter_ready_of_ne hi, h]

/-- setup_done never falls (R22). -/
theorem statusAfter_setupDone_of_setupDone (i : Instr) {s : State} (h : s.setupDone = true) :
    (statusAfter i s).setupDone = true := by
  by_cases hi : i = .setup
  · rw [hi, statusAfter_setup_setupDone]
  · rw [statusAfter_setupDone_of_ne hi, h]

theorem statusAfter_diagCount_of_ne {i : Instr} (h : i ≠ .update) (s : State) :
    (statusAfter i s).diagCount = s.diagCount := by
  cases i with
  | update => exact absurd rfl h
  | _ => rfl

theorem statusAfter_seqPc_of_ne {i : Instr} (hr : i ≠ .runInit) (hs : i ≠ .setup) (s : State) :
    (statusAfter i s).seqPc = s.seqPc := by
  cases i with
  | runInit => exact absurd rfl hr
  | setup => exact absurd rfl hs
  | _ => rfl

theorem statusAfter_quantOut_of_ne {i : Instr} (h : ∀ r g b, i ≠ .quantize r g b) (s : State) :
    (statusAfter i s).quantOut = s.quantOut := by
  cases i with
  | quantize r g b => exact absurd rfl (h r g b)
  | _ => rfl

/-- A query appends one value (R70). -/
theorem statusAfter_returns_of_query {i : Instr}
    (h : i ∈ ([.getWidth, .getHeight, .getIsColor, .getDiagCount] : List Instr)) (s : State) :
    ∃ v, (statusAfter i s).returns = s.returns ++ [v] := by
  simp only [List.mem_cons, List.not_mem_nil, or_false] at h
  rcases h with rfl | rfl | rfl | rfl <;> exact ⟨_, returnValue_returns _ s⟩

theorem statusAfter_returns_of_not_query {i : Instr}
    (h : i ∉ ([.getWidth, .getHeight, .getIsColor, .getDiagCount] : List Instr)) (s : State) :
    (statusAfter i s).returns = s.returns := by
  cases i with
  | getWidth | getHeight | getIsColor | getDiagCount => simp at h
  | _ => rfl

/-- Settles O58: the status fields after an instruction are those of `statusAfter`, read field by field. -/
theorem whoWritesTheStatusFields : Obligations.WhoWritesTheStatusFields := by
  intro i s t h
  obtain ⟨cfg, ready, setupDone, busy, diagCount, seqPc, returns, quantOut, pending⟩ := exec_sameStatus h
  rw [cfg, ready, setupDone, busy, diagCount, seqPc, returns, quantOut, pending]
  exact ⟨statusAfter_cfg i s, statusAfter_pending i s, statusAfter_busy i s, statusAfter_ready_of_ready i,
    statusAfter_setupDone_of_setupDone i, fun hi => ⟨statusAfter_ready_of_ne hi s, statusAfter_setupDone_of_ne hi s⟩,
    fun hi => statusAfter_diagCount_of_ne hi s, fun hr hs => statusAfter_seqPc_of_ne hr hs s,
    fun hq => statusAfter_returns_of_query hq s, fun hq => statusAfter_returns_of_not_query hq s,
    fun hi => statusAfter_quantOut_of_ne hi s⟩

end Sys2Proof.Machine
end

section
/-! Every instruction sends whole units (R38, R42): transactions, waits, the backlight event and the reset pulse, one after
the other. What each unit keeps, every instruction keeps: framing, reset inactive, an absent backlight off. -/

namespace Sys2Proof.Machine

/-- A sequence of whole bus units, for the pins of a configuration. -/
inductive BusUnits (c : Config) : List BusEvent → Prop where
  | nil : BusUnits c []
  | txn (l : Mode) (bs : List Byte) : BusUnits c (txnEvents l bs)
  | wait (d : Nat) : BusUnits c (waitEvents d)
  | backlight : BusUnits c (backlightEvents c)
  | reset : BusUnits c (hwResetEvents c)
  | append {es fs : List BusEvent} : BusUnits c es → BusUnits c fs → BusUnits c (es ++ fs)

variable {c : Config} {es : List BusEvent}

theorem BusUnits.flatMap {α : Type} {f : α → List BusEvent} (h : ∀ x, BusUnits c (f x)) (l : List α) :
    BusUnits c (l.flatMap f) := by
  induction l with
  | nil => exact .nil
  | cons x l ih => rw [List.flatMap_cons]; exact (h x).append ih

theorem busUnits_step (st : InitStep) : BusUnits c (stepEvents st) :=
  ((BusUnits.txn .cmd _).append (.flatMap (fun p => .txn .data [p]) _)).append (.wait _)

theorem busUnits_window (x1 y1 x2 y2 : Nat) : BusUnits c (windowEvents x1 y1 x2 y2) :=
  ((((((BusUnits.txn .cmd _).append (.txn .data _)).append (.txn .data _)).append (.txn .cmd _)).append
    (.txn .data _)).append (.txn .data _)).append (.txn .cmd _)

theorem busUnits_fullFill (v : U16) : BusUnits c (fullFillEvents v) :=
  (busUnits_window 0 0 239 239).append (.txn .data _)

theorem busUnits_setup : BusUnits c (setupEvents c) :=
  ((BusUnits.backlight.append .reset).append (.flatMap busUnits_step _)).append (busUnits_fullFill _)

/-- Every instruction emits whole bus units. -/
theorem busUnits_busEvents (i : Instr) (s : State) : BusUnits s.cfg (busEvents i s) := by
  cases i with
  | cmdSoftwareReset | cmdSleepOut | cmdNormalModeOn | cmdInversionOn | cmdDisplayOn | cmdColumnAddressSet
  | cmdRowAddressSet | cmdMemoryWrite | cmdMemoryAccessControl | cmdPixelFormatSet | cmdVendor84To87
  | cmdVendor88To8F | cmdVendor90To97 | cmdVendor98 | cmdVendorB6 | cmdVendorBCToBF | cmdVendorC0ToFF | dataByte
  | writeCmd | writeData8 | writeData16 | writeColorRun => exact .txn _ _
  | waitMs d => exact .wait _
  | driveBacklight => exact .backlight
  | hwResetPulse => exact .reset
  | execStep st => exact busUnits_step st
  | runInit => exact .flatMap busUnits_step _
  | setWindow x1 y1 x2 y2 => exact busUnits_window x1 y1 x2 y2
  | fillRaw r g b => exact busUnits_fullFill _
  | setup => exact busUnits_setup
  | fill r g b =>
    simp only [busEvents]; split
    · exact busUnits_fullFill _
    · exact .nil
  | drawPixel x y r g b =>
    simp only [busEvents]; split
    · exact (busUnits_window _ _ _ _).append (.txn _ _)
    · exact .nil
  | quantize | update | getWidth | getHeight | getIsColor | getDiagCount => exact .nil

/-! What whole units keep. -/

theorem BusUnits.framed (h : BusUnits c es) : framed es = true := by
  induction h with
  | nil => rfl
  | txn l bs => exact framed_txn l bs
  | wait d => exact framed_wait d
  | backlight => exact framed_bl c
  | reset => exact framed_rst c
  | append _ _ ihe ihf => exact framed_append ihe ihf

/-- Whole units leave the reset signal inactive: the pulse ends so (R87). -/
theorem BusUnits.rst_inactive (h : BusUnits c es) {s : State} (hs : s.rst = .inactive) :
    (emitAll es s).rst = .inactive := by
  induction h generalizing s with
  | nil => simpa using hs
  | txn l bs => rw [← txn_emitAll, txn_rst, hs]
  | wait d => rw [← waitMs_emitAll, waitMs_rst, hs]
  | backlight => unfold backlightEvents; split <;> simpa using hs
  | reset =>
    unfold hwResetEvents; split
    · simp [resetPulseEvents, emitAll_append, ← waitMs_emitAll]
    · simpa using hs
  | append _ _ ihe ihf => rw [emitAll_append]; exact ihf (ihe hs)

/-- Without the backlight pin no unit drives bl (R26, R86). -/
theorem BusUnits.bl_of_absent (h : BusUnits c es) (hc : c.hasBl = false) (s : State) : (emitAll es s).bl = s.bl := by
  induction h generalizing s with
  | nil => simp
  | txn l bs => rw [← txn_emitAll, txn_bl]
  | wait d => rw [← waitMs_emitAll, waitMs_bl]
  | backlight => simp [backlightEvents, hc]
  | reset => unfold hwResetEvents; split <;> simp [resetPulseEvents, emitAll_append, ← waitMs_emitAll]
  | append _ _ ihe ihf => rw [emitAll_append, ihf, ihe]

end Sys2Proof.Machine
end

section
/-! The invariant of every run is kept by every instruction, hence by every step (R20 to R22, R26, R88, R130). -/

namespace Sys2Proof.Machine

open Sys2Proof.Safety

/-- The sequencer position stays inside the table (R20). -/
theorem statusAfter_seqPc_le (i : Instr) {s : State} (h : s.seqPc ≤ s.cfg.initTable.length) :
    (statusAfter i s).seqPc ≤ s.cfg.initTable.length := by
  cases i with
  | setup | runInit => exact le_rfl
  | _ => exact h

/-- READY only after a setup (R21, R22): SETUP alone writes either, and it sets both. -/
theorem statusAfter_setupDone_of_ready (i : Instr) {s : State} (h : s.ready = true → s.setupDone = true) :
    (statusAfter i s).ready = true → (statusAfter i s).setupDone = true := by
  by_cases hi : i = .setup
  · rw [hi]; simp
  · rwa [statusAfter_ready_of_ne hi, statusAfter_setupDone_of_ne hi]

/-- At the bus the next state is the state after whole units, at the status fields it is `statusAfter`. -/
theorem exec_keeps_inv {i : Instr} {s t : State} (inv : Inv s) (h : exec i s = .next t) : Inv t := by
  have bus := exec_sameBus h
  have status := exec_sameStatus h
  have units := busUnits_busEvents i s
  have hcfg : t.cfg = s.cfg := status.cfg.trans (statusAfter_cfg i s)
  have htrace : t.trace = s.trace ++ busEvents i s := bus.trace.trans (emitAll_trace _ s)
  refine
    { framed := ?_, cs := ?_, sclk := ?_, rst := ?_, noBacklight := ?_, dc := ?_, gram := ?_, seqPc := ?_, setup := ?_,
      busy := ?_ }
  · rw [htrace]; exact framed_append inv.framed units.framed
  · rw [bus.cs, emitAll_cs, inv.cs]; exact csAfter_framed _ units.framed
  · rw [bus.sclk]; exact emitAll_sclk _ s inv.sclk
  · rw [bus.rst]; exact units.rst_inactive inv.rst
  · rw [hcfg, bus.bl]; intro hc; rw [units.bl_of_absent hc, inv.noBacklight hc]
  · obtain ⟨l, hl⟩ := inv.dc
    exact ⟨l, by rw [bus.dc, emitAll_dc, htrace, dcAfter_append, ← hl]⟩
  · rw [bus.panel]; exact gramWf_emitAll _ inv.gram
  · rw [hcfg, status.seqPc]; exact statusAfter_seqPc_le i inv.seqPc
  · rw [status.ready, status.setupDone]; exact statusAfter_setupDone_of_ready i inv.setup
  · rw [status.busy, statusAfter_busy, inv.busy]

/-- The requests to come are no part of the invariant. -/
theorem inv_of_pending {s : State} (rs : List Request) (inv : Inv s) : Inv { s with pending := rs } :=
  ⟨inv.framed, inv.cs, inv.sclk, inv.rst, inv.noBacklight, inv.dc, inv.gram, inv.seqPc, inv.setup, inv.busy⟩

/-- A step that does not stop found no request and changed nothing, or executed the instruction of the next request on the
state without it (R113, R142). -/
theorem step_eq_next {s t : State} (h : step s = .next t) :
    wfInit s.cfg = true ∧ ((s.pending = [] ∧ t = s) ∨
      ∃ r rest i, s.pending = r :: rest ∧ decode r = .ok i ∧ exec i { s with pending := rest } = .next t) := by
  unfold step takeRequest at h
  split at h
  · rename_i hwf
    refine ⟨hwf, ?_⟩
    cases hp : s.pending with
    | nil => rw [hp] at h; cases h; exact .inl ⟨rfl, rfl⟩
    | cons r rest =>
      simp only [hp] at h
      cases hd : decode r with
      | ok i => rw [hd] at h; exact .inr ⟨r, rest, i, rfl, hd, h⟩
      | error e => rw [hd] at h; cases h
  · cases h

/-- Settles O53: a step is idle or an instruction, and an instruction keeps the invariant. -/
theorem stepKeepsTheInvariant : Obligations.StepKeepsTheInvariant := by
  intro s t inv h
  obtain ⟨-, ⟨-, rfl⟩ | ⟨r, rest, i, -, -, hexec⟩⟩ := step_eq_next h
  · exact inv
  · exact exec_keeps_inv (inv_of_pending rest inv) hexec

end Sys2Proof.Machine
end

section
/-! A run of host operations (R92, R95, R148, R150): each event list a host operation can send pays every settle delay, ends
with its last command complete, and leaves no settle time running. What it sends is empty, a full fill, one pixel, or SETUP. -/

namespace Sys2Proof.Machine

open Sys2Proof.Safety

/-- A sequence of events that keeps what `HostInv` asks beyond `Inv`, from wherever it starts between operations. -/
structure KeepsHostRules (c : Config) (es : List BusEvent) : Prop where
  owed : ∀ l, ∃ l', owedRun (Owed.start l) es = some (Owed.start l')
  stream : ∀ q, StreamIdle c.initTable q → ∃ q', streamRun c.initTable q es = some q' ∧ StreamIdle c.initTable q'
  settle : ∀ s : State, s.panel.settle = 0 → (emitAll es s).panel.settle = 0

theorem KeepsHostRules.nil (c : Config) : KeepsHostRules c [] where
  owed l := ⟨l, rfl⟩
  stream q hq := ⟨q, rfl, hq⟩
  settle _ hs := hs

theorem KeepsHostRules.append {c : Config} {es fs : List BusEvent} (he : KeepsHostRules c es)
    (hf : KeepsHostRules c fs) : KeepsHostRules c (es ++ fs) where
  owed l := by
    obtain ⟨l', h⟩ := he.owed l
    rw [owedRun_append, h]
    exact hf.owed l'
  stream q hq := by
    obtain ⟨q', h, hq'⟩ := he.stream q hq
    rw [streamRun_append, h]
    exact hf.stream q' hq'
  settle s hs := by
    rw [emitAll_append]
    exact hf.settle _ (he.settle s hs)

theorem keepsHostRules_backlight (c : Config) : KeepsHostRules c (backlightEvents c) where
  owed l := ⟨l, owedRun_bl c l⟩
  stream q hq := ⟨q, streamRun_bl _ c q, hq⟩
  settle s hs := by rw [settle_bl, hs]

theorem keepsHostRules_reset (c : Config) : KeepsHostRules c (hwResetEvents c) where
  owed l := ⟨l, owedRun_rst c l⟩
  stream q hq := ⟨q, streamRun_rst _ c q, hq⟩
  settle s hs := settle_rst c s hs

/-- The table of a configuration that meets WF_INIT (R92). -/
theorem keepsHostRules_table {c : Config} (hwf : wfInit c = true) :
    KeepsHostRules c (c.initTable.flatMap stepEvents) where
  owed l := owedRun_steps _ l _ fun st hst => ⟨(wfInit_step hwf st hst).1, (wfInit_step hwf st hst).2.1⟩
  stream _ hq := streamRun_steps _ _ (fun _ hst => hst) hq fun st hst => (wfInit_step hwf st hst).2.2
  settle s hs := settle_steps _ s (fun st hst => (wfInit_step hwf st hst).1) hs

theorem keepsHostRules_fullFill (c : Config) (v : U16) : KeepsHostRules c (fullFillEvents v) where
  owed l := owedRun_full v l _
  stream _ hq := streamRun_full _ v hq
  settle s hs := by rw [settle_full, hs]

/-- A window of one pixel takes one 16-bit value (R105). -/
theorem keepsHostRules_pixel (c : Config) {x y : Nat} (hx : x < 240) (hy : y < 240) (v : U16) :
    KeepsHostRules c (windowEvents x y x y ++ txnEvents .data (bytes16 v)) where
  owed l := by
    obtain ⟨l', h⟩ := owedRun_window x y x y l .inactive
    exact ⟨.data, by rw [owedRun_append, Owed.start, h, Option.bind_some, owedRun_txn_data]; rfl⟩
  stream q hq := by
    obtain ⟨q', h, hcmd, hcurrent, hgroups, hcols, hrows⟩ := streamRun_window c.initTable hx hy hx hy hq
    rw [streamRun_append, h]
    exact streamRun_pixels _ hcmd hcurrent hgroups _ (by simp [hcols, hrows, bytes16])
  settle s hs := by rw [emitAll_append, settle_txn_data, settle_window, hs]

theorem keepsHostRules_setup {c : Config} (hwf : wfInit c = true) : KeepsHostRules c (setupEvents c) :=
  (((keepsHostRules_backlight c).append (keepsHostRules_reset c)).append (keepsHostRules_table hwf)).append
    (keepsHostRules_fullFill c _)

/-- What a host operation sends keeps the rules of a run of host operations. -/
theorem keepsHostRules_busEvents {i : Instr} {s : State} (hi : isHostInstr i = true) (hwf : wfInit s.cfg = true) :
    KeepsHostRules s.cfg (busEvents i s) := by
  cases i with
  | setup => exact keepsHostRules_setup hwf
  | fill r g b =>
    simp only [busEvents]; split
    · exact keepsHostRules_fullFill _ _
    · exact .nil _
  | drawPixel x y r g b =>
    simp only [busEvents]; split
    · rename_i h
      obtain ⟨hx, hy⟩ := coordNat_lt_of_inBounds h.2
      exact keepsHostRules_pixel _ hx hy _
    · exact .nil _
  | update | getWidth | getHeight | getIsColor | getDiagCount => exact .nil _
  | _ => cases hi

/-- Every delay is kept exactly when the monitor ends owing nothing (R95, R148). -/
theorem delaysKept_iff (l : Mode) (es : List BusEvent) :
    delaysKept l es = true ↔ ∃ l', owedRun (Owed.start l) es = some (Owed.start l') := by
  unfold delaysKept
  cases owedRun (Owed.start l) es with
  | none => simp
  | some o => obtain ⟨m, r, due, owed⟩ := o; simp [Owed.start, and_assoc]

/-- A host request decodes to an instruction of the host's rows (R70). -/
theorem isHostInstr_of_decode {r : Request} {i : Instr} (hr : isHostRequest r = true) (h : decode r = .ok i) :
    isHostInstr i = true := by
  cases r with
  | host op => cases h; cases op <;> rfl
  | micro op => cases hr
  | wire w => cases hr

/-- A host operation that does not stop keeps the invariant of a run of host operations. -/
theorem exec_keeps_hostInv {i : Instr} {s t : State} (host : HostInv s) (hi : isHostInstr i = true)
    (hwf : wfInit s.cfg = true) (h : exec i s = .next t) : HostInv t := by
  have bus := exec_sameBus h
  have status := exec_sameStatus h
  have rules := keepsHostRules_busEvents hi hwf
  have hcfg : t.cfg = s.cfg := status.cfg.trans (statusAfter_cfg i s)
  have htrace : t.trace = s.trace ++ busEvents i s := bus.trace.trans (emitAll_trace _ s)
  refine { inv := exec_keeps_inv host.inv h, hostOnly := ?_, settle := ?_, delays := fun l => ?_, payloads := fun l => ?_ }
  · rw [HostOnly, status.pending, statusAfter_pending]; exact host.hostOnly
  · rw [bus.panel]; exact rules.settle s host.settle
  · obtain ⟨l', hl⟩ := (delaysKept_iff _ _).1 (host.delays l)
    rw [htrace, delaysKept_iff, owedRun_append, hl]
    exact rules.owed l'
  · obtain ⟨q, hq, idle⟩ := (payloadsExact_iff _ _ _).1 (host.payloads l)
    rw [htrace, hcfg, payloadsExact_iff, streamRun_append, hq]
    exact rules.stream q idle

/-- Settles O54: a step is idle or a host operation, which sends only event lists that keep the rules. -/
theorem stepKeepsTheHostInvariant : Obligations.StepKeepsTheHostInvariant := by
  intro s t host h
  obtain ⟨hwf, ⟨-, rfl⟩ | ⟨r, rest, i, hp, hd, hexec⟩⟩ := step_eq_next h
  · exact host
  · obtain ⟨inv, hostOnly, settle, delays, payloads⟩ := host
    rw [HostOnly, hp, List.all_cons, Bool.and_eq_true] at hostOnly
    obtain ⟨hr, hrest⟩ := hostOnly
    exact exec_keeps_hostInv ⟨inv_of_pending rest inv, hrest, settle, delays, payloads⟩ (isHostInstr_of_decode hr hd) hwf
      hexec

end Sys2Proof.Machine
end

section
/-! The bus is write-only (R37, R128): which instruction stops, what it emits and what it leaves outside the panel are
decided without the panel, mosi and the free values. -/

namespace Sys2Proof.Machine

/-- The fault an instruction stops with in a state; none where it runs (R102, R115, R130). -/
def stopOf (i : Instr) (s : State) : Option Fault :=
  match i with
  | .setup => if s.busy = true then some .concurrentOp else if s.setupDone = true then some .setupRepeated else none
  | .update | .fill _ _ _ | .drawPixel _ _ _ _ _ | .getWidth | .getHeight | .getIsColor | .getDiagCount =>
    if s.busy = true then some .concurrentOp else none
  | .setWindow x1 y1 x2 y2 => if windowValid x1 y1 x2 y2 = true then none else some .windowInvalid
  | .cmdSoftwareReset | .cmdSleepOut | .cmdNormalModeOn | .cmdInversionOn | .cmdDisplayOn | .cmdColumnAddressSet
  | .cmdRowAddressSet | .cmdMemoryWrite | .cmdMemoryAccessControl | .cmdPixelFormatSet | .cmdVendor84To87 _
  | .cmdVendor88To8F _ | .cmdVendor90To97 _ | .cmdVendor98 | .cmdVendorB6 | .cmdVendorBCToBF _ | .cmdVendorC0ToFF _
  | .dataByte _ | .writeCmd _ | .writeData8 _ | .writeData16 _ | .writeColorRun _ _ | .waitMs _ | .driveBacklight
  | .hwResetPulse | .execStep _ | .runInit | .quantize _ _ _ | .fillRaw _ _ _ => none

/-- An outcome stops with the given fault, or goes on where there is none. -/
def StopsAs (stop : Option Fault) (r : Result) : Prop :=
  match stop with
  | some e => r = .fault e
  | none => ∃ t, r = .next t

/-- An operation whose body runs stops only as CONCURRENT_OP (R130). -/
theorem accept_stopsAs {body : State → Result} {s : State} (h : ∃ t, body (beginOp s) = .next t) :
    StopsAs (if s.busy = true then some .concurrentOp else none) (accept body s) := by
  obtain ⟨t, ht⟩ := h
  rw [accept_eq, ht]
  split
  · rfl
  · exact ⟨_, rfl⟩

/-- The same where the body is one update of the state (R116 to R120). -/
theorem accept_next_stopsAs (f : State → State) (s : State) :
    StopsAs (if s.busy = true then some .concurrentOp else none) (accept (fun u => .next (f u)) s) :=
  accept_stopsAs ⟨f (beginOp s), rfl⟩

/-- Every instruction stops as `stopOf` says and runs otherwise. -/
theorem exec_stopsAs (i : Instr) (s : State) : StopsAs (stopOf i s) (exec i s) := by
  cases i with
  | setup =>
    show StopsAs (stopOf .setup s) (accept setupBody s)
    rw [accept_eq, setupBody_eq, beginOp_setupDone]
    simp only [stopOf]
    split
    · rfl
    · split
      · rfl
      · exact ⟨_, rfl⟩
  | fill r g b => exact accept_stopsAs (by rw [fillBody_eq]; split <;> exact ⟨_, rfl⟩)
  | drawPixel x y r g b => exact accept_stopsAs (by rw [drawPixelBody_eq]; split <;> exact ⟨_, rfl⟩)
  | update => exact accept_next_stopsAs countTick s
  | getWidth | getHeight | getIsColor => exact accept_next_stopsAs (returnValue _) s
  | getDiagCount => exact accept_next_stopsAs (fun u => returnValue (.u32 u.diagCount) u) s
  | setWindow x1 y1 x2 y2 =>
    show StopsAs (stopOf _ s) (setWindow x1 y1 x2 y2 s)
    simp only [stopOf, setWindow]
    split
    · exact ⟨_, rfl⟩
    · rfl
  | fillRaw r g b => exact ⟨_, fillRaw_eq r g b s⟩
  | _ => exact ⟨_, rfl⟩

/-- The same state with another panel, another level of mosi and other free values to come. -/
def State.offPanel (s : State) (p : Panel) (m : Level) (k : Nat) : State :=
  { s with panel := p, mosi := m, freeTick := k }

/-- Two states agree on everything but the panel, mosi and the free values to come. -/
def SameOffPanel (t u : State) : Prop := u = t.offPanel u.panel u.mosi u.freeTick

/-- Two states agree on the signals and the trace, but for mosi. -/
structure SameSignals (t u : State) : Prop where
  dc : u.dc = t.dc
  cs : u.cs = t.cs
  rst : u.rst = t.rst
  bl : u.bl = t.bl
  sclk : u.sclk = t.sclk
  trace : u.trace = t.trace

/-- An event drives the signals without looking at the panel. -/
theorem SameSignals.emit {t u : State} (e : BusEvent) (h : SameSignals t u) : SameSignals (emit e t) (emit e u) := by
  obtain ⟨dc, cs, rst, bl, sclk, trace⟩ := h
  cases e <;> constructor <;> simp [dc, cs, rst, bl, sclk, trace]

theorem SameSignals.emitAll {t u : State} (es : List BusEvent) (h : SameSignals t u) :
    SameSignals (emitAll es t) (emitAll es u) := by
  induction es generalizing t u with
  | nil => exact h
  | cons e es ih => exact ih (h.emit e)

theorem SameSignals.of_sameBus {t u t' u' : State} (h : SameSignals t u) (ht : SameBus t' t) (hu : SameBus u' u) :
    SameSignals t' u' :=
  ⟨hu.dc.trans (h.dc.trans ht.dc.symm), hu.cs.trans (h.cs.trans ht.cs.symm), hu.rst.trans (h.rst.trans ht.rst.symm),
    hu.bl.trans (h.bl.trans ht.bl.symm), hu.sclk.trans (h.sclk.trans ht.sclk.symm),
    hu.trace.trans (h.trace.trans ht.trace.symm)⟩

theorem SameStatus.symm {t u : State} (h : SameStatus t u) : SameStatus u t :=
  ⟨h.cfg.symm, h.ready.symm, h.setupDone.symm, h.busy.symm, h.diagCount.symm, h.seqPc.symm, h.returns.symm,
    h.quantOut.symm, h.pending.symm⟩

theorem SameStatus.trans {t u v : State} (h : SameStatus t u) (g : SameStatus u v) : SameStatus t v :=
  ⟨h.cfg.trans g.cfg, h.ready.trans g.ready, h.setupDone.trans g.setupDone, h.busy.trans g.busy,
    h.diagCount.trans g.diagCount, h.seqPc.trans g.seqPc, h.returns.trans g.returns, h.quantOut.trans g.quantOut,
    h.pending.trans g.pending⟩

/-- The signals, the trace and the status fields are every field but the panel, mosi and the free values. -/
theorem sameOffPanel_of {t u : State} (signals : SameSignals t u) (status : SameStatus u t) : SameOffPanel t u := by
  obtain ⟨dc, cs, rst, bl, sclk, trace⟩ := signals
  obtain ⟨cfg, ready, setupDone, busy, diagCount, seqPc, returns, quantOut, pending⟩ := status
  cases t
  cases u
  simp_all [SameOffPanel, State.offPanel]

section
variable (i : Instr) (s : State) (p : Panel) (m : Level) (k : Nat)

theorem stopOf_offPanel : stopOf i (s.offPanel p m k) = stopOf i s := by
  cases i <;> rfl

theorem busEvents_offPanel : busEvents i (s.offPanel p m k) = busEvents i s := by
  cases i <;> rfl

theorem statusAfter_offPanel : SameStatus (statusAfter i (s.offPanel p m k)) (statusAfter i s) := by
  cases i <;> exact ⟨rfl, rfl, rfl, rfl, rfl, rfl, rfl, rfl, rfl⟩

variable {i s p m k}

/-- At the bus both states take the same events. -/
theorem sameSignals_exec_offPanel {t u : State} (ht : exec i s = .next t) (hu : exec i (s.offPanel p m k) = .next u) :
    SameSignals t u := by
  have start : SameSignals s (s.offPanel p m k) := ⟨rfl, rfl, rfl, rfl, rfl, rfl⟩
  have bu := exec_sameBus hu
  rw [busEvents_offPanel] at bu
  exact (start.emitAll (busEvents i s)).of_sameBus (exec_sameBus ht) bu

/-- The status fields of both states are those of `statusAfter`. -/
theorem sameStatus_exec_offPanel {t u : State} (ht : exec i s = .next t) (hu : exec i (s.offPanel p m k) = .next u) :
    SameStatus u t :=
  (exec_sameStatus hu).trans ((statusAfter_offPanel i s p m k).trans (exec_sameStatus ht).symm)

end

/-- Settles O59: both runs stop as `stopOf` says, which reads no panel; where both go on, the signals and the
status fields agree. -/
theorem blockNeverReadsThePanel : Obligations.BlockNeverReadsThePanel := by
  intro i s p m k
  have hs := exec_stopsAs i s
  have hs' : StopsAs (stopOf i s) (exec i { s with panel := p, mosi := m, freeTick := k }) :=
    stopOf_offPanel i s p m k ▸ exec_stopsAs i (s.offPanel p m k)
  cases hstop : stopOf i s with
  | some e =>
    rw [hstop, StopsAs] at hs hs'
    rw [hs, hs']
  | none =>
    rw [hstop] at hs hs'
    obtain ⟨t, ht⟩ := hs
    obtain ⟨u, hu⟩ := hs'
    rw [ht, hu]
    exact sameOffPanel_of (sameSignals_exec_offPanel ht hu) (sameStatus_exec_offPanel ht hu)

end Sys2Proof.Machine
end

section
/-! One framing unit at the panel (R49 to R57): the panel after a command byte, a window byte, a pixel byte, other data, and
a byte in a forbidden interval. -/

namespace Sys2Proof.Machine

open Sys2Proof.Safety

theorem accepting_iff (s : State) : Accepting s ↔ s.rst = .inactive ∧ s.panel.settle = 0 :=
  panelBlocked_eq_false _ _

/-- A transaction changes nothing but the bus and the panel (R79). -/
theorem busFrame_txn (l : Mode) (bs : List Byte) (s : State) : BusFrame s (txn l bs s) := by
  constructor <;> simp

/-! Command bytes (R49). -/

/-- A command is taken, resets the count and may start a settle time; 0x2C also moves the pointer to the window's origin. -/
theorem panelCommandByte_eq (c : Byte) (p : Panel) :
    panelCommandByte c p =
      { p with
        cmd := some c
        pidx := 0
        settle := settleAfterCommand c p.settle
        wc := if c = 0x2C then p.xs.toNat else p.wc
        wr := if c = 0x2C then p.ys.toNat else p.wr
        half := if c = 0x2C then .hi else p.half } := by
  unfold panelCommandByte
  by_cases hc : c = 0x2C
  · simp only [if_pos hc]
  · simp only [if_neg hc]

/-- Settles O37: the equation of a command byte, field by field; a byte while select is deasserted reaches nothing. -/
theorem commandByteAtThePanel : Obligations.CommandByteAtThePanel := by
  refine ⟨fun c s acc => ⟨writeCmd c s, rfl, ?_⟩, fun b s hcs => by simp [hcs]⟩
  rw [GramSame, writeCmd_panel acc, panelCommandByte_eq]
  exact ⟨rfl, rfl, fun a => rfl, rfl, rfl, rfl, rfl, rfl, rfl, rfl, rfl⟩

/-! Window bytes (R50). -/

/-- The effect of a data byte after a command is counted (R48). -/
theorem panelDataByte_of_cmd {c : Byte} {p : Panel} (hc : p.cmd = some c) (tick : Nat) (b : Byte) :
    panelDataByte tick b p = { panelDataEffect tick c b p with pidx := p.pidx + 1 } := by
  simp [panelDataByte, hc]

theorem panelDataEffect_column (tick : Nat) (b : Byte) (p : Panel) :
    panelDataEffect tick 0x2A b p = panelColumnByte tick b p := rfl

theorem panelDataEffect_row (tick : Nat) (b : Byte) (p : Panel) :
    panelDataEffect tick 0x2B b p = panelRowByte tick b p := rfl

/-- What a byte after a window command leaves: everything but the bounds. -/
structure WindowByteFrame (p q : Panel) : Prop where
  cmd : q.cmd = p.cmd
  gram : q.gram = p.gram
  wc : q.wc = p.wc
  wr : q.wr = p.wr
  half : q.half = p.half
  hiLatch : q.hiLatch = p.hiLatch

theorem windowByteFrame_column (tick : Nat) (b : Byte) (p : Panel) :
    WindowByteFrame p (panelColumnByte tick b p) := by
  unfold panelColumnByte
  split <;> exact ⟨rfl, rfl, rfl, rfl, rfl, rfl⟩

theorem windowByteFrame_row (tick : Nat) (b : Byte) (p : Panel) : WindowByteFrame p (panelRowByte tick b p) := by
  unfold panelRowByte
  split <;> exact ⟨rfl, rfl, rfl, rfl, rfl, rfl⟩

/-- The four bytes after 0x2A: start and end column, high byte first. -/
theorem panelColumnByte_of_lt {p : Panel} (h : p.pidx < 4) (tick : Nat) (b : Byte) :
    panelColumnByte tick b p =
      { p with
        xs := if p.pidx = 0 then setHi8 p.xs b else if p.pidx = 1 then setLo8 p.xs b else p.xs
        xe := if p.pidx = 2 then setHi8 p.xe b else if p.pidx = 3 then setLo8 p.xe b else p.xe } := by
  obtain h | h | h | h : p.pidx = 0 ∨ p.pidx = 1 ∨ p.pidx = 2 ∨ p.pidx = 3 := by omega
  all_goals simp [panelColumnByte, h]

/-- The four bytes after 0x2B: start and end row, high byte first. -/
theorem panelRowByte_of_lt {p : Panel} (h : p.pidx < 4) (tick : Nat) (b : Byte) :
    panelRowByte tick b p =
      { p with
        ys := if p.pidx = 0 then setHi8 p.ys b else if p.pidx = 1 then setLo8 p.ys b else p.ys
        ye := if p.pidx = 2 then setHi8 p.ye b else if p.pidx = 3 then setLo8 p.ye b else p.ye } := by
  obtain h | h | h | h : p.pidx = 0 ∨ p.pidx = 1 ∨ p.pidx = 2 ∨ p.pidx = 3 := by omega
  all_goals simp [panelRowByte, h]

/-- Settles O38: the column bytes and the row bytes apart. -/
theorem windowBytesAtThePanel : Obligations.WindowBytesAtThePanel := by
  intro d s acc hcmd
  refine ⟨writeData8 d s, rfl, ?_⟩
  rw [GramSame, writeData8_panel acc]
  rcases hcmd with hcmd | hcmd
  · obtain ⟨cmd, gram, wc, wr, half, hiLatch⟩ := windowByteFrame_column s.freeTick d s.panel
    rw [panelDataByte_of_cmd hcmd, panelDataEffect_column]
    refine ⟨rfl, cmd, fun a => congrArg (gramRead · a) gram, wc, wr, half, hiLatch, fun hlt => ?_⟩
    rw [panelColumnByte_of_lt hlt]
    simp [hcmd, setHi8, setLo8, joinBytes, hi8, lo8]
  · obtain ⟨cmd, gram, wc, wr, half, hiLatch⟩ := windowByteFrame_row s.freeTick d s.panel
    rw [panelDataByte_of_cmd hcmd, panelDataEffect_row]
    refine ⟨rfl, cmd, fun a => congrArg (gramRead · a) gram, wc, wr, half, hiLatch, fun hlt => ?_⟩
    rw [panelRowByte_of_lt hlt]
    simp [hcmd, setHi8, setLo8, joinBytes, hi8, lo8]

/-! Pixel bytes (R51, R52). -/

theorem panelWindowOutside_iff (p : Panel) :
    panelWindowOutside p = true ↔
      240 ≤ p.xs.toNat ∨ 240 ≤ p.xe.toNat ∨ 240 ≤ p.ys.toNat ∨ 240 ≤ p.ye.toNat := by
  simp [panelWindowOutside, or_assoc]

theorem panelAdvance_eq (p : Panel) :
    panelAdvance p =
      { p with
        wc := if p.xe.toNat < p.wc + 1 then p.xs.toNat else p.wc + 1
        wr := if p.xe.toNat < p.wc + 1 then p.wr + 1 else p.wr } := by
  unfold panelAdvance; split <;> rfl

/-- Settles O39: the high byte is latched; the low byte stores the pixel at its target and moves the pointer. -/
theorem pixelBytesAtThePanel : Obligations.PixelBytesAtThePanel := by
  intro d s acc hcmd
  obtain ⟨hr, settle⟩ := (accepting_iff s).1 acc
  have hpanel : (writeData8 d s).panel = panelReceive s.freeTick .inactive .data d s.panel := by
    rw [writeData8, txn_panel, hr]; rfl
  refine ⟨writeData8 d s, rfl, ?_⟩
  rw [GramSame, hpanel]
  cases hh : s.panel.half with
  | hi =>
    rw [panelReceive_pixel_hi settle hcmd hh]
    exact ⟨rfl, rfl, rfl, rfl, fun _ => ⟨rfl, rfl, fun a => rfl, rfl, rfl⟩, nofun⟩
  | lo =>
    rw [panelReceive_pixel_lo settle hcmd hh, panelAdvance_eq]
    refine ⟨rfl, rfl, rfl, rfl, nofun, fun _ => ⟨rfl, ?_, ?_⟩⟩
    · split
      · exact ⟨rfl, rfl⟩
      · exact ⟨rfl, rfl⟩
    · simp only [pixelTarget, panelWindowOutside_iff]
      split
      · exact fun a => rfl
      · split
        · simp only [gramAfterPixel, gramRead_gramWrite16, hi8_joinBytes, lo8_joinBytes]
          exact ⟨by simp, by simp, fun a h1 h2 => by simp [h1, h2]⟩
        · exact fun a => rfl

end Sys2Proof.Machine
end

section
/-! Data at the panel in whole transactions (R51 to R58): other data, one pixel, a run of pixels, the pixels of a window, and a
byte in a forbidden interval. -/

namespace Sys2Proof.Machine

open Sys2Proof.Safety

/-! Other data (R54). -/

/-- Data under a command other than 0x2A, 0x2B and 0x2C keeps the window, the pointer and the frame memory. -/
theorem panelKept_txn_data {c : Byte} {s : State} (acc : Accepting s) (hcmd : s.panel.cmd = some c) (h2A : c ≠ 0x2A)
    (h2B : c ≠ 0x2B) (h2C : c ≠ 0x2C) (bs : List Byte) : PanelKept s (txn .data bs s) := by
  obtain ⟨hr, settle⟩ := (accepting_iff s).1 acc
  have hpanel : (txn .data bs s).panel = { s.panel with pidx := s.panel.pidx + bs.length } := by
    rw [txn_panel, hr, panelReceiveAll_other settle hcmd h2A h2B h2C]
  constructor <;> simp [GramSame, hpanel]

/-- Settles O40: one byte, a 16-bit value and a run are each one data transaction. -/
theorem otherDataKeepsThePanel : Obligations.OtherDataKeepsThePanel := fun _ s acc hcmd h2A h2B h2C =>
  have kept := panelKept_txn_data acc hcmd h2A h2B h2C
  ⟨fun d => ⟨writeData8 d s, rfl, kept [d]⟩, fun v => ⟨writeData16 v s, rfl, kept (bytes16 v)⟩,
    fun v n => ⟨writeColorRun v n s, rfl, kept (runBytes v n)⟩⟩

/-! Forbidden intervals (R57). -/

/-- A byte in a forbidden interval leaves no byte of the frame memory with a known value. -/
theorem txn_byte_gram_of_blocked {s : State} (h : ¬ Accepting s) (l : Mode) (b : Byte) :
    (txn l [b] s).panel.gram = [] := by
  have hb : panelBlocked s.rst s.panel = true := by simpa [Accepting] using h
  simp [txn_panel, panelReceiveAll, panelReceive, hb, panelUnspecified]

/-- Settles O43: a command byte and a data byte are each one transaction of one byte. -/
theorem forbiddenIntervalLosesThePanel : Obligations.ForbiddenIntervalLosesThePanel := by
  intro b s h
  have lost : ∀ l a, gramRead (txn l [b] s).panel.gram a = none := fun l a => by rw [txn_byte_gram_of_blocked h]; rfl
  exact ⟨⟨writeCmd b s, rfl, lost .cmd, writeCmd_trace b s, busFrame_txn .cmd [b] s⟩,
    ⟨writeData8 b s, rfl, lost .data, writeData8_trace b s, busFrame_txn .data [b] s⟩⟩

/-! Pixels after 0x2C (R51, R58). -/

/-- A cell whose two bytes were just written, high byte first, reads as the value. -/
theorem gramCell_gramWrite16_same (m : List Host.Cell) (col row : Nat) (v : U16) :
    gramCell (gramWrite16 m (cellAddr col row) v) col row = some v := by
  simp [gramCell, gramRead_gramWrite16]

theorem gramRead_gramWrite16_other {a b : Nat} (m : List Host.Cell) (v : U16) (hi : b ≠ a) (lo : b ≠ a + 1) :
    gramRead (gramWrite16 m a v) b = gramRead m b := by
  rw [gramRead_gramWrite16, if_neg hi, if_neg lo]

/-- A pixel whose target is a cell is stored there, whatever the window (R51). -/
theorem writeData16_gram {v : U16} {s : State} {a : Nat} (acc : Accepting s) (hcmd : s.panel.cmd = some 0x2C)
    (hhalf : s.panel.half = .hi) (htarget : pixelTarget s.panel = .cell a) :
    (writeData16 v s).panel.gram = gramWrite16 s.panel.gram a v := by
  obtain ⟨hr, settle⟩ := (accepting_iff s).1 acc
  have ht : pixelTarget { s.panel with hiLatch := hi8 v, half := .lo, pidx := s.panel.pidx + 1 } = .cell a := htarget
  rw [writeData16, txn_panel, hr, bytes16, panelReceiveAll, panelReceiveAll, panelReceiveAll,
    panelReceive_pixel_hi settle hcmd hhalf, panelReceive_pixel_lo (by exact settle) (by exact hcmd) rfl, ht]
  simp [gramAfterPixel]

/-- Inside a legal window and left of column 240 the target is the pointer's cell (R51, R52). -/
theorem pixelTarget_eq_cell {p : Panel} (hxs : p.xs.toNat < 240) (hxe : p.xe.toNat < 240) (hys : p.ys.toNat < 240)
    (hye : p.ye.toNat < 240) (hwr : p.wr ≤ p.ye.toNat) (hwc : p.wc < 240) :
    pixelTarget p = .cell (cellAddr p.wc p.wr) := by
  have inside : ¬ (p.ye.toNat < p.wr ∨ panelWindowOutside p = true) := by rw [panelWindowOutside_iff]; omega
  rw [pixelTarget, if_neg inside, if_pos ⟨hwc, by omega⟩]

/-- Settles O41: the value is one pixel, and its target is the pointer's cell. -/
theorem writeData16StoresOnePixel : Obligations.WriteData16StoresOnePixel := by
  intro v s acc hcmd hhalf hxs hxe hys hye hwr hwc
  refine ⟨writeData16 v s, rfl, ?_⟩
  rw [writeData16_gram acc hcmd hhalf (pixelTarget_eq_cell hxs hxe hys hye hwr hwc)]
  exact ⟨gramCell_gramWrite16_same _ _ _ v, fun a hi lo => gramRead_gramWrite16_other _ v hi lo⟩

/-- Settles O42: the run is the stream of its pixels, from the window's origin. -/
theorem colorRunFillsTheWindowInOrder : Obligations.ColorRunFillsTheWindowInOrder := by
  intro v n x1 y1 x2 y2 s acc hcmd hhalf hxs hxe hys hye hwc hwr hx hx2 hy hy2 hn
  obtain ⟨hr, settle⟩ := (accepting_iff s).1 acc
  have start : InStream x1 y1 x2 y2 0 s.panel :=
    ⟨hcmd, hhalf, settle, hxs, hxe, hys, hye, by simpa using hwc, by simpa using hwr⟩
  obtain ⟨-, stored, kept⟩ := inStream_pixels (tick := s.freeTick) (ps := List.replicate n v) hx hx2 hy hy2 start
    (by simpa using hn)
  refine ⟨writeColorRun v n s, rfl, ?_⟩
  rw [writeColorRun, txn_panel, hr, runBytes_eq_pixelBytes]
  simp only [List.length_replicate, Nat.zero_add] at stored kept
  refine ⟨fun k hk => ?_, kept⟩
  rw [stored k hk, List.getElem?_replicate, if_pos hk]

/-- The pixels of a window sent after it, in any grouping: the panel takes their bytes one after the other (R53). -/
theorem emitAll_window_groups_panel {x1 y1 x2 y2 : Nat} {s : State} (hr : s.rst = .inactive) (groups : List (List U16)) :
    (emitAll (windowEvents x1 y1 x2 y2 ++ groups.flatMap fun g => txnEvents .data (pixelBytes g)) s).panel =
      panelReceiveAll (sendWindow x1 y1 x2 y2 s).freeTick .inactive .data (pixelBytes groups.flatten)
        (sendWindow x1 y1 x2 y2 s).panel := by
  rw [emitAll_append, ← sendWindow_emitAll, emitAll_data_groups groups pixelBytes _ (by rw [sendWindow_rst, hr])]
  rw [pixelBytes, ← List.flatMap_id, List.flatMap_assoc]
  rfl

/-- A cell of a window, row-major: pixel number k lies inside the window. -/
theorem pixel_in_window {x1 y1 x2 y2 k : Nat} (hx : x1 ≤ x2) (hk : k < (x2 - x1 + 1) * (y2 - y1 + 1)) (hy : y1 ≤ y2) :
    x1 + k % (x2 - x1 + 1) ≤ x2 ∧ y1 + k / (x2 - x1 + 1) ≤ y2 := by
  have hc := Nat.mod_lt k (show 0 < x2 - x1 + 1 by omega)
  have hr := Nat.div_lt_of_lt_mul hk
  omega

/-- Settles O44: the window primes the panel, and its pixels are one stream whatever their grouping. -/
theorem windowLaw : Obligations.WindowLaw := by
  intro x1 y1 x2 y2 groups s acc hx hx2 hy hy2 hlen
  refine ⟨_, rfl, ?_⟩
  have hpanel := emitAll_window_groups_panel (x1 := x1) (y1 := y1) (x2 := x2) (y2 := y2) ((accepting_iff s).1 acc).1 groups
  obtain ⟨-, stored, kept⟩ := inStream_pixels (tick := (sendWindow x1 y1 x2 y2 s).freeTick) hx hx2 hy hy2
    (inStream_sendWindow acc hx hx2 hy hy2) (by rw [Nat.zero_add, hlen])
  rw [← hpanel] at stored kept
  simp only [Nat.zero_add] at stored kept
  refine ⟨stored, fun a ha => ?_⟩
  have outside := kept a fun k hk => by
    obtain ⟨hc, hr⟩ := pixel_in_window hx (hlen ▸ hk) hy
    exact ha _ _ (Nat.le_add_right _ _) hc (Nat.le_add_right _ _) hr
  rw [sendWindow_panel acc (by omega) (by omega)] at outside
  exact outside

end Sys2Proof.Machine
end

section
/-! The reset pulse and the initialization sequence at the panel (R57, R87, R93, R94): a pulse leaves nothing known and its
settle time over; a step of the table keeps the window, the pointer and the frame memory. -/

namespace Sys2Proof.Machine

open Sys2Proof.Safety

/-- The pulse makes the panel unspecified, and its last wait ends the settle time its end started (R57, R87). -/
theorem hwResetPulse_panel {s : State} (h : s.cfg.hasRst = true) :
    (hwResetPulse s).panel = panelUnspecified (s.freeTick + 1) 0 := by
  have wait : ∀ d (u : State), emitAll (waitEvents d) u = waitMs d u := fun _ _ => rfl
  simp only [hwResetPulse, h, if_true, resetPulseEvents, emitAll_append, wait, emitAll_cons, emitAll_nil]
  simp [panelResetPin, panelElapse, panelUnspecified, settleMs]

/-- Settles O13: with the pin the panel is unspecified and its settle time over; without it nothing happens. -/
theorem hwResetPulseLeavesThePanelUnknown : Obligations.HwResetPulseLeavesThePanelUnknown := by
  intro s
  refine ⟨hwResetPulse s, rfl, ?_⟩
  split
  · rename_i h
    rw [accepting_iff, hwResetPulse_panel h, hwResetPulse_eq s h]
    exact ⟨⟨rfl, rfl⟩, fun a => rfl⟩
  · rename_i h
    rw [hwResetPulse, if_neg h]

/-- The panel after a step, where no payload byte falls into a settle time the step itself started. -/
theorem runStep_panel {st : InitStep} {s : State} (acc : Accepting s) (h2A : st.cmd ≠ 0x2A) (h2B : st.cmd ≠ 0x2B)
    (h2C : st.cmd ≠ 0x2C) (hp : startsSettle st.cmd = true → st.payload = []) :
    (runStep st s).panel =
      { s.panel with
        cmd := some st.cmd
        pidx := st.payload.length
        settle := settleAfterCommand st.cmd s.panel.settle - st.delayMs.toNat } := by
  obtain ⟨hr, settle⟩ := (accepting_iff s).1 acc
  have hcmd : (writeCmd st.cmd s).panel =
      { s.panel with cmd := some st.cmd, pidx := 0, settle := settleAfterCommand st.cmd s.panel.settle } := by
    rw [writeCmd_panel acc, panelCommandByte_eq]
    simp only [if_neg h2C]
  rw [runStep, waitMs_panel, writePayload_panel _ _ (by simpa using hr), hcmd]
  by_cases hs : startsSettle st.cmd = true
  · rw [hp hs]; rfl
  · have quiet : settleAfterCommand st.cmd s.panel.settle = 0 := by rw [settleAfterCommand, if_neg hs, settle]
    rw [panelReceiveAll_other quiet rfl h2A h2B h2C, panelElapse, Nat.zero_add]

/-- No opcode of an initialization step is a window command (R66, R92). -/
theorem not_window_of_wfStep {st : InitStep} (h : wfStep st = true) :
    st.cmd ≠ 0x2A ∧ st.cmd ≠ 0x2B ∧ st.cmd ≠ 0x2C := by
  rw [wfStep] at h
  refine ⟨?_, ?_, ?_⟩
  all_goals
    intro e
    rw [e] at h
    revert h
    decide

theorem panelKept_refl (s : State) : PanelKept s s := ⟨fun _ => rfl, rfl, rfl, rfl, rfl, rfl, rfl⟩

theorem panelKept_trans {s t u : State} (h : PanelKept s t) (g : PanelKept t u) : PanelKept s u :=
  ⟨fun a => (g.gram a).trans (h.gram a), g.xs.trans h.xs, g.xe.trans h.xe, g.ys.trans h.ys, g.ye.trans h.ye,
    g.wc.trans h.wc, g.wr.trans h.wr⟩

theorem runStep_panelKept {st : InitStep} {s : State} (acc : Accepting s) (hw : wfStep st = true)
    (hp : startsSettle st.cmd = true → st.payload = []) : PanelKept s (runStep st s) := by
  obtain ⟨h2A, h2B, h2C⟩ := not_window_of_wfStep hw
  have hpanel := runStep_panel acc h2A h2B h2C hp
  constructor <;> simp [GramSame, hpanel]

/-- Settles O15: a step of a named or vendor opcode is none of the window commands. -/
theorem initStepsKeepTheFrameMemory : Obligations.InitStepsKeepTheFrameMemory := fun st s acc hw hp =>
  ⟨runStep st s, rfl, runStep_panelKept acc hw hp⟩

/-- What `runInit` needs of a step: a named or vendor opcode, its wait long enough, no payload before a load-bearing wait. -/
structure SafeStep (st : InitStep) : Prop where
  opcode : wfStep st = true
  wait : minDelayMs st.cmd ≤ st.delayMs.toNat
  payload : minDelayMs st.cmd = 0 ∨ st.payload = []

/-- WF_INIT makes every step of the table safe (R92). -/
theorem safeStep_of_wfInit {c : Config} (hwf : wfInit c = true) {st : InitStep} (hst : st ∈ c.initTable) :
    SafeStep st := by
  obtain ⟨wait, payload, opcode⟩ := wfInit_step hwf st hst
  exact ⟨by simpa [wfStep] using opcode, wait, payload⟩

/-- A command that starts a settle time has a load-bearing delay (R57, R95). -/
theorem minDelayMs_of_startsSettle {c : Byte} (h : startsSettle c = true) : minDelayMs c = 120 := by
  simp only [startsSettle, Bool.or_eq_true, beq_iff_eq] at h
  rcases h with rfl | rfl
  · rfl
  · rfl

theorem SafeStep.runStep {st : InitStep} (safe : SafeStep st) {s : State} (acc : Accepting s) :
    PanelKept s (runStep st s) ∧ Accepting (runStep st s) := by
  obtain ⟨hr, settle⟩ := (accepting_iff s).1 acc
  have hp : startsSettle st.cmd = true → st.payload = [] := fun h =>
    safe.payload.resolve_left (by rw [minDelayMs_of_startsSettle h]; decide)
  refine ⟨runStep_panelKept acc safe.opcode hp, (accepting_iff _).2 ⟨by rw [runStep_rst, hr], ?_⟩⟩
  rw [runStep_emitAll]
  exact settle_step st s safe.wait (.inl settle)

theorem runSteps_panelKept {l : List InitStep} (safe : ∀ st ∈ l, SafeStep st) {s : State} (acc : Accepting s) :
    PanelKept s (runSteps l s) ∧ Accepting (runSteps l s) := by
  induction l generalizing s with
  | nil => exact ⟨panelKept_refl s, acc⟩
  | cons st l ih =>
    obtain ⟨kept, acc'⟩ := (safe st (by simp)).runStep acc
    obtain ⟨kept', acc''⟩ := ih (s := { runStep st s with seqPc := (runStep st s).seqPc + 1 })
      (fun st' h => safe st' (by simp [h])) acc'
    exact ⟨panelKept_trans kept ⟨kept'.gram, kept'.xs, kept'.xe, kept'.ys, kept'.ye, kept'.wc, kept'.wr⟩, acc''⟩

/-- Settles O17: every step of a well-formed table is safe. -/
theorem runInitKeepsTheFrameMemory : Obligations.RunInitKeepsTheFrameMemory := by
  intro s acc hwf
  obtain ⟨kept, acc'⟩ := runSteps_panelKept (s := { s with seqPc := 0 }) (fun st => safeStep_of_wfInit hwf) acc
  exact ⟨runInit s, rfl, ⟨kept.gram, kept.xs, kept.xe, kept.ys, kept.ye, kept.wc, kept.wr⟩, acc'⟩

end Sys2Proof.Machine
end

section
/-! The window and the drawing operations (R93, R102 to R105): the primed panel, and each composite operation as its units. -/

namespace Sys2Proof.Machine

open Sys2Proof.Safety

/-- A legal window is sent (R102). -/
theorem exec_setWindow {x1 y1 x2 y2 : Nat} (hx : x1 ≤ x2) (hx2 : x2 < 240) (hy : y1 ≤ y2) (hy2 : y2 < 240) (s : State) :
    exec (.setWindow x1 y1 x2 y2) s = .next (sendWindow x1 y1 x2 y2 s) :=
  (setWindow_eq x1 y1 x2 y2 s).trans (if_pos ⟨hx, hx2, hy, hy2⟩)

/-- FILL_RAW sends the full window and one run (R103). -/
theorem exec_fillRaw (r g b : Byte) (s : State) :
    exec (.fillRaw r g b) s = .next (writeColorRun (quantizeColor r g b) panelPixels (sendWindow 0 0 239 239 s)) :=
  fillRaw_eq r g b s

/-- The state an accepted DRAW_PIXEL leaves (R105). -/
def drawnState (x y : Coord) (r g b : Byte) (s : State) : State :=
  writeData16 (quantizeColor r g b) (sendWindow (coordNat x) (coordNat y) (coordNat x) (coordNat y) (beginOp s))

theorem exec_drawPixel {x y : Coord} {s : State} (hbusy : s.busy = false) (hready : s.ready = true)
    (hin : inBounds x y = true) (r g b : Byte) : exec (.drawPixel x y r g b) s = .next (endOp (drawnState x y r g b s)) :=
  accept_next hbusy ((drawPixelBody_eq x y r g b _).trans (if_pos ⟨hready, hin⟩))

/-- Settles O20: the panel after SET_WINDOW, field by field. -/
theorem setWindowPrimesThePanel : Obligations.SetWindowPrimesThePanel := by
  intro x1 y1 x2 y2 s acc hx hx2 hy hy2
  refine ⟨_, exec_setWindow hx hx2 hy hy2 s, ?_⟩
  have hpanel := sendWindow_panel (x2 := x2) (y2 := y2) acc (show x1 < 240 by omega) (show y1 < 240 by omega)
  obtain ⟨hr, settle⟩ := (accepting_iff s).1 acc
  rw [GramSame, accepting_iff, sendWindow_rst, hpanel]
  exact ⟨fun a => rfl, ⟨hr, settle⟩, rfl, zext16_toNat (by omega), zext16_toNat hx2, zext16_toNat (by omega),
    zext16_toNat hy2, rfl, rfl, rfl⟩

/-! Units run one after the other. -/

theorem runAll_cons {i : Instr} {s t : State} (h : exec i s = .next t) (is : List Instr) :
    runAll (i :: is) s = runAll is t := by
  rw [runAll, h, andThen]

theorem runAll_nil (s : State) : runAll [] s = .next s := rfl

/-- A payload is its data bytes, one after the other (R93). -/
theorem runAll_payload (ps : List Byte) (is : List Instr) (s : State) :
    runAll (ps.map .writeData8 ++ is) s = runAll is (writePayload ps s) := by
  induction ps generalizing s with
  | nil => rfl
  | cons p ps ih => exact (runAll_cons rfl _).trans (ih _)

/-- Settles O26: each operation's state is the composition of its units' states. -/
theorem compositeOperationsRunTheirUnits : Obligations.CompositeOperationsRunTheirUnits := by
  refine ⟨fun st s => ?_, fun x1 y1 x2 y2 s hx hx2 hy hy2 => ?_, fun r g b s => ?_,
    fun x y r g b s hbusy hready hx0 hx hy0 hy => ?_⟩
  · rw [List.cons_append, runAll_cons (t := writeCmd st.cmd s) rfl, runAll_payload]
    rfl
  · rw [exec_setWindow hx hx2 hy hy2]
    rfl
  · rw [show 240 * 240 = panelPixels from rfl, exec_fillRaw,
      runAll_cons (exec_setWindow (by omega) (by omega) (by omega) (by omega) s), runAll_cons rfl, runAll_nil]
  · have hin : inBounds x y = true := (inBounds_iff x y).2 ⟨hx0, hx, hy0, hy⟩
    obtain ⟨hcx, hcy⟩ := coordNat_lt_of_inBounds hin
    refine ⟨drawnState x y r g b s, ?_, exec_drawPixel hbusy hready hin r g b⟩
    exact (runAll_cons (exec_setWindow le_rfl hcx le_rfl hcy _) _).trans (runAll_cons rfl [])

end Sys2Proof.Machine
end

section
/-! The laws of the frame memory (R39, R59, R60): the full fill, the pixel, and a fill repeated. -/

namespace Sys2Proof.Machine

open Sys2Proof.Safety

/-- The state an accepted FILL leaves (R104). -/
def filledState (r g b : Byte) (s : State) : State :=
  writeColorRun (quantizeColor r g b) panelPixels (sendWindow 0 0 239 239 (beginOp s))

theorem exec_fill {s : State} (hbusy : s.busy = false) (hready : s.ready = true) (r g b : Byte) :
    exec (.fill r g b) s = .next (endOp (filledState r g b s)) :=
  accept_next hbusy ((fillBody_eq r g b _).trans (if_pos hready))

/-- What the full-fill law says of the state after a fill (R59). -/
structure Filled (v : U16) (s t : State) : Prop where
  cells : ∀ col row, col < 240 → row < 240 → gramCell t.panel.gram col row = some v
  outside : ∀ a, 115200 ≤ a → gramRead t.panel.gram a = gramRead s.panel.gram a
  wc : t.panel.wc = 0
  wr : t.panel.wr = 240
  accepting : Accepting t

/-- A full window and its run fill the panel, in any state with that panel. -/
theorem filled_of_panel {v : U16} {s t : State} (acc : Accepting s) (hr : t.rst = s.rst)
    (hpanel : t.panel = (writeColorRun v panelPixels (sendWindow 0 0 239 239 s)).panel) : Filled v s t := by
  obtain ⟨stream, cells, outside⟩ := fullFill_panel acc hpanel
  exact ⟨cells, outside, stream.wc, stream.wr, (accepting_iff t).2 ⟨hr.trans ((accepting_iff s).1 acc).1, stream.settle⟩⟩

theorem filled_fillRaw {s : State} (acc : Accepting s) (v : U16) :
    Filled v s (writeColorRun v panelPixels (sendWindow 0 0 239 239 s)) :=
  filled_of_panel acc (by rw [writeColorRun_rst, sendWindow_rst]) rfl

theorem filled_fill {s : State} (acc : Accepting s) (r g b : Byte) :
    Filled (quantizeColor r g b) s (endOp (filledState r g b s)) := by
  have acc' : Accepting (beginOp s) := by rwa [Accepting, beginOp_rst, beginOp_panel]
  obtain ⟨cells, outside, wc, wr, accepting⟩ := filled_of_panel (t := endOp (filledState r g b s)) acc'
    (by rw [endOp_rst, filledState, writeColorRun_rst, sendWindow_rst]) (by rw [endOp_panel, filledState])
  exact ⟨cells, fun a ha => by rw [outside a ha, beginOp_panel], wc, wr, accepting⟩

/-- Settles O45: a FILL that is ready and a FILL_RAW leave the panel filled. -/
theorem fullFillLaw : Obligations.FullFillLaw := by
  intro r g b s i acc hi
  rcases hi with ⟨rfl, hbusy, hready⟩ | rfl
  · obtain ⟨cells, outside, wc, wr, accepting⟩ := filled_fill acc r g b
    exact ⟨_, exec_fill hbusy hready r g b, cells, outside, wc, wr, accepting⟩
  · obtain ⟨cells, outside, wc, wr, accepting⟩ := filled_fillRaw acc (quantizeColor r g b)
    exact ⟨_, exec_fillRaw r g b s, cells, outside, wc, wr, accepting⟩

/-- A cell with a value has its two bytes, high byte first (R34). -/
theorem gramCell_eq_some {m : List Host.Cell} {col row : Nat} {v : U16} (h : gramCell m col row = some v) :
    gramRead m (cellAddr col row) = some (hi8 v) ∧ gramRead m (cellAddr col row + 1) = some (lo8 v) := by
  unfold gramCell at h
  split at h
  · rename_i hi lo hhi hlo
    cases h
    simp [hhi, hlo]
  · cases h

/-- Every address of the frame memory is the high or the low byte of one of its cells (R33). -/
theorem exists_cell_of_lt {a : Nat} (h : a < 115200) :
    ∃ col row, col < 240 ∧ row < 240 ∧ (a = cellAddr col row ∨ a = cellAddr col row + 1) := by
  refine ⟨a / 2 % 240, a / 480, ?_⟩
  simp only [cellAddr]
  omega

/-- Two states filled with one colour, the second from the first, read alike at every address. -/
theorem Filled.gramSame {v : U16} {s t u : State} (ht : Filled v s t) (hu : Filled v t u) : GramSame t u := by
  intro a
  by_cases ha : a < 115200
  · obtain ⟨col, row, hc, hr, hcell⟩ := exists_cell_of_lt ha
    obtain ⟨t1, t2⟩ := gramCell_eq_some (ht.cells col row hc hr)
    obtain ⟨u1, u2⟩ := gramCell_eq_some (hu.cells col row hc hr)
    rcases hcell with rfl | rfl
    · rw [t1, u1]
    · rw [t2, u2]
  · exact hu.outside a (by omega)

theorem emits_fill (r g b : Byte) (s : State) :
    Emits s (endOp (filledState r g b s)) (fullFillEvents (quantizeColor r g b)) := by
  rw [Emits, endOp_trace, filledState, fullFill_emitAll, emitAll_trace, beginOp_trace]

/-- Settles O47: after the first fill the block is as ready and the controller as accepting, so the second is a fill too. -/
theorem fillIsIdempotent : Obligations.FillIsIdempotent := by
  intro r g b s hbusy hready acc
  have first := filled_fill acc r g b
  have second := filled_fill first.accepting r g b
  have hready' : (endOp (filledState r g b s)).ready = true := by
    rw [endOp_ready, filledState, writeColorRun_ready, sendWindow_ready, beginOp_ready, hready]
  exact ⟨_, _, _, exec_fill hbusy hready r g b, exec_fill (endOp_busy _) hready' r g b, emits_fill r g b s,
    emits_fill r g b _, first.gramSame second⟩

/-- A rejected DRAW_PIXEL sends nothing (R105, R106). -/
theorem exec_drawPixel_rejected {x y : Coord} {s : State} (hbusy : s.busy = false)
    (h : ¬ (s.ready = true ∧ inBounds x y = true)) (r g b : Byte) :
    exec (.drawPixel x y r g b) s = .next (endOp (beginOp s)) :=
  accept_next hbusy ((drawPixelBody_eq x y r g b _).trans (if_neg h))

/-- A one-pixel window and its value write that one cell (R60). -/
theorem pixel_gram {x y : Nat} (hx : x < 240) (hy : y < 240) (v : U16) {s : State} (acc : Accepting s) :
    (writeData16 v (sendWindow x y x y s)).panel.gram = gramWrite16 s.panel.gram (cellAddr x y) v := by
  have hpanel := sendWindow_panel (x2 := x) (y2 := y) acc hx hy
  have stream := inStream_sendWindow acc le_rfl hx le_rfl hy
  have acc' : Accepting (sendWindow x y x y s) :=
    (accepting_iff _).2 ⟨(sendWindow_rst ..).trans ((accepting_iff s).1 acc).1, stream.settle⟩
  have hwc : (sendWindow x y x y s).panel.wc = x := by rw [hpanel]
  have hwr : (sendWindow x y x y s).panel.wr = y := by rw [hpanel]
  have htarget := pixelTarget_eq_cell (p := (sendWindow x y x y s).panel) (by rw [stream.xs]; exact hx)
    (by rw [stream.xe]; exact hx) (by rw [stream.ys]; exact hy) (by rw [stream.ye]; exact hy)
    (by rw [hwr, stream.ye]) (by rw [hwc]; exact hx)
  rw [writeData16_gram acc' stream.cmd stream.half htarget, hwc, hwr, hpanel]

/-- Window and pixel bytes start no settle time (R57). -/
theorem accepting_pixel (x y : Nat) (v : U16) {s : State} (acc : Accepting s) :
    Accepting (writeData16 v (sendWindow x y x y s)) := by
  obtain ⟨hr, settle⟩ := (accepting_iff s).1 acc
  rw [accepting_iff, writeData16_rst, sendWindow_rst, writeData16, txn_emitAll, settle_txn_data, sendWindow_emitAll,
    settle_window]
  exact ⟨hr, settle⟩

/-- Settles O46: accepted, the one cell is written; rejected, nothing is sent. -/
theorem pixelLaw : Obligations.PixelLaw := by
  intro x y r g b s hbusy
  simp only [← inBounds_iff]
  by_cases h : s.ready = true ∧ inBounds x y = true
  · refine ⟨_, exec_drawPixel hbusy h.1 h.2 r g b, ?_⟩
    rw [if_pos h]
    intro acc
    have acc' : Accepting (beginOp s) := by rwa [Accepting, beginOp_rst, beginOp_panel]
    obtain ⟨hx, hy⟩ := coordNat_lt_of_inBounds h.2
    have hgram := pixel_gram hx hy (quantizeColor r g b) acc'
    rw [beginOp_panel] at hgram
    rw [Accepting, endOp_rst, endOp_panel, drawnState, hgram]
    exact ⟨gramCell_gramWrite16_same _ _ _ _, fun a hi lo => gramRead_gramWrite16_other _ _ hi lo,
      accepting_pixel _ _ _ acc'⟩
  · refine ⟨_, exec_drawPixel_rejected hbusy h r g b, ?_⟩
    rw [if_neg h, endOp_panel, beginOp_panel]

end Sys2Proof.Machine
end

section
/-! The trace grows by whole transactions (R38, R42, R63). -/

namespace Sys2Proof.Machine

/-- Settles O57: what an instruction appends is whole bus units, and those are framed. -/
theorem traceOnlyGrowsByWholeTransactions : Obligations.TraceOnlyGrowsByWholeTransactions := fun i s _ h =>
  ⟨busEvents i s, (exec_sameBus h).trace.trans (emitAll_trace _ s), (busUnits_busEvents i s).framed⟩

end Sys2Proof.Machine
end

section
/-! The wire format as numbers (R62, R66, R67, R78): the units of a row are an interval from its pattern on, and no two
rows share a unit. So which row names a unit, and what the unit decodes to, is arithmetic. -/

namespace Sys2Proof

open Sys2Proof.Machine

/-- The number of a bit string followed by another (R9). -/
theorem toNat_append_eq_add {m n : Nat} (x : BitVec m) (y : BitVec n) :
    (x ++ y).toNat = x.toNat * 2 ^ n + y.toNat := by
  rw [BitVec.toNat_append, ← Nat.shiftLeft_add_eq_or_of_lt y.isLt, Nat.shiftLeft_eq]

/-! A vendor opcode is the fixed bits of its block, then two, three or six free bits (R78). -/

@[simp] theorem toNat_opcode_free2 (p : BitVec 6) (v : BitVec 2) : (p ++ v : Byte).toNat = p.toNat * 4 + v.toNat :=
  toNat_append_eq_add p v

@[simp] theorem toNat_opcode_free3 (p : BitVec 5) (v : BitVec 3) : (p ++ v : Byte).toNat = p.toNat * 8 + v.toNat :=
  toNat_append_eq_add p v

@[simp] theorem toNat_opcode_free6 (p : BitVec 2) (v : BitVec 6) : (p ++ v : Byte).toNat = p.toNat * 64 + v.toNat :=
  toNat_append_eq_add p v

/-! Wire units and their containers (R62; log 16). -/

@[simp] theorem wireUnit_cmd_toNat (c : Byte) : (wireUnit .cmd c).toNat = c.toNat :=
  (toNat_append_eq_add 0#1 c).trans (Nat.zero_add _)

@[simp] theorem wireUnit_data_toNat (d : Byte) : (wireUnit .data d).toNat = 256 + d.toNat :=
  toNat_append_eq_add 1#1 d

@[simp] theorem wireUnit_byte (l : Mode) (b : Byte) : (wireUnit l b).extractLsb' 0 8 = b := by
  cases l <;> exact BitVec.extractLsb'_append_eq_right

@[simp] theorem container_high (u : WireUnit) : (0#7 ++ u).extractLsb' 9 7 = 0#7 := BitVec.extractLsb'_append_eq_left

@[simp] theorem container_unit (u : WireUnit) : (0#7 ++ u).extractLsb' 0 9 = u := BitVec.extractLsb'_append_eq_right

@[simp] theorem commandWord_eq_iff (c : Byte) (u : WireUnit) : commandWord c = 0#7 ++ u ↔ u.toNat = c.toNat := by
  rw [commandWord, ← BitVec.toNat_inj, toNat_append_eq_add, toNat_append_eq_add]
  simp [eq_comm]

@[simp] theorem dataWord_eq_iff (d : Byte) (u : WireUnit) : dataWord d = 0#7 ++ u ↔ u.toNat = 256 + d.toNat := by
  rw [dataWord, ← BitVec.toNat_inj, toNat_append_eq_add, toNat_append_eq_add]
  simp [eq_comm]

/-! The units of a row. -/

/-- The unit lies in the row's interval: from its pattern on, as many units as its mask leaves free. -/
def WireRow.Covers (row : WireRow) (u : WireUnit) : Prop :=
  row.pattern.toNat ≤ u.toNat ∧ u.toNat + row.mask.toNat < row.pattern.toNat + 512

/-- Every mask leaves only low bits free, and its pattern has those clear (R78). -/
theorem wireRows_masks : ∀ row ∈ wireRows,
    ∃ k < 9, row.mask = BitVec.allOnes 9 <<< k ∧ row.pattern.toNat % 2 ^ k = 0 := by
  decide

/-- A unit has the fixed bits of a row exactly if it lies in the row's interval. -/
theorem and_mask_eq_pattern_iff {row : WireRow} (hrow : row ∈ wireRows) (u : WireUnit) :
    u &&& row.mask = row.pattern ↔ row.Covers u := by
  obtain ⟨k, hk, hmask, haligned⟩ := wireRows_masks row hrow
  have hu := u.isLt
  rw [WireRow.Covers, hmask, ← BitVec.shiftLeft_ushiftRight, ← BitVec.toNat_inj, BitVec.toNat_shiftLeft,
    BitVec.toNat_ushiftRight, Nat.shiftLeft_eq, Nat.shiftRight_eq_div_pow]
  interval_cases k <;> simp at haligned ⊢ <;> omega

/-- Two rows have different fixed bits where both fix a bit. -/
def WireRow.Apart (a b : WireRow) : Prop := a.pattern &&& b.mask ≠ b.pattern &&& a.mask

theorem wireRows_apart : wireRows.Pairwise WireRow.Apart := by
  unfold WireRow.Apart
  decide

/-- No two rows share a unit (R78). -/
theorem row_eq_of_covers {a b : WireRow} (ha : a ∈ wireRows) (hb : b ∈ wireRows) {u : WireUnit} (hau : a.Covers u)
    (hbu : b.Covers u) : a = b := by
  have : Std.Symm WireRow.Apart := ⟨fun _ _ => Ne.symm⟩
  by_contra hne
  apply wireRows_apart.forall ha hb hne
  rw [← (and_mask_eq_pattern_iff ha u).2 hau, ← (and_mask_eq_pattern_iff hb u).2 hbu, BitVec.and_assoc,
    BitVec.and_assoc, BitVec.and_comm a.mask]

/-- A unit of a row decodes to what the row builds from it. -/
theorem decodeWireUnit_of_covers {row : WireRow} (hrow : row ∈ wireRows) {u : WireUnit} (h : row.Covers u) :
    decodeWireUnit u = row.build u := by
  unfold decodeWireUnit
  split
  next found hfound =>
    have hmem := List.mem_of_find?_eq_some hfound
    have hfixed := (and_mask_eq_pattern_iff hmem u).1 (by simpa using List.find?_some hfound)
    rw [row_eq_of_covers hrow hmem h hfixed]
  next hnone =>
    exact absurd ((and_mask_eq_pattern_iff hrow u).2 h) (by simpa using List.find?_eq_none.1 hnone row hrow)

/-- A unit of no row decodes to the plain command transfer of its byte (log 17). -/
theorem decodeWireUnit_of_not_covers {u : WireUnit} (h : ¬ ∃ row ∈ wireRows, row.Covers u) :
    decodeWireUnit u = .writeCmd (u.extractLsb' 0 8) := by
  have hnone : wireRows.find? (fun row => u &&& row.mask == row.pattern) = none :=
    List.find?_eq_none.2 fun row hrow hfixed =>
      h ⟨row, hrow, (and_mask_eq_pattern_iff hrow u).1 (by simpa using hfixed)⟩
  rw [decodeWireUnit, hnone]

/-- The rows name exactly the data bytes and the commands of the named and the vendor opcodes (R66, R67). -/
theorem exists_covers_iff (l : Mode) (b : Byte) :
    (∃ row ∈ wireRows, row.Covers (wireUnit l b)) ↔
      l = .data ∨ isNamedInit b = true ∨ isWindowOpcode b = true ∨ isVendor b = true := by
  have hb := b.isLt
  simp only [wireRows, namedRows, vendorRows, List.cons_append, List.nil_append, List.mem_cons, List.not_mem_nil,
    or_false, exists_eq_or_imp, exists_eq_left, WireRow.Covers, BitVec.reduceToNat]
  cases l with
  | cmd => simp [isNamedInit, isWindowOpcode, isVendor, ← BitVec.toNat_inj]; omega
  | data => simp; omega

/-- What a row builds from one of its units encodes to that unit. -/
theorem encode_build {row : WireRow} (hrow : row ∈ wireRows) {u : WireUnit} (h : row.Covers u) :
    encode (row.build u) = .wire (0#7 ++ u) := by
  simp only [wireRows, namedRows, vendorRows, List.cons_append, List.nil_append, List.mem_cons, List.not_mem_nil,
    or_false] at hrow
  rcases hrow with rfl | rfl | rfl | rfl | rfl | rfl | rfl | rfl | rfl | rfl | rfl | rfl | rfl | rfl | rfl | rfl | rfl | rfl
  all_goals
    simp [encode, WireRow.Covers] at h ⊢
    omega

/-- Settles O3: the row that covers a unit builds an instruction that encodes to it; a unit no row covers is a command. -/
theorem encodeOfDecodeIsTheUnit : Obligations.EncodeOfDecodeIsTheUnit := by
  intro l b
  split
  next h =>
    obtain ⟨row, hrow, hcovers⟩ := (exists_covers_iff l b).2 h
    rw [decodeWireUnit_of_covers hrow hcovers, encode_build hrow hcovers]
  next h => rw [decodeWireUnit_of_not_covers (h ∘ (exists_covers_iff l b).1), wireUnit_byte]

end Sys2Proof
end

section
/-! The wire rows as instructions (R62, R64): an instruction that encodes to a container is the transfer of one byte, and the
row of that unit builds it. -/

namespace Sys2Proof

open Sys2Proof.Machine Sys2Proof.Safety

/-- A wire row is the one-byte transaction of its unit (log 13). -/
theorem encode_eq_wire {i : Instr} {w : BitVec 16} (h : encode i = .wire w) :
    ∃ l b, w = 0#7 ++ wireUnit l b ∧ ∀ s, exec i s = .next (txn l [b] s) := by
  cases i <;> cases h
  case dataByte d => exact ⟨.data, d, by simp, fun _ => rfl⟩
  all_goals exact ⟨.cmd, _, (commandWord_eq_iff _ _).2 (wireUnit_cmd_toNat _), fun _ => rfl⟩

/-- The row that covers the unit of an instruction builds that instruction. -/
theorem exists_row_of_encode {i : Instr} {w : BitVec 16} (h : encode i = .wire w) {u : WireUnit} (hw : w = 0#7 ++ u) :
    ∃ row ∈ wireRows, row.Covers u ∧ row.build u = i := by
  simp only [wireRows, namedRows, vendorRows, List.cons_append, List.nil_append, List.mem_cons, List.not_mem_nil,
    or_false, exists_eq_or_imp, exists_eq_left, WireRow.Covers, BitVec.reduceToNat]
  cases i <;> cases h
  all_goals
    simp at hw
    simp [← BitVec.toNat_inj]
    omega

theorem decodeWord_of_encode {i : Instr} {w : BitVec 16} (h : encode i = .wire w) : decodeWord w = .ok i := by
  obtain ⟨l, b, rfl, -⟩ := encode_eq_wire h
  obtain ⟨row, hrow, hcovers, hbuild⟩ := exists_row_of_encode h rfl
  rw [decodeWord, container_high, if_pos rfl, container_unit, decodeWireUnit_of_covers hrow hcovers, hbuild]

theorem decode_encode (i : Instr) : decode (encode i) = .ok i := by
  cases h : encode i with
  | wire w => exact decodeWord_of_encode h
  | host op => cases i <;> cases h <;> rfl
  | micro op => cases i <;> cases h <;> rfl

/-- The host reads a word as the decoder does: its two bytes, low byte first, are the word (log 16). -/
theorem decodeTableWord_of_encode {i : Instr} {n : Nat} (h : encode i = .wire (tableWord 16 n)) :
    decodeTableWord 16 n = some i := by
  have hword : hi8 (tableWord 16 n) ++ lo8 (tableWord 16 n) = tableWord 16 n := joinBytes_hi8_lo8 _
  rw [decodeTableWord, tableBytes, decodeBytes, hword, decodeWord_of_encode h]

theorem tableWord_toNat (w : BitVec 16) : tableWord 16 w.toNat = w := by
  rw [tableWord, Nat.mod_eq_of_lt w.isLt, BitVec.ofNat_toNat, BitVec.setWidth_eq]

/-- Settles O2: a wire row is what the row of its unit builds; the other instructions are their own terms. -/
theorem decodeOfEncodeIsTheInstruction : Obligations.DecodeOfEncodeIsTheInstruction := fun i =>
  ⟨decode_encode i, fun w h => decodeTableWord_of_encode (h.trans (by rw [tableWord_toNat]))⟩

/-- Settles O1: each word is the encoding of its row, and the last has a tenth bit. -/
theorem wireWordsDecodeToTheirRows : Obligations.WireWordsDecodeToTheirRows :=
  have row {i : Instr} {n : Nat} (h : encode i = .wire (tableWord 16 n)) := decodeTableWord_of_encode h
  ⟨row rfl, row rfl, row rfl, row rfl, row rfl, row rfl, row rfl, row rfl, row rfl, row rfl, row rfl, row rfl, row rfl,
    row rfl, row rfl, row rfl, row rfl, row rfl, rfl⟩

end Sys2Proof
end

section
/-! Wire rows and the full-panel window on the wire (R62, R64, R77). -/

namespace Sys2Proof.Machine

open Sys2Proof.Safety

theorem encode_of_wireOf {i : Instr} {w : BitVec 16} (h : wireOf i = some w) : encode i = .wire w := by
  unfold wireOf at h
  split at h
  next v hv => cases h; exact hv
  · cases h
  · cases h

/-- Bit 8 of a container is the mode-select level (R62). -/
theorem container_level (l : Mode) (b : Byte) : (0#7 ++ wireUnit l b).getLsbD 8 = decide (l = .data) := by
  cases l <;> simp only [BitVec.getLsbD_append, wireUnit] <;> rfl

theorem container_byte (l : Mode) (b : Byte) : (0#7 ++ wireUnit l b).extractLsb' 0 8 = b :=
  (BitVec.extractLsb'_append_eq_of_add_le (by decide)).trans (wireUnit_byte l b)

/-- Settles O8: a wire row is the transaction of its unit, so its trace, signals and frame are those of the transaction. -/
theorem everyWireRowSendsItsUnit : Obligations.EveryWireRowSendsItsUnit := by
  intro i w s h
  obtain ⟨l, b, rfl, hexec⟩ := encode_eq_wire (encode_of_wireOf h)
  refine ⟨_, hexec s, ?_⟩
  rw [container_level, container_byte, container_unit]
  have units (k : Mode) : wireUnitsFrom k (txn l [b] s).trace = wireUnitsFrom k s.trace ++ [wireUnit l b] := by simp
  cases l <;> exact ⟨txn_trace _ _ s, units, txn_dc _ _ s, txn_cs _ _ s, busFrame_txn _ _ s, rfl⟩

/-- The full-panel window runs from 0x0000 to 0x00EF in both directions (R77). -/
theorem windowEvents_full :
    windowEvents 0 0 239 239 =
      txnEvents .cmd [0x2A] ++ txnEvents .data [0x00, 0x00] ++ txnEvents .data [0x00, 0xEF] ++
      txnEvents .cmd [0x2B] ++ txnEvents .data [0x00, 0x00] ++ txnEvents .data [0x00, 0xEF] ++ txnEvents .cmd [0x2C] := rfl

/-- Settles O21: the seven transactions of the window, and the units they carry. -/
theorem fullPanelWindowOnTheWire : Obligations.FullPanelWindowOnTheWire := by
  intro s
  have htrace := sendWindow_trace 0 0 239 239 s
  refine ⟨_, exec_setWindow (by decide) (by decide) (by decide) (by decide) s, fun l => ?_, ?_⟩
  · rw [htrace, wireUnitsFrom_append, windowEvents_full]
    simp [wireUnit]
  · rw [Emits, htrace, windowEvents_full]

end Sys2Proof.Machine
end

section
/-! The framing units (R79 to R84): each is one transaction, so its trace, its wire units, its signals and its frame are those
of the transaction. -/

namespace Sys2Proof.Machine

open Sys2Proof.Safety

/-- What one transaction sends, the signals it ends with, and its frame (R79). -/
theorem txn_sends (l : Mode) (bs : List Byte) (s : State) :
    Emits s (txn l bs s) (txnEvents l bs) ∧
      (∀ k, wireUnitsFrom k (txn l bs s).trace = wireUnitsFrom k s.trace ++ bs.map (wireUnit l)) ∧
      (txn l bs s).dc = l ∧ (txn l bs s).cs = .deasserted ∧ BusFrame s (txn l bs s) :=
  ⟨txn_trace l bs s, fun k => by simp, txn_dc l bs s, txn_cs l bs s, busFrame_txn l bs s⟩

/-- Settles O4: the transaction of the command byte. -/
theorem writeCmdSendsOneCommandByte : Obligations.WriteCmdSendsOneCommandByte := fun c s =>
  ⟨writeCmd c s, rfl, txn_sends .cmd [c] s⟩

/-- Settles O5: the transaction of the data byte. -/
theorem writeData8SendsOneDataByte : Obligations.WriteData8SendsOneDataByte := fun d s =>
  ⟨writeData8 d s, rfl, txn_sends .data [d] s⟩

/-- Settles O6: the transaction of the two bytes of the value. -/
theorem writeData16SendsHighByteFirst : Obligations.WriteData16SendsHighByteFirst := fun v s =>
  ⟨writeData16 v s, rfl, txn_sends .data (bytes16 v) s⟩

/-- A run is its pixels, two bytes each, whatever is made of a byte. -/
theorem map_runBytes {α : Type} (f : Byte → α) (v : U16) (n : Nat) :
    (runBytes v n).map f = (List.replicate n [f (hi8 v), f (lo8 v)]).flatten := by
  simp [runBytes, bytes16, List.map_flatten]

/-- Settles O7: the transaction of the bytes of the run, read as events and as wire units. -/
theorem writeColorRunIsOneTransaction : Obligations.WriteColorRunIsOneTransaction := by
  intro v n s
  obtain ⟨emits, units, signals⟩ := txn_sends .data (runBytes v n) s
  rw [txnEvents, map_runBytes] at emits
  simp only [map_runBytes] at units
  refine ⟨writeColorRun v n s, rfl, emits, units, ?_, ?_, signals⟩
  · simp only [writeColorRun_trace, transactionCount_append, transactionCount_txnEvents]
  · simp only [writeColorRun_trace, traceBytes_append, traceBytes_txnEvents, List.length_append, length_runBytes]

end Sys2Proof.Machine
end

section
/-! The serial waveform (R80), for any list of bits: its phases, mosi across a rising edge, and what the receiver samples. A
byte is its eight bits in line order. -/

namespace Sys2Proof.Machine

open Sys2Proof.Safety

/-- Bit k of a list of bits goes out in phases 3k, 3k + 1 and 3k + 2. -/
theorem phases_of_getElem? {bits : List Bool} {k : Nat} {v : Bool} (h : bits[k]? = some v) :
    (bits.flatMap bitWaveform)[3 * k]? = some ⟨levelOfBit v, .low⟩ ∧
      (bits.flatMap bitWaveform)[3 * k + 1]? = some ⟨levelOfBit v, .high⟩ ∧
      (bits.flatMap bitWaveform)[3 * k + 2]? = some ⟨levelOfBit v, .low⟩ := by
  induction bits generalizing k with
  | nil => cases h
  | cons w bits ih =>
    cases k with
    | zero => cases h; exact ⟨rfl, rfl, rfl⟩
    | succ k => exact ih h

/-- Two phases in a row: if the clock rises from the first to the second, mosi is the same in both. -/
def StableAcrossRise (x y : ClockPhase) : Prop := x.sclk = .low → y.sclk = .high → x.mosi = y.mosi

/-- Each bit sets mosi in a phase of its own, with the clock low, before its rising edge. -/
theorem isChain_stableAcrossRise (bits : List Bool) {before : ClockPhase} (hlow : before.sclk = .low) :
    (before :: bits.flatMap bitWaveform).IsChain StableAcrossRise := by
  induction bits generalizing before with
  | nil => exact .singleton _
  | cons v bits ih =>
    have hset : StableAcrossRise before ⟨levelOfBit v, .low⟩ := fun _ h => nomatch h
    have hrise : StableAcrossRise ⟨levelOfBit v, .low⟩ ⟨levelOfBit v, .high⟩ := fun _ _ => rfl
    have hfall : StableAcrossRise ⟨levelOfBit v, .high⟩ ⟨levelOfBit v, .low⟩ := fun h => nomatch h
    exact .cons_cons hset (.cons_cons hrise (.cons_cons hfall (ih rfl)))

/-- From a low clock the receiver samples each bit once, at its rising edge. -/
theorem risingSamples_bits (bits : List Bool) :
    risingSamples .low (bits.flatMap bitWaveform) = bits.map levelOfBit := by
  induction bits with
  | nil => rfl
  | cons v bits ih => exact congrArg (levelOfBit v :: ·) ih

/-- Line order counts the bits of a byte from the most significant one down (R34). -/
theorem lineBits_eq_map_range (b : Byte) : lineBits b = (List.range 8).map fun i => b.getLsbD (7 - i) := rfl

theorem getElem?_lineBits (b : Byte) {k : Nat} (hk : k < 8) : (lineBits b)[k]? = some (b.getLsbD (7 - k)) := by
  rw [lineBits_eq_map_range, List.getElem?_map, List.getElem?_range hk, Option.map_some]

/-- The waveform of a sequence of bytes is that of all their bits. -/
theorem risingSamples_bytes (bs : List Byte) :
    risingSamples .low (bs.flatMap byteWaveform) = bs.flatMap fun b => (lineBits b).map levelOfBit := by
  calc risingSamples .low (bs.flatMap byteWaveform)
      = risingSamples .low ((bs.flatMap lineBits).flatMap bitWaveform) := by rw [List.flatMap_assoc]; rfl
    _ = (bs.flatMap lineBits).map levelOfBit := risingSamples_bits _
    _ = bs.flatMap fun b => (lineBits b).map levelOfBit := List.map_flatMap

/-- Settles O9: the phases of the bits of a byte in line order, stable across each rise, sampled once for each bit. -/
theorem bytesGoOutMostSignificantBitFirst : Obligations.BytesGoOutMostSignificantBitFirst := by
  refine ⟨fun b => ⟨rfl, fun k hk => phases_of_getElem? (getElem?_lineBits b hk)⟩, ?_, ?_, fun b s => emit_byte_sclk b s⟩
  · intro b before x y k hlow hx hy
    obtain ⟨hk, rfl⟩ := List.getElem?_eq_some_iff.1 hy
    obtain ⟨_, rfl⟩ := List.getElem?_eq_some_iff.1 hx
    exact List.isChain_iff_getElem.1 (isChain_stableAcrossRise (lineBits b) hlow) k hk
  · intro bs
    simp only [risingSamples_bytes, lineBits_eq_map_range, List.map_map, Function.comp_def]

end Sys2Proof.Machine
end

section
/-! The signal primitives (R85 to R87): a wait, the backlight and the reset pulse. -/

namespace Sys2Proof.Machine

open Sys2Proof.Safety

theorem waitEvents_toNat (d : U16) : waitEvents d.toNat = if d = 0 then [] else [.wait d.toNat] := by
  by_cases hd : d = 0
  · rw [hd]; rfl
  · rw [waitEvents, if_neg hd, if_pos (Nat.pos_of_ne_zero fun h => hd (BitVec.eq_of_toNat_eq h))]

/-- A wait changes nothing but the bus and the panel. -/
theorem busFrame_waitMs (d : Nat) (s : State) : BusFrame s (waitMs d s) := by
  rw [waitMs_eq]; constructor <;> rfl

/-- Settles O10: every signal after a wait is the one before it, and the panel only elapses. -/
theorem waitMsHoldsEveryOutput : Obligations.WaitMsHoldsEveryOutput := fun d s =>
  have emits : Emits s (waitMs d.toNat s) (if d = 0 then [] else [.wait d.toNat]) := by
    rw [Emits, waitMs_trace, waitEvents_toNat]
  ⟨waitMs d.toNat s, rfl, emits, waitMs_dc _ s, waitMs_cs _ s, waitMs_sclk _ s, waitMs_mosi _ s, busFrame_waitMs _ s,
    waitMs_freeTick _ s, waitMs_panel _ s⟩

/-- Settles O11: the equation of the operation. -/
theorem driveBacklightOnlyWithThePin : Obligations.DriveBacklightOnlyWithThePin := fun s =>
  congrArg Host.Outcome.next (driveBacklight_eq s)

/-- The pulse as its events: its own wait only for a pulse time above 0, its settle wait of 120 ms always. -/
theorem resetPulseEvents_eq (pulseMs : Nat) :
    resetPulseEvents pulseMs =
      [.rst .inactive, .rst .active] ++ (if 0 < pulseMs then [.wait pulseMs] else []) ++ [.rst .inactive, .wait 120] := by
  simp [resetPulseEvents, waitEvents, settleMs]

/-- Settles O12: with the pin, the equation of the pulse, field by field; without it, the operation is empty. -/
theorem hwResetPulseOnlyWithThePin : Obligations.HwResetPulseOnlyWithThePin := by
  intro s
  refine ⟨hwResetPulse s, rfl, fun hr => by simp [hwResetPulse, hr], fun hr => ?_⟩
  rw [hwResetPulse_eq s hr, Emits, resetPulseEvents_eq]
  exact ⟨rfl, rfl, rfl, rfl, rfl, rfl, rfl, rfl, rfl, rfl, rfl, rfl, rfl, rfl, rfl, rfl⟩

end Sys2Proof.Machine
end

section
/-! The five signal rules (R88) at every event of a framed trace: the framing monitor stands in one phase before the event, and
the phase fixes select and the events just sent. -/

namespace Sys2Proof.Machine

open Sys2Proof.Safety

/-- The select level of a phase. -/
def FramePhase.select : FramePhase → Select
  | .idle => .deasserted
  | .armed => .deasserted
  | .shifting => .asserted

/-- The select level at which an event comes in a framed trace (R88). -/
def BusEvent.selectBefore : BusEvent → Select
  | .byte _ => .asserted
  | .cs .deasserted => .asserted
  | .cs .asserted => .deasserted
  | .dc _ => .deasserted
  | .wait _ => .deasserted
  | .rst _ => .deasserted
  | .blHigh => .deasserted

/-- The framing monitor takes an event only at its select level. -/
theorem selectBefore_eq_of_frameStep {p q : FramePhase} {e : BusEvent} (h : frameStep p e = some q) :
    e.selectBefore = p.select := by
  unfold frameStep at h
  split at h
  case h_8 => cases h
  all_goals rfl

/-- Select after a trace is that of the phase the framing monitor stands in. -/
theorem csAfter_eq_select {t : List BusEvent} {p : FramePhase} (h : frameRun .idle t = some p) :
    csAfter .deasserted t = p.select := by
  have asserted_iff := csAfter_asserted_iff_shifting t .idle p .deasserted h (by simp)
  cases p with
  | shifting => exact asserted_iff.2 rfl
  | idle | armed =>
    cases hcs : csAfter .deasserted t with
    | deasserted => rfl
    | asserted => cases asserted_iff.1 hcs

/-- What a phase says of the events just sent (R63): armed, a mode-select; shifting, the start of a transaction and bytes. -/
def FramePhase.EndsTrace : FramePhase → List BusEvent → Prop
  | .idle, _ => True
  | .armed, t => ∃ u k, t = u ++ [.dc k]
  | .shifting, t => ∃ (u : List BusEvent) (k : Mode) (bs : List Byte), t = u ++ [.dc k, .cs .asserted] ++ bs.map .byte

theorem endsTrace_of_frameStep {p q : FramePhase} {e : BusEvent} {t : List BusEvent} (h : frameStep p e = some q)
    (ht : p.EndsTrace t) : q.EndsTrace (t ++ [e]) := by
  unfold frameStep at h
  split at h <;> cases h
  · exact ⟨t, _, rfl⟩
  · trivial
  · trivial
  · trivial
  · obtain ⟨u, k, rfl⟩ := ht
    exact ⟨u, k, [], by simp⟩
  · rename_i b
    obtain ⟨u, k, bs, rfl⟩ := ht
    exact ⟨u, k, bs ++ [b], by simp⟩
  · trivial

theorem endsTrace_of_frameRun {p q : FramePhase} {es t : List BusEvent} (h : frameRun p es = some q)
    (ht : p.EndsTrace t) : q.EndsTrace (t ++ es) := by
  induction es generalizing p t with
  | nil => cases h; rwa [List.append_nil]
  | cons e es ih =>
    rw [frameRun] at h
    split at h
    · rename_i hstep
      rw [List.append_cons]
      exact ih h (endsTrace_of_frameStep hstep ht)
    · cases h

/-- A framed trace cut at an event: the monitor stands in some phase, and takes the event there. -/
theorem exists_phase_of_framed {before after : List BusEvent} {e : BusEvent} (h : framed (before ++ e :: after) = true) :
    ∃ p q, frameRun .idle before = some p ∧ frameStep p e = some q := by
  rw [framed_iff, frameRun_append, Option.bind_eq_some_iff] at h
  obtain ⟨p, hp, hrest⟩ := h
  rw [frameRun] at hrest
  split at hrest
  · exact ⟨p, _, hp, ‹_›⟩
  · cases hrest

/-- A byte comes in a transaction, with nothing but bytes since its start. -/
theorem transaction_before_byte {before : List BusEvent} {p q : FramePhase} {b : Byte}
    (hp : frameRun .idle before = some p) (h : frameStep p (.byte b) = some q) :
    ∃ (u : List BusEvent) (k : Mode) (bs : List Byte), before = u ++ [.dc k, .cs .asserted] ++ bs.map .byte := by
  cases p with
  | shifting => exact endsTrace_of_frameRun (t := []) hp trivial
  | idle | armed => cases h

/-- Settles O56: select before the event is the event's own level, and a byte has its transaction before it. -/
theorem tracesMeetTheSignalRules : Obligations.TracesMeetTheSignalRules := by
  intro s before after e inv htrace
  obtain ⟨p, q, hp, hstep⟩ := exists_phase_of_framed (htrace ▸ inv.framed)
  have hcs : csAfter .deasserted before = e.selectBefore :=
    (csAfter_eq_select hp).trans (selectBefore_eq_of_frameStep hstep).symm
  refine ⟨?_, ?_, ?_, ?_, ?_, ?_, ?_⟩
  · rintro l rfl; exact hcs
  · rintro b rfl
    obtain ⟨u, k, bs, rfl⟩ := transaction_before_byte hp hstep
    exact ⟨hcs, u, k, bs, rfl, fun l => by simp [dcAfter]⟩
  · rintro rfl; exact hcs
  · rintro rfl; exact hcs
  · rintro d rfl; exact hcs
  · rintro a rfl; exact hcs
  · rintro rfl; exact hcs

end Sys2Proof.Machine
end

section
/-! The initialization sequencer on the wire (R93, R94, R98): a step is a command, its payload byte by byte and its wait; what
is read off the trace of a table is read off its steps. -/

namespace Sys2Proof.Machine

open Sys2Proof.Safety

/-- A step written out event by event, its wait left out for a delay of 0 (R76, R93). -/
theorem stepEvents_eq (st : InitStep) :
    stepEvents st = [.dc .cmd, .cs .asserted, .byte st.cmd, .cs .deasserted] ++
      st.payload.flatMap (fun p => [.dc .data, .cs .asserted, .byte p, .cs .deasserted]) ++
      (if st.delayMs = 0 then [] else [.wait st.delayMs.toNat]) := by
  rw [stepEvents, waitEvents_toNat]; rfl

theorem busFrame_runStep (st : InitStep) (s : State) : BusFrame s (runStep st s) := by
  constructor <;> simp

/-- Settles O14: the step's events written out, and the signals its last transaction leaves. -/
theorem execStepSendsCommandPayloadAndWait : Obligations.ExecStepSendsCommandPayloadAndWait := fun st s =>
  have emits : Emits s (runStep st s) (stepEvents st) := runStep_trace st s
  ⟨runStep st s, rfl, stepEvents_eq st ▸ emits, runStep_dc st s, runStep_cs st s, busFrame_runStep st s⟩

/-! What the trace readers find in a payload, a step and a table. -/

theorem commandBytesFrom_payload (ps : List Byte) (l : Mode) :
    commandBytesFrom l (ps.flatMap fun p => txnEvents .data [p]) = [] := by
  induction ps generalizing l with
  | nil => rfl
  | cons p ps ih => rw [List.flatMap_cons, commandBytesFrom_append, commandBytesFrom_txn_data, ih, List.nil_append]

theorem transactionCount_payload (ps : List Byte) :
    transactionCount (ps.flatMap fun p => txnEvents .data [p]) = ps.length := by
  induction ps with
  | nil => rfl
  | cons p ps ih =>
    rw [List.flatMap_cons, transactionCount_append, transactionCount_txnEvents, ih, List.length_cons, Nat.add_comm]

theorem traceBytes_payload (ps : List Byte) : traceBytes (ps.flatMap fun p => txnEvents .data [p]) = ps := by
  induction ps with
  | nil => rfl
  | cons p ps ih => rw [List.flatMap_cons, traceBytes_append, traceBytes_txnEvents, ih, List.singleton_append]

theorem commandBytesFrom_waitEvents (l : Mode) (d : Nat) : commandBytesFrom l (waitEvents d) = [] := by
  rw [waitEvents]; split <;> rfl

theorem transactionCount_waitEvents (d : Nat) : transactionCount (waitEvents d) = 0 := by
  rw [waitEvents]; split <;> rfl

theorem traceBytes_waitEvents (d : Nat) : traceBytes (waitEvents d) = [] := by
  rw [waitEvents]; split <;> rfl

@[simp] theorem commandBytesFrom_stepEvents (l : Mode) (st : InitStep) :
    commandBytesFrom l (stepEvents st) = [st.cmd] := by
  simp [stepEvents, commandBytesFrom_payload, commandBytesFrom_waitEvents]

@[simp] theorem transactionCount_stepEvents (st : InitStep) :
    transactionCount (stepEvents st) = 1 + st.payload.length := by
  simp [stepEvents, transactionCount_payload, transactionCount_waitEvents]

@[simp] theorem traceBytes_stepEvents (st : InitStep) : traceBytes (stepEvents st) = st.cmd :: st.payload := by
  simp [stepEvents, traceBytes_payload, traceBytes_waitEvents]

theorem commandBytesFrom_steps (t : List InitStep) (l : Mode) :
    commandBytesFrom l (t.flatMap stepEvents) = t.map InitStep.cmd := by
  induction t generalizing l with
  | nil => rfl
  | cons st t ih => simp [ih]

theorem transactionCount_steps (t : List InitStep) :
    transactionCount (t.flatMap stepEvents) = t.length + (t.map fun st => st.payload.length).sum := by
  induction t with
  | nil => rfl
  | cons st t ih =>
    rw [List.flatMap_cons, transactionCount_append, transactionCount_stepEvents, ih, List.length_cons, List.map_cons,
      List.sum_cons]
    omega

/-- Every transaction of a table has one byte. -/
theorem length_traceBytes_steps (t : List InitStep) :
    (traceBytes (t.flatMap stepEvents)).length = transactionCount (t.flatMap stepEvents) := by
  induction t with
  | nil => rfl
  | cons st t ih =>
    rw [List.flatMap_cons, traceBytes_append, List.length_append, ih, traceBytes_stepEvents, List.length_cons,
      transactionCount_append, transactionCount_stepEvents, Nat.add_comm 1]

/-- RUN_INIT writes seq_pc and the bus, nothing else (R94, R101). -/
theorem busFrame_runInit (s : State) : BusFrame { s with seqPc := s.cfg.initTable.length } (runInit s) := by
  constructor <;> simp

/-- Settles O16: the trace of the table, and what the trace readers find in it. -/
theorem runInitSendsTheTableInOrder : Obligations.RunInitSendsTheTableInOrder := fun s =>
  ⟨runInit s, rfl,
    ⟨s.cfg.initTable.flatMap stepEvents, runInit_trace s, congrArg s.cfg.initTable.flatMap (funext stepEvents_eq),
      commandBytesFrom_steps _, transactionCount_steps _, length_traceBytes_steps _⟩,
    runInit_seqPc s, busFrame_runInit s⟩

end Sys2Proof.Machine
end

section
/-! The well-formedness of the initialization table (R92): each of its checks as a proposition about the table's steps. -/

namespace Sys2Proof.Machine

/-- WF1 and WF6: the software reset stands at step 0, with its delay, and nowhere else. -/
theorem wf1_wf6_iff (c : Config) : wf1 c = true ∧ wf6 c = true ↔
    ∃ st rest, c.initTable = st :: rest ∧ st.cmd = 0x01 ∧ 120 ≤ st.delayMs.toNat ∧ ∀ st' ∈ rest, st'.cmd ≠ 0x01 := by
  rw [wf1, wf6]
  cases c.initTable with
  | nil => simp
  | cons st rest => simp [and_assoc]

theorem isNamedInit_iff (b : Byte) :
    isNamedInit b = true ↔ b ∈ ([0x01, 0x11, 0x13, 0x21, 0x29, 0x36, 0x3A] : List Byte) := by
  simp [isNamedInit, or_assoc]

theorem isVendor_iff (b : Byte) :
    isVendor b = true ↔ (0x84 ≤ b.toNat ∧ b.toNat ≤ 0x98) ∨ b = 0xB6 ∨ 0xBC ≤ b.toNat := by
  simp [isVendor, ← BitVec.toNat_inj, or_assoc]

theorem isParameterless_iff (b : Byte) :
    isParameterless b = true ↔ b ∈ ([0x01, 0x11, 0x13, 0x21, 0x29] : List Byte) := by
  simp [isParameterless, or_assoc]

/-- A delay reaches the minimum of a command exactly when it reaches that of each command R95 names. -/
theorem minDelayMs_le_iff (b : Byte) (d : Nat) : minDelayMs b ≤ d ↔
    (b = 0x11 → 120 ≤ d) ∧ (b = 0x21 → 10 ≤ d) ∧ (b = 0x13 → 10 ≤ d) ∧ (b = 0x29 → 120 ≤ d) ∧ (b = 0x01 → 120 ≤ d) := by
  rw [minDelayMs]
  split_ifs <;> simp_all

theorem wf2_iff (c : Config) : wf2 c = true ↔ ∀ st ∈ c.initTable,
    st.cmd ∈ ([0x01, 0x11, 0x13, 0x21, 0x29, 0x36, 0x3A] : List Byte) ∨
      (0x84 ≤ st.cmd.toNat ∧ st.cmd.toNat ≤ 0x98) ∨ st.cmd = 0xB6 ∨ 0xBC ≤ st.cmd.toNat := by
  simp only [wf2, List.all_eq_true, Bool.or_eq_true, isNamedInit_iff, isVendor_iff]

theorem wf3_iff (c : Config) : wf3 c = true ↔ ∀ st ∈ c.initTable,
    (st.cmd = 0x11 → 120 ≤ st.delayMs.toNat) ∧ (st.cmd = 0x21 → 10 ≤ st.delayMs.toNat) ∧
      (st.cmd = 0x13 → 10 ≤ st.delayMs.toNat) ∧ (st.cmd = 0x29 → 120 ≤ st.delayMs.toNat) ∧
      (st.cmd = 0x01 → 120 ≤ st.delayMs.toNat) := by
  simp only [wf3, List.all_eq_true, decide_eq_true_eq, minDelayMs_le_iff]

theorem wf4_iff (c : Config) : wf4 c = true ↔
    ∀ op ∈ ([0x11, 0x21, 0x13, 0x29, 0x36, 0x3A] : List Byte), ∃ st ∈ c.initTable, st.cmd = op := by
  simp only [wf4, List.all_eq_true, List.any_eq_true, beq_iff_eq]

theorem wf5_iff (c : Config) : wf5 c = true ↔ ∀ st ∈ c.initTable,
    (st.cmd = 0x3A → st.payload = c.colmodPayload) ∧ (st.cmd = 0x36 → st.payload = c.madctlPayload) := by
  simp only [wf5, List.all_eq_true, Bool.and_eq_true, Bool.or_eq_true, bne_iff_ne, beq_iff_eq, imp_iff_not_or]

theorem wf7_iff (c : Config) : wf7 c = true ↔ ∀ st ∈ c.initTable,
    st.cmd ∈ ([0x01, 0x11, 0x13, 0x21, 0x29] : List Byte) → st.payload = [] := by
  simp only [wf7, List.all_eq_true, Bool.or_eq_true, Bool.not_eq_true', ← isParameterless_iff, List.isEmpty_iff,
    imp_iff_not_or, Bool.not_eq_true]

/-- WF_INIT as its clauses, those about every step together. -/
theorem wfInit_iff (c : Config) : wfInit c = true ↔
    (wf1 c = true ∧ wf6 c = true) ∧ (wf2 c = true ∧ wf3 c = true ∧ wf5 c = true ∧ wf7 c = true) ∧ wf4 c = true := by
  simp only [wfInit, Bool.and_eq_true]
  tauto

/-- A configuration whose table fails WF_INIT takes no step (R129). -/
theorem step_of_illformed {s : State} (h : wfInit s.cfg = false) : step s = .refused .initTableIllformed := by
  rw [step, h]; rfl

/-- Settles O18: each check is its clause, the clauses about a single step gathered under one quantifier. -/
theorem initTableCheckIsItsSevenClauses : Obligations.InitTableCheckIsItsSevenClauses := by
  refine ⟨fun s => step_of_illformed, fun c => ?_⟩
  rw [wfInit_iff, wf1_wf6_iff, wf2_iff, wf3_iff, wf4_iff, wf5_iff, wf7_iff]
  simp only [← forall₂_and, and_assoc]

end Sys2Proof.Machine
end

section
/-! The window and the pixel operations on the wire (R102 to R107): a window is seven transactions, a fill and a pixel are a
window and one data transaction, and the counts are those of these events. -/

namespace Sys2Proof.Machine

open Sys2Proof.Safety

/-! The trace lines as events (R74, R76). -/

/-- A window written out line by line. -/
theorem linesEvents_windowLines (x1 y1 x2 y2 : Nat) :
    linesEvents [.cmd 0x2A, .d16 (BitVec.ofNat 16 x1), .d16 (BitVec.ofNat 16 x2),
      .cmd 0x2B, .d16 (BitVec.ofNat 16 y1), .d16 (BitVec.ofNat 16 y2), .cmd 0x2C] = windowEvents x1 y1 x2 y2 := by
  simp [linesEvents, lineEvents, windowEvents, zext16]

theorem linesEvents_window_run (x1 y1 x2 y2 : Nat) (v : U16) (n : Nat) :
    linesEvents [.window x1 y1 x2 y2, .run v n] = windowEvents x1 y1 x2 y2 ++ txnEvents .data (runBytes v n) := by
  simp [linesEvents, lineEvents]

theorem linesEvents_window_d16 (x1 y1 x2 y2 : Nat) (v : U16) :
    linesEvents [.window x1 y1 x2 y2, .d16 v] = windowEvents x1 y1 x2 y2 ++ txnEvents .data (bytes16 v) := by
  simp [linesEvents, lineEvents]

/-! What a window, and a window with its data, send. -/

/-- Only the bus and the panel changed, by these events; the signals rest at this mode-select level (R26, R79). -/
def Sends (s t : State) (es : List BusEvent) (l : Mode) : Prop :=
  Emits s t es ∧ t.dc = l ∧ t.cs = .deasserted ∧ BusFrame s t

theorem sends_window (x1 y1 x2 y2 : Nat) (s : State) :
    Sends s (sendWindow x1 y1 x2 y2 s) (windowEvents x1 y1 x2 y2) .cmd :=
  ⟨sendWindow_trace x1 y1 x2 y2 s, sendWindow_dc x1 y1 x2 y2 s, sendWindow_cs x1 y1 x2 y2 s, by constructor <;> simp⟩

theorem sends_window_data (x1 y1 x2 y2 : Nat) (bs : List Byte) (s : State) :
    Sends s (txn .data bs (sendWindow x1 y1 x2 y2 s)) (windowEvents x1 y1 x2 y2 ++ txnEvents .data bs) .data :=
  ⟨by rw [Emits, txn_trace, sendWindow_trace, List.append_assoc], txn_dc .data bs _, txn_cs .data bs _,
    by constructor <;> simp⟩

/-- An accepted operation sends what its body sends: busy is set before the body and cleared after it (R130). -/
theorem Sends.accepted {s t : State} {es : List BusEvent} {l : Mode} (hbusy : s.busy = false)
    (h : Sends (beginOp s) t es l) : Sends s (endOp t) es l := by
  obtain ⟨emits, dc, cs, frame⟩ := h
  exact ⟨emits, dc, cs, { frame with busy := hbusy.symm }⟩

/-- A rejected operation changes nothing (R104, R105). -/
theorem endOp_beginOp {s : State} (hbusy : s.busy = false) : endOp (beginOp s) = s := by
  rw [endOp, beginOp, ← hbusy]

theorem exec_fill_rejected {s : State} (hbusy : s.busy = false) (h : ¬ s.ready = true) (r g b : Byte) :
    exec (.fill r g b) s = .next (endOp (beginOp s)) :=
  accept_next hbusy ((fillBody_eq r g b _).trans (if_neg h))

/-- Settles O19: the window check is the condition, and the window is its seven lines. -/
theorem setWindowSendsItsWindowOrFaults : Obligations.SetWindowSendsItsWindowOrFaults := by
  intro x1 y1 x2 y2 s
  have hexec : exec (.setWindow x1 y1 x2 y2) s = _ := setWindow_eq x1 y1 x2 y2 s
  split
  next h =>
    rw [linesEvents_windowLines]
    exact ⟨_, hexec.trans (if_pos h), sends_window x1 y1 x2 y2 s⟩
  next h => exact hexec.trans (if_neg h)

/-- Settles O22: the full window, and the run as its data. -/
theorem fillRawSendsOneRun : Obligations.FillRawSendsOneRun := by
  intro r g b s
  rw [linesEvents_window_run]
  exact ⟨_, exec_fillRaw r g b s, sends_window_data 0 0 239 239 _ s⟩

/-- Settles O23: a fill that is ready sends what FILL_RAW sends; one that is not is rejected. -/
theorem fillSendsOneRunWhenReady : Obligations.FillSendsOneRunWhenReady := by
  intro r g b s hbusy
  rw [linesEvents_window_run]
  by_cases hready : s.ready = true
  · refine ⟨_, exec_fill hbusy hready r g b, ?_⟩
    rw [if_pos hready]
    exact Sends.accepted hbusy (sends_window_data 0 0 239 239 _ _)
  · refine ⟨_, exec_fill_rejected hbusy hready r g b, ?_⟩
    rw [if_neg hready, endOp_beginOp hbusy]

/-- Settles O24: a pixel in bounds is a window of one pixel, and the value as its data; any other is rejected. -/
theorem drawPixelSendsOnePixelWhenInBounds : Obligations.DrawPixelSendsOnePixelWhenInBounds := by
  intro x y r g b s hbusy
  simp only [linesEvents_window_d16, ← inBounds_iff]
  by_cases h : s.ready = true ∧ inBounds x y = true
  · refine ⟨_, exec_drawPixel hbusy h.1 h.2 r g b, ?_⟩
    rw [if_pos h]
    exact Sends.accepted hbusy (sends_window_data (coordNat x) (coordNat y) (coordNat x) (coordNat y) _ _)
  · refine ⟨_, exec_drawPixel_rejected hbusy h r g b, ?_⟩
    rw [if_neg h, endOp_beginOp hbusy]

/-! Counts (R107). -/

section
variable (x1 y1 x2 y2 : Nat)

@[simp] theorem transactionCount_windowEvents : transactionCount (windowEvents x1 y1 x2 y2) = 7 := by
  simp [windowEvents]

@[simp] theorem length_traceBytes_windowEvents : (traceBytes (windowEvents x1 y1 x2 y2)).length = 11 := by
  simp [windowEvents, bytes16]

@[simp] theorem commandBytesFrom_windowEvents (l : Mode) :
    commandBytesFrom l (windowEvents x1 y1 x2 y2) = [0x2A, 0x2B, 0x2C] := by
  simp [windowEvents]

end

/-- A window and its data are eight transactions, the last of them the data. -/
theorem counts_of_emits_window_data {x1 y1 x2 y2 n : Nat} {bs : List Byte} {s t : State} (hn : bs.length = n)
    (h : Emits s t (windowEvents x1 y1 x2 y2 ++ txnEvents .data bs)) :
    transactionCount t.trace = transactionCount s.trace + 8 ∧
    (traceBytes t.trace).length = (traceBytes s.trace).length + (11 + n) ∧
    ∃ (es : List BusEvent) (ds : List Byte), t.trace = s.trace ++ es ++ txnEvents .data ds ∧ ds.length = n := by
  rw [h]
  refine ⟨?_, ?_, _, bs, (List.append_assoc ..).symm, hn⟩
  · simp
  · simp [hn]

/-- Settles O25: each operation's counts are those of the events it sends. -/
theorem countLaws : Obligations.CountLaws := by
  refine ⟨fun x1 y1 x2 y2 s t hexec => ?_, fun r g b s hbusy => ?_, fun x y r g b s hbusy => ?_⟩
  · have sent := setWindowSendsItsWindowOrFaults x1 y1 x2 y2 s
    rw [hexec, linesEvents_windowLines] at sent
    split at sent
    · obtain ⟨u, hu, emits, -⟩ := sent
      cases hu
      rw [emits]
      simp
    · cases sent
  · obtain ⟨t, hexec, sent⟩ := fillSendsOneRunWhenReady r g b s hbusy
    refine ⟨t, hexec, ?_⟩
    rw [linesEvents_window_run] at sent
    split at sent
    next hready =>
      rw [if_pos hready]
      exact counts_of_emits_window_data (length_runBytes _ _) sent.1
    next hready => rw [if_neg hready, sent]
  · obtain ⟨t, hexec, sent⟩ := drawPixelSendsOnePixelWhenInBounds x y r g b s hbusy
    refine ⟨t, hexec, ?_⟩
    rw [linesEvents_window_d16] at sent
    split at sent
    next h =>
      rw [if_pos h]
      exact counts_of_emits_window_data rfl sent.1
    next h => rw [if_neg h, sent]

end Sys2Proof.Machine
end

section
/-! The colour quantizer (R108 to R110): the quantized word is the weighted sum of its fields, each field is its channel
scaled by truncating division, and scaling is monotone with the ceilings of R110 as thresholds. -/

namespace Sys2Proof.Machine

theorem channel5_lt (c : Byte) : channel5 c < 32 := by
  have := c.isLt
  unfold channel5
  omega

theorem channel6_lt (c : Byte) : channel6 c < 64 := by
  have := c.isLt
  unfold channel6
  omega

/-! The fields of the word. -/

section
variable (r g b : Byte)

/-- The fields do not overlap, so the word is their weighted sum. -/
theorem toNat_quantizeColor :
    (quantizeColor r g b).toNat = 2 ^ 11 * channel5 r + (2 ^ 5 * channel6 g + channel5 b) := by
  have hr := channel5_lt r
  have hg := channel6_lt g
  have hb := channel5_lt b
  have low : 2 ^ 5 * channel6 g + channel5 b = 2 ^ 5 * channel6 g ||| channel5 b :=
    Nat.two_pow_add_eq_or_of_lt hb _
  have whole : 2 ^ 11 * channel5 r + (2 ^ 5 * channel6 g + channel5 b) =
      2 ^ 11 * channel5 r ||| (2 ^ 5 * channel6 g + channel5 b) :=
    Nat.two_pow_add_eq_or_of_lt (by omega) _
  rw [whole, low, quantizeColor, BitVec.toNat_or, BitVec.toNat_or, Nat.or_assoc]
  simp (disch := omega) only [BitVec.toNat_shiftLeft, BitVec.toNat_ofNat, Nat.shiftLeft_eq, Nat.mod_eq_of_lt,
    Nat.mul_comm]

theorem redField_quantizeColor : (quantizeColor r g b).toNat / 2048 = channel5 r := by
  have hg := channel6_lt g
  have hb := channel5_lt b
  rw [toNat_quantizeColor]
  omega

theorem greenField_quantizeColor : (quantizeColor r g b).toNat / 32 % 64 = channel6 g := by
  have hg := channel6_lt g
  have hb := channel5_lt b
  rw [toNat_quantizeColor]
  omega

theorem blueField_quantizeColor : (quantizeColor r g b).toNat % 32 = channel5 b := by
  have hb := channel5_lt b
  rw [toNat_quantizeColor]
  omega

end

/-- Settles O27: the word is `quantizeColor`, and the bits of each field are its channel scaled. -/
theorem quantizeScalesEachChannel : Obligations.QuantizeScalesEachChannel := by
  intro r g b s
  refine ⟨quantizeColor r g b, rfl, ?_, ?_, ?_⟩ <;>
    simp only [BitVec.extractLsb'_toNat, Nat.shiftRight_eq_div_pow, Nat.reducePow, Nat.div_one]
  · rw [redField_quantizeColor]
    exact Nat.mod_eq_of_lt (channel5_lt r)
  · exact greenField_quantizeColor r g b
  · exact blueField_quantizeColor r g b

/-! The thresholds. -/

/-- A channel scaled by `n` reaches `k` at the threshold of `k`, the ceiling of `255 k / n`. -/
theorem le_scaled_iff {n : Nat} (hn : 0 < n) (c k : Nat) : k ≤ c * n / 255 ↔ (255 * k + (n - 1)) / n ≤ c := by
  have ceiling : (255 * k + (n - 1)) / n = (255 * k) ⌈/⌉ n := by
    rw [Nat.ceilDiv_eq_add_pred_div, Nat.add_sub_assoc hn]
  rw [ceiling, ceilDiv_le_iff_le_mul hn, Nat.le_div_iff_mul_le (by decide), Nat.mul_comm k, Nat.mul_comm c]

/-- The value is `k` from the threshold of `k` up to the threshold of `k + 1`. -/
theorem scaled_eq_iff {n : Nat} (hn : 0 < n) (c k : Nat) :
    c * n / 255 = k ↔ (255 * k + (n - 1)) / n ≤ c ∧ c < (255 * (k + 1) + (n - 1)) / n := by
  rw [← Nat.not_le, ← le_scaled_iff hn, ← le_scaled_iff hn]
  omega

theorem channel5_eq_iff (c : Byte) (k : Nat) :
    channel5 c = k ↔ (255 * k + 30) / 31 ≤ c.toNat ∧ c.toNat < (255 * (k + 1) + 30) / 31 :=
  scaled_eq_iff (by decide) c.toNat k

theorem channel6_eq_iff (c : Byte) (k : Nat) :
    channel6 c = k ↔ (255 * k + 62) / 63 ≤ c.toNat ∧ c.toNat < (255 * (k + 1) + 62) / 63 :=
  scaled_eq_iff (by decide) c.toNat k

theorem channel5_mono {c c' : Byte} (h : c.toNat ≤ c'.toNat) : channel5 c ≤ channel5 c' :=
  Nat.div_le_div_right (Nat.mul_le_mul_right 31 h)

theorem channel6_mono {c c' : Byte} (h : c.toNat ≤ c'.toNat) : channel6 c ≤ channel6 c' :=
  Nat.div_le_div_right (Nat.mul_le_mul_right 63 h)

/-- Settles O28: each field is its channel scaled, which is monotone and has its thresholds; the lists are computed. -/
theorem quantizerThresholds : Obligations.QuantizerThresholds := by
  refine ⟨fun r g b => ?_, by decide, by decide⟩
  simp only [redField_quantizeColor, greenField_quantizeColor, blueField_quantizeColor]
  exact ⟨fun k _ => channel5_eq_iff r k, fun k _ => channel6_eq_iff g k, fun k _ => channel5_eq_iff b k,
    fun _ _ _ => ⟨channel5_mono, channel6_mono, channel5_mono⟩⟩

end Sys2Proof.Machine
end

section
/-! One step (R113, R129, R142): with a well-formed table the next request is taken and the instruction it decodes to is
executed; a request that is no instruction is refused. -/

namespace Sys2Proof.Machine

section
variable {s : State} (hwf : wfInit s.cfg = true)
include hwf

/-- With no request a step is idle (R142). -/
theorem step_of_no_request (hp : s.pending = []) : step s = .next s := by
  rw [step, if_pos hwf, takeRequest, hp]

theorem step_of_decode_ok {r : Request} {rest : List Request} {i : Instr} (hp : s.pending = r :: rest)
    (hd : decode r = .ok i) : step s = exec i { s with pending := rest } := by
  rw [step, if_pos hwf, takeRequest, hp]
  simp only [hd]

theorem step_of_decode_error {r : Request} {rest : List Request} {e : DecodeError} (hp : s.pending = r :: rest)
    (hd : decode r = .error e) : step s = .refused (.undecodable e) := by
  rw [step, if_pos hwf, takeRequest, hp]
  simp only [hd]

end

/-- The decoder reads the word back from its two bytes, the low byte first (log 16). -/
theorem decodeBytes_tableBytes (nbits w : Nat) :
    decodeBytes (tableBytes nbits w) = (decodeWord (tableWord nbits w)).map fun i => (i, []) := by
  have hword : hi8 (tableWord nbits w) ++ lo8 (tableWord nbits w) = tableWord nbits w := joinBytes_hi8_lo8 _
  rw [tableBytes, decodeBytes, hword]
  cases decodeWord (tableWord nbits w) <;> rfl

theorem decodeWord_of_decodeTableWord {nbits w : Nat} {i : Instr} (h : decodeTableWord nbits w = some i) :
    decodeWord (tableWord nbits w) = .ok i := by
  rw [decodeTableWord, decodeBytes_tableBytes] at h
  cases hd : decodeWord (tableWord nbits w) with
  | ok j => rw [hd] at h; cases h; rfl
  | error e => rw [hd] at h; cases h

/-- Settles O51: a step by what its request decodes to; a word placed as the next request is taken off again. -/
theorem stepRunsTheDecodedInstruction : Obligations.StepRunsTheDecodedInstruction :=
  ⟨fun _ _ _ _ hwf hp hd => step_of_decode_ok hwf hp hd, fun _ _ _ _ hwf hp hd => step_of_decode_error hwf hp hd,
    fun s nbits w _ hwf h =>
      step_of_decode_ok (s := s.withFetchWord nbits w) hwf rfl (decodeWord_of_decodeTableWord h)⟩

end Sys2Proof.Machine
end

section
/-! UPDATE and the queries (R116 to R120), and what a block that is not ready does (R122): an accepted operation whose body is
one update of the state makes that update and nothing else. -/

namespace Sys2Proof.Machine

/-- An accepted update of the state: busy is set for its body and as before after it (R130). -/
theorem accept_update {f : State → State} {s t : State} (hbusy : t.busy = false) (hs : s.busy = t.busy)
    (hf : f (beginOp s) = beginOp t) : accept (fun u => .next (f u)) s = .next t := by
  rw [accept_next (body := fun u => .next (f u)) (hs.trans hbusy) rfl, hf, endOp_beginOp hbusy]

section
variable {s : State} (hbusy : s.busy = false)
include hbusy

theorem exec_update : exec .update s = .next { s with diagCount := s.diagCount + 1 } :=
  accept_update (f := countTick) hbusy rfl rfl

theorem exec_getWidth : exec .getWidth s = .next { s with returns := s.returns ++ [.u16 240] } :=
  accept_update (f := returnValue (.u16 240)) hbusy rfl rfl

theorem exec_getHeight : exec .getHeight s = .next { s with returns := s.returns ++ [.u16 240] } :=
  accept_update (f := returnValue (.u16 240)) hbusy rfl rfl

theorem exec_getIsColor : exec .getIsColor s = .next { s with returns := s.returns ++ [.bool true] } :=
  accept_update (f := returnValue (.bool true)) hbusy rfl rfl

theorem exec_getDiagCount : exec .getDiagCount s = .next { s with returns := s.returns ++ [.u32 s.diagCount] } :=
  accept_update (f := fun u => returnValue (.u32 u.diagCount) u) hbusy rfl rfl

end

/-- Settles O32: the counter is a 32-bit word, so its addition wraps at 2^32. -/
theorem updateCountsOneTick : Obligations.UpdateCountsOneTick := fun s hbusy =>
  ⟨_, exec_update hbusy, BitVec.toNat_add s.diagCount 1, rfl⟩

/-- Settles O33: the equations of the four queries. -/
theorem queriesReturnTheirValues : Obligations.QueriesReturnTheirValues := fun _ hbusy =>
  ⟨exec_getWidth hbusy, exec_getHeight hbusy, exec_getIsColor hbusy, exec_getDiagCount hbusy⟩

/-- Settles O34: not ready, FILL and DRAW_PIXEL are rejected; UPDATE and the queries do not look at ready. -/
theorem beforeSetupNothingIsSent : Obligations.BeforeSetupNothingIsSent := by
  intro s hbusy hready
  have notReady : ¬ s.ready = true := by rw [hready]; decide
  refine ⟨fun r g b => ?_, fun x y r g b => ?_, exec_update hbusy, fun i hi => ?_⟩
  · rw [exec_fill_rejected hbusy notReady, endOp_beginOp hbusy]
  · rw [exec_drawPixel_rejected hbusy fun h => notReady h.1, endOp_beginOp hbusy]
  · simp only [List.mem_cons, List.not_mem_nil, or_false] at hi
    obtain rfl | rfl | rfl | rfl := hi
    · exact ⟨_, exec_getWidth hbusy⟩
    · exact ⟨_, exec_getHeight hbusy⟩
    · exact ⟨_, exec_getIsColor hbusy⟩
    · exact ⟨_, exec_getDiagCount hbusy⟩

end Sys2Proof.Machine
end

section
/-! SETUP (R114, R115, R121): the first one sends the events of its closed form and ends ready, a second one stops; in a run
of host operations nothing else stops (R129, R130). -/

namespace Sys2Proof.Machine

open Sys2Proof.Safety

/-- The first SETUP runs (R114). -/
theorem exec_setup {s : State} (hbusy : s.busy = false) (hfirst : s.setupDone = false) :
    exec .setup s = .next (endOp (setupState (beginOp s))) :=
  accept_next hbusy ((setupBody_eq _).trans (if_neg (by rw [beginOp_setupDone, hfirst]; decide)))

/-- The initial fill of SETUP is the pseudo-line FULLFILL (R76). -/
theorem linesEvents_fullFill (v : U16) :
    linesEvents [.window 0 0 239 239, .run v (240 * 240)] = fullFillEvents v :=
  linesEvents_window_run 0 0 239 239 v (240 * 240)

/-! The signals after SETUP. -/

theorem setupState_dc (s : State) : (setupState s).dc = .data := by
  rw [setupState, markReady_dc, writeColorRun_dc]

theorem setupState_cs (s : State) : (setupState s).cs = .deasserted := by
  rw [setupState, markReady_cs, writeColorRun_cs]

theorem driveBacklight_rst (s : State) : (driveBacklight s).rst = s.rst := by
  rw [driveBacklight_eq]; split <;> rfl

theorem driveBacklight_bl (s : State) : (driveBacklight s).bl = if s.cfg.hasBl = true then .high else s.bl := by
  rw [driveBacklight_eq]; split <;> rfl

theorem hwResetPulse_rst_eq (s : State) :
    (hwResetPulse s).rst = if s.cfg.hasRst = true then .inactive else s.rst := by
  split
  next h => rw [hwResetPulse_eq s h]
  next h => rw [hwResetPulse, if_neg h]

theorem hwResetPulse_bl (s : State) : (hwResetPulse s).bl = s.bl := by
  by_cases h : s.cfg.hasRst = true
  · rw [hwResetPulse_eq s h]
  · rw [hwResetPulse, if_neg h]

theorem setupState_rst (s : State) : (setupState s).rst = if s.cfg.hasRst = true then .inactive else s.rst := by
  rw [setupState, markReady_rst, writeColorRun_rst, sendWindow_rst, runInit_rst, hwResetPulse_rst_eq, driveBacklight_cfg,
    driveBacklight_rst, markSetupDone_cfg, markSetupDone_rst]

theorem setupState_bl (s : State) : (setupState s).bl = if s.cfg.hasBl = true then .high else s.bl := by
  rw [setupState, markReady_bl, writeColorRun_bl, sendWindow_bl, runInit_bl, hwResetPulse_bl, driveBacklight_bl,
    markSetupDone_cfg, markSetupDone_bl]

/-- Settles O29: the trace is that of the closed form, the status fields are those of `statusAfter`, the signals those of
`setupState`. -/
theorem firstSetupRunsToReady : Obligations.FirstSetupRunsToReady := by
  intro s hbusy hfirst
  have hexec := exec_setup hbusy hfirst
  obtain ⟨cfg, ready, setupDone, busy, diagCount, seqPc, returns, quantOut, pending⟩ := exec_sameStatus hexec
  have trace := (exec_sameBus hexec).trace.trans (emitAll_trace _ s)
  refine ⟨_, hexec, ?_, ready, setupDone, busy.trans hbusy, seqPc, ?_, ?_, ?_, ?_, cfg, diagCount, returns, quantOut,
    pending⟩
  · rw [linesEvents_fullFill, ← resetPulseEvents_eq, ← funext stepEvents_eq]
    exact trace
  · rw [endOp_dc, setupState_dc]
  · rw [endOp_cs, setupState_cs]
  · rw [endOp_rst, setupState_rst, beginOp_cfg, beginOp_rst]
  · rw [endOp_bl, setupState_bl, beginOp_cfg, beginOp_bl]

/-! Where a host operation stops. -/

/-- A host operation on a block that is not busy stops only as a second SETUP (R115, R132). -/
theorem stopOf_decodeHost {s : State} (hbusy : s.busy = false) (op : HostOp) :
    stopOf (decodeHost op) s = if op = .setup ∧ s.setupDone = true then some .setupRepeated else none := by
  cases op with
  | setup => simp [decodeHost, stopOf, hbusy]
  | update | fill | drawPixel | getWidth | getHeight | getIsColor | getDiagCount => simp [decodeHost, stopOf, hbusy]

/-- A host operation on a block that is not busy runs, unless it is a second SETUP. -/
theorem exec_decodeHost {s : State} (hbusy : s.busy = false) (op : HostOp) :
    (∃ t, exec (decodeHost op) s = .next t) ∨
      op = .setup ∧ s.setupDone = true ∧ exec (decodeHost op) s = .fault .setupRepeated := by
  have stops := exec_stopsAs (decodeHost op) s
  rw [stopOf_decodeHost hbusy] at stops
  split at stops
  next second => exact .inr ⟨second.1, second.2, stops⟩
  next => exact .inl stops

/-- Settles O31: the stop of a second SETUP. -/
theorem secondSetupFaults : Obligations.SecondSetupFaults := by
  intro s hbusy hdone
  have stops := exec_stopsAs (decodeHost .setup) s
  rwa [stopOf_decodeHost hbusy, if_pos ⟨rfl, hdone⟩] at stops

/-- Settles O55: a step is idle or the host operation of the next request. -/
theorem hostRunsStopOnlyOnASecondSetup : Obligations.HostRunsStopOnlyOnASecondSetup := by
  intro s host hwf
  cases hp : s.pending with
  | nil => exact .inl ⟨s, step_of_no_request hwf hp⟩
  | cons r rest =>
    have hostOnly := host.hostOnly
    rw [HostOnly, hp, List.all_cons, Bool.and_eq_true] at hostOnly
    cases r with
    | host op =>
      have hstep : step s = exec (decodeHost op) { s with pending := rest } := step_of_decode_ok hwf hp rfl
      rw [Runs, hstep]
      obtain runs | ⟨rfl, hdone, hfault⟩ := exec_decodeHost (s := { s with pending := rest }) host.inv.busy op
      · exact .inl runs
      · exact .inr ⟨hfault, hdone, rfl⟩
    | micro op => cases hostOnly.1
    | wire w => cases hostOnly.1

end Sys2Proof.Machine
end

section
/-! Every host operation (R129, R130, R132): CONCURRENT_OP while busy, then SETUP_REPEATED on a second SETUP, and no other
stop. -/

namespace Sys2Proof.Machine

open Sys2Proof.Safety

/-- The instructions of the host's rows are those that host operations decode to (R70, R71). -/
theorem exists_decodeHost_of_isHostInstr {i : Instr} (hi : isHostInstr i = true) : ∃ op, decodeHost op = i := by
  cases i with
  | setup => exact ⟨.setup, rfl⟩
  | update => exact ⟨.update, rfl⟩
  | fill r g b => exact ⟨.fill r g b, rfl⟩
  | drawPixel x y r g b => exact ⟨.drawPixel x y r g b, rfl⟩
  | getWidth => exact ⟨.getWidth, rfl⟩
  | getHeight => exact ⟨.getHeight, rfl⟩
  | getIsColor => exact ⟨.getIsColor, rfl⟩
  | getDiagCount => exact ⟨.getDiagCount, rfl⟩
  | _ => cases hi

/-- A host operation on a busy block stops as CONCURRENT_OP, a second SETUP too (R130, R132). -/
theorem stopOf_decodeHost_of_busy {s : State} (hbusy : s.busy = true) (op : HostOp) :
    stopOf (decodeHost op) s = some .concurrentOp := by
  cases op <;> exact if_pos hbusy

/-- Settles O35: the stop of a host operation on a busy block. -/
theorem busyHostOperationFaults : Obligations.BusyHostOperationFaults := by
  intro i s hi hbusy
  obtain ⟨op, rfl⟩ := exists_decodeHost_of_isHostInstr hi
  have stops := exec_stopsAs (decodeHost op) s
  rwa [stopOf_decodeHost_of_busy hbusy] at stops

/-- Settles O36: a busy block stops as O35 says; on one that is not busy, only a second SETUP does not run, and busy after an
operation that runs is as before it. -/
theorem hostOperationsStopOnlyAsTheSpecSays : Obligations.HostOperationsStopOnlyAsTheSpecSays := by
  intro i s hi
  cases hbusy : s.busy with
  | true => exact .inl ⟨rfl, busyHostOperationFaults i s hi hbusy⟩
  | false =>
    obtain ⟨op, rfl⟩ := exists_decodeHost_of_isHostInstr hi
    obtain ⟨t, hexec⟩ | ⟨rfl, hdone, hfault⟩ := exec_decodeHost hbusy op
    · have first (hsetup : decodeHost op = .setup) : s.setupDone = false := eq_false_of_ne_true fun hdone => by
        rw [hsetup, secondSetupFaults s hbusy hdone] at hexec
        cases hexec
      have busy : t.busy = s.busy := (exec_sameStatus hexec).busy.trans (statusAfter_busy _ s)
      exact .inr (.inr ⟨rfl, first, t, hexec, busy.trans hbusy⟩)
    · exact .inr (.inl ⟨rfl, rfl, hdone, hfault⟩)

end Sys2Proof.Machine
end

section
/-! SETUP from any state of the controller (R59, R92, R143): a well-formed table begins with the software reset, which starts
the settle time anew and waits it out, so the fill that follows finds the controller accepting. -/

namespace Sys2Proof.Machine

open Sys2Proof.Safety

/-- After a well-formed table no settle time runs, however much of one was left before it (R57, R92). -/
theorem settle_table {c : Config} (hwf : wfInit c = true) (s : State) :
    (emitAll (c.initTable.flatMap stepEvents) s).panel.settle = 0 := by
  have wait : ∀ st ∈ c.initTable, minDelayMs st.cmd ≤ st.delayMs.toNat := fun st hst => (wfInit_step hwf st hst).1
  obtain ⟨wf16, -, -⟩ := (wfInit_iff c).1 hwf
  obtain ⟨first, rest, htable, hreset, -, -⟩ := (wf1_wf6_iff c).1 wf16
  rw [htable] at wait ⊢
  obtain ⟨waitFirst, waitRest⟩ := List.forall_mem_cons.1 wait
  rw [List.flatMap_cons, emitAll_append]
  exact settle_steps rest _ waitRest (settle_step first s waitFirst (.inr hreset))

theorem accepting_runInit {s : State} (hwf : wfInit s.cfg = true) (hr : s.rst = .inactive) : Accepting (runInit s) := by
  rw [accepting_iff, runInit_rst, (runInit_sameBus s).panel]
  exact ⟨hr, settle_table hwf s⟩

/-- The state in which SETUP begins its fill (R114). -/
def initializedState (s : State) : State := runInit (hwResetPulse (driveBacklight (markSetupDone s)))

theorem accepting_initializedState {s : State} (hwf : wfInit s.cfg = true) (hr : s.rst = .inactive) :
    Accepting (initializedState s) :=
  accepting_runInit (by rwa [hwResetPulse_cfg, driveBacklight_cfg, markSetupDone_cfg])
    (hwResetPulse_rst _ (by rw [driveBacklight_rst, markSetupDone_rst, hr]))

/-- At the panel SETUP ends with the full fill of the initialized state. -/
theorem filled_setupState {s : State} (acc : Accepting (initializedState s)) :
    Filled (quantizeColor s.cfg.initialFillColor.r s.cfg.initialFillColor.g s.cfg.initialFillColor.b)
      (initializedState s) (setupState s) :=
  filled_of_panel acc (by rw [setupState, markReady_rst, writeColorRun_rst, sendWindow_rst, initializedState])
    (by rw [setupState, markReady_panel, initializedState])

/-- Settles O30: the table leaves the controller accepting, and then the full-fill law holds of SETUP's fill. -/
theorem setupFillsThePanelFromAnyControllerState : Obligations.SetupFillsThePanelFromAnyControllerState := by
  intro s hbusy hfirst hwf hr
  have filled := filled_setupState (accepting_initializedState (s := beginOp s) hwf hr)
  refine ⟨_, exec_setup hbusy hfirst, ?_, ?_⟩
  · rw [Accepting, endOp_rst, endOp_panel]
    exact filled.accepting
  · rw [endOp_panel, ← beginOp_cfg s]
    exact filled.cells

end Sys2Proof.Machine
end

section
/-! The state after reset (R141), the invariants there, and a block without a request (R123, R142). -/

namespace Sys2Proof.Machine

open Sys2Proof.Safety

/-- Settles O48: the fields of the reset state. -/
theorem resetValues : Obligations.ResetValues := fun _ =>
  ⟨rfl, rfl, rfl, rfl, rfl, rfl, rfl, rfl, rfl, rfl, rfl, rfl⟩

/-- A run is over exactly when nothing is left to issue and no operation is under way (R123). -/
theorem finished_iff (s : State) : finished s = true ↔ s.pending = [] ∧ s.busy = false := by
  simp [finished]

/-- Settles O50: the idle step, and the end of a run for a state with nothing left to issue. -/
theorem nothingHappensWithoutARequest : Obligations.NothingHappensWithoutARequest := fun s hwf hp =>
  ⟨step_of_no_request hwf hp, (finished_iff s).trans (and_iff_right hp)⟩

/-- The trace after reset is empty, and its frame memory holds no byte. -/
theorem inv_resetWith (c : Config) : Inv (State.resetWith c) where
  framed := rfl
  cs := rfl
  sclk := rfl
  rst := rfl
  noBacklight _ := rfl
  dc := ⟨.cmd, rfl⟩
  gram := gramWf_nil
  seqPc := Nat.zero_le _
  setup := nofun
  busy := rfl

/-- An empty trace owes no delay and has no command without its data. -/
theorem hostInv_resetWith (c : Config) : HostInv (State.resetWith c) where
  inv := inv_resetWith c
  hostOnly := rfl
  settle := rfl
  delays l := (delaysKept_iff l []).2 ⟨l, rfl⟩
  payloads l := (payloadsExact_iff c.initTable l []).2 ⟨Stream.start l, rfl, rfl, rfl⟩

/-- Settles O52: both invariants at the state after reset. -/
theorem invariantsHoldAtReset : Obligations.InvariantsHoldAtReset := fun c => ⟨inv_resetWith c, hostInv_resetWith c⟩

end Sys2Proof.Machine
end
